-- ==== Sys2Proof/Word.lean ====
section
/-! DEFINITION. The plainest value types of the block: a byte (also an element of GF(256)), a 32-bit
bus word, and the three-valued cell of the matrix. -/

namespace Sys2Proof

/-- A byte of a buffer, a codeword, or an element of GF(256), whose sum is `^^^` (00_scope.md R9, R10). -/
abbrev Byte := BitVec 8

/-- A register or bus word (20_memory.md R60). -/
abbrev Word := BitVec 32

/-- The value of one matrix cell (00_scope.md R13, 10_state.md R39). -/
inductive Colour where
  | unset
  | light
  | dark
  deriving DecidableEq, Repr, Inhabited

/-- The finished colour of a bit: 1 is Dark, 0 is Light (R13). -/
def Colour.ofBit : Bool → Colour
  | true => .dark
  | false => .light

end Sys2Proof
end

