-- ==== Sys2Proof/Syntax.lean ====
section
/-! DEFINITION. The command set: one constructor for each row of spec/opcode_table.json
(30_encoding.md R94). Operands are the plain numbers of R92; WellFormed bounds them. -/

namespace Sys2Proof

/-- A command of the block (30_encoding.md R91, R92, R94). -/
inductive Instr where
  | nop
  | gfLog
  | gfExp
  | polyMul
  /-- `s`, the shift of the dividend. -/
  | polyMod (s : Nat)
  /-- `k`, the degree of the generator. -/
  | polyGen (k : Nat)
  | rsLookup
  /-- `k`, the EC count. -/
  | rsEcc (k : Nat)
  | segEncode
  | cwBuild
  | bchFmt
  | bchVer
  /-- `m`, the mask id. -/
  | maskEval (m : Nat)
  /-- `m`, the mask id, and `t`, the trial flag. -/
  | matBuild (m : Nat) (t : Bool)
  | matScore
  | maskSelect
  | symFinal
  | symEncode
  | symQuery
  deriving DecidableEq, Repr

end Sys2Proof
end

