-- ==== Sys2Proof/WellFormed.lean ====
section
/-! DEFINITION. Which commands a command word can hold: the operand FA is an 8-bit unsigned number
(30_encoding.md R90, R92). -/

namespace Sys2Proof

/-- The command fits a command word: its FA operand is below 256. -/
def Instr.wellFormed : Instr → Bool
  | .nop | .gfLog | .gfExp | .polyMul | .rsLookup | .segEncode | .cwBuild | .bchFmt | .bchVer
  | .matScore | .maskSelect | .symFinal | .symEncode | .symQuery => true
  | .polyMod s => decide (s < 256)
  | .polyGen k => decide (k < 256)
  | .rsEcc k => decide (k < 256)
  | .maskEval m => decide (m < 256)
  | .matBuild m _ => decide (m < 256)

/-- Well-formedness as a proposition. -/
abbrev Instr.WellFormed (i : Instr) : Prop := i.wellFormed = true

end Sys2Proof
end

