-- ==== Sys2Proof/Decode.lean ====
section
/-! DEFINITION. The command decoder, total on any 32-bit word and rejecting by name, and the encoder
(30_encoding.md R90 to R97). -/

namespace Sys2Proof

/-- The three command formats (30_encoding.md R91). -/
inductive Format where
  | f0
  | fa
  | fab
  deriving DecidableEq, Repr

/-- The bits a format fixes: the opcode and every must-be-zero bit (30_encoding.md R95). -/
def Format.mask : Format → Word
  | .f0 => 0xFFFFFFFF#32
  | .fa => 0xFFFF00FF#32
  | .fab => 0xFFFE00FF#32

/-- Why a word is no command (30_encoding.md R96). -/
inductive DecodeError where
  /-- The opcode byte is not in the table. -/
  | unassignedOpcode (op : Byte)
  /-- The opcode is listed and a must-be-zero bit of its format is 1. -/
  | nonzeroReserved (op : Byte)
  deriving DecidableEq, Repr

/-- Field OP, bits [7:0] (30_encoding.md R90). -/
def opField (w : Word) : Byte := w.extractLsb' 0 8

/-- Field FA, bits [15:8], as an unsigned number (30_encoding.md R90, R92). -/
def faField (w : Word) : Nat := (w.extractLsb' 8 8).toNat

/-- Operand T, bit 0 of FB (30_encoding.md R91). -/
def tField (w : Word) : Bool := w.getLsbD 16

/-- A row of the opcode map: opcode, format, and the command its operands make. -/
structure OpcodeRow where
  op : Byte
  format : Format
  build : Nat → Bool → Instr

/-- The opcode map (30_encoding.md R94). -/
def opcodeTable : List OpcodeRow :=
  [ ⟨0x00#8, .f0, fun _ _ => .nop⟩,
    ⟨0x10#8, .f0, fun _ _ => .gfLog⟩,
    ⟨0x11#8, .f0, fun _ _ => .gfExp⟩,
    ⟨0x18#8, .f0, fun _ _ => .polyMul⟩,
    ⟨0x19#8, .fa, fun s _ => .polyMod s⟩,
    ⟨0x1A#8, .fa, fun k _ => .polyGen k⟩,
    ⟨0x20#8, .f0, fun _ _ => .rsLookup⟩,
    ⟨0x21#8, .fa, fun k _ => .rsEcc k⟩,
    ⟨0x22#8, .f0, fun _ _ => .segEncode⟩,
    ⟨0x23#8, .f0, fun _ _ => .cwBuild⟩ ] ++
  [ ⟨0x30#8, .f0, fun _ _ => .bchFmt⟩,
    ⟨0x31#8, .f0, fun _ _ => .bchVer⟩,
    ⟨0x40#8, .fa, fun m _ => .maskEval m⟩,
    ⟨0x41#8, .fab, fun m t => .matBuild m t⟩,
    ⟨0x42#8, .f0, fun _ _ => .matScore⟩,
    ⟨0x43#8, .f0, fun _ _ => .maskSelect⟩,
    ⟨0x44#8, .f0, fun _ _ => .symFinal⟩,
    ⟨0x50#8, .f0, fun _ _ => .symEncode⟩,
    ⟨0x51#8, .f0, fun _ _ => .symQuery⟩ ]

/-- The word selects the row: the masked bits are the opcode and zeros (30_encoding.md R95). -/
def OpcodeRow.selects (r : OpcodeRow) (w : Word) : Bool :=
  (w &&& r.format.mask) == r.op.setWidth 32

/-- The command a word stands for, or why it is illegal (30_encoding.md R95, R96). -/
def decode (w : Word) : Except DecodeError Instr :=
  match opcodeTable.find? (fun r => r.selects w) with
  | some r => .ok (r.build (faField w) (tField w))
  | none =>
    if opcodeTable.any (fun r => r.op == opField w) then .error (.nonzeroReserved (opField w))
    else .error (.unassignedOpcode (opField w))

/-- The opcode of a command (30_encoding.md R94). -/
def Instr.opcode : Instr → Byte
  | .nop => 0x00#8
  | .gfLog => 0x10#8
  | .gfExp => 0x11#8
  | .polyMul => 0x18#8
  | .polyMod _ => 0x19#8
  | .polyGen _ => 0x1A#8
  | .rsLookup => 0x20#8
  | .rsEcc _ => 0x21#8
  | .segEncode => 0x22#8
  | .cwBuild => 0x23#8
  | .bchFmt => 0x30#8
  | .bchVer => 0x31#8
  | .maskEval _ => 0x40#8
  | .matBuild _ _ => 0x41#8
  | .matScore => 0x42#8
  | .maskSelect => 0x43#8
  | .symFinal => 0x44#8
  | .symEncode => 0x50#8
  | .symQuery => 0x51#8

/-- The format of a command (30_encoding.md R94). -/
def Instr.format : Instr → Format
  | .nop => .f0
  | .gfLog => .f0
  | .gfExp => .f0
  | .polyMul => .f0
  | .polyMod _ => .fa
  | .polyGen _ => .fa
  | .rsLookup => .f0
  | .rsEcc _ => .fa
  | .segEncode => .f0
  | .cwBuild => .f0
  | .bchFmt => .f0
  | .bchVer => .f0
  | .maskEval _ => .fa
  | .matBuild _ _ => .fab
  | .matScore => .f0
  | .maskSelect => .f0
  | .symFinal => .f0
  | .symEncode => .f0
  | .symQuery => .f0

/-- Operand FA of a command, 0 where its format has none (30_encoding.md R91). -/
def Instr.operandA : Instr → Nat
  | .polyMod s => s
  | .polyGen k => k
  | .rsEcc k => k
  | .maskEval m => m
  | .matBuild m _ => m
  | .nop | .gfLog | .gfExp | .polyMul | .rsLookup | .segEncode | .cwBuild | .bchFmt | .bchVer
  | .matScore | .maskSelect | .symFinal | .symEncode | .symQuery => 0

/-- Operand FB of a command, 0 where its format has none (30_encoding.md R91). -/
def Instr.operandB : Instr → Nat
  | .matBuild _ t => t.toNat
  | .nop | .gfLog | .gfExp | .polyMul | .polyMod _ | .polyGen _ | .rsLookup | .rsEcc _ | .segEncode
  | .cwBuild | .bchFmt | .bchVer | .maskEval _ | .matScore | .maskSelect | .symFinal | .symEncode
  | .symQuery => 0

/-- The command word `OP | FA << 8 | FB << 16` (30_encoding.md R98). -/
def encode (i : Instr) : Word :=
  i.opcode.setWidth 32 ||| BitVec.ofNat 32 i.operandA <<< 8 ||| BitVec.ofNat 32 i.operandB <<< 16

/-- The word a command stands as on the bus: its `nbits` table bits, every bit above them 0. -/
def tableWord (nbits w : Nat) : Word := BitVec.ofNat 32 (w % 2 ^ nbits)

/-- What the decoder reads from a command whose table bits are `w`. -/
def decodeTableWord (nbits w : Nat) : Option Instr := (decode (tableWord nbits w)).toOption

end Sys2Proof
end

