-- ==== Sys2Proof/Config.lean ====
section
/-! DEFINITION. What is fixed for this block (00_scope.md R8) and the FREE VALUES: constants with no
body, about which nothing can be proved, one for each value the spec leaves open
(93_implementation_defined.md section 1). -/

namespace Sys2Proof

/-- The constant of the ID register (00_scope.md R2, 10_state.md R22). -/
def Config.idValue : Word := 0x51524307#32

/-- FREE VALUE. The byte a buffer address holds when nothing has written it since the reset whose draw
is the first argument (70_reset_and_hazards.md R292, 92_eei_decisions.md D41: unknown but stable). -/
opaque Config.powerUpByte : Nat → Nat → Byte

/-- FREE VALUE. The cell of MAT at (row, column) whose content is unspecified: after reset
(70_reset_and_hazards.md R292) and after MASK.SELECT (44_mask_symbol.md R241). First argument: the draw. -/
opaque Config.unknownColour : Nat → Nat → Nat → Colour

/-- FREE VALUE. What a host read other than of STATUS and ID returns while BUSY: a fresh draw at each
read (70_reset_and_hazards.md R302). -/
opaque Config.busyRead : Nat → Word

/-- FREE VALUE. LAT(op): how many host turns pass between the acceptance of a command word and the
step in which it completes (70_reset_and_hazards.md R304, R310). Second argument: the draw. -/
opaque Config.latency : Word → Nat → Nat

end Sys2Proof
end

