-- ==== Sys2Proof/Machine/State.lean ====
section
/-! DEFINITION. The state of the block as plain data (10_state.md), the state after reset
(70_reset_and_hazards.md R290 to R292), and the reasons a step can stop. -/

namespace Sys2Proof.Machine

/-- The sequencer state (10_state.md R21). It is STATUS.BUSY. -/
inductive Seq where
  | idle
  | busy
  deriving DecidableEq, Repr

/-- The size of a bus access: 1, 2 or 4 bytes (20_memory.md R60). -/
inductive AccessSize where
  | b1
  | b2
  | b4
  deriving DecidableEq, Repr

/-- What the host does to the block: a bus read, a bus write (20_memory.md R60) or a pulse of the
reset input (70_reset_and_hazards.md R290). -/
inductive HostEvent where
  | read (addr : BitVec 16) (n : AccessSize)
  | write (addr : BitVec 16) (n : AccessSize) (v : Word)
  | reset
  deriving DecidableEq, Repr

/-- What stage SEG latched: the fields of DINFO (10_state.md R32, R40). -/
structure SegInfo where
  ndata : BitVec 12
  version : BitVec 6
  level : BitVec 2
  deriving DecidableEq, Repr

/-- What stage CW latched: the fields of CINFO (10_state.md R33, R40). -/
structure CwInfo where
  ncw : BitVec 12
  version : BitVec 6
  level : BitVec 2
  deriving DecidableEq, Repr

/-- What stage MAT latched: the fields of SYMINFO that are not computed from the others (10_state.md R34, R40). -/
structure SymInfo where
  version : BitVec 6
  level : BitVec 2
  mask : BitVec 3
  trial : Bool
  deriving DecidableEq, Repr

/-- The four pipeline stages (10_state.md R40). -/
inductive Stage where
  | seg
  | cw
  | sel
  | mat
  deriving DecidableEq, Repr

/-- Buffer memory: the bytes written since reset, at their bus addresses, addresses strictly rising.
An address that is not listed has no value of its own (log entry 4). -/
abbrev Memory := List Host.Cell

/-- A matrix, row by row (10_state.md R39: row 0 at the top, column 0 at the left). -/
abbrev Grid := List (List Colour)

/-- The state of the block. -/
structure State where
  /-- CMD, the last accepted command word (R23). -/
  cmd : Word
  /-- SEQ, which STATUS.BUSY shows (R21, R24). -/
  seq : Seq
  /-- MODEL: host turns left before the command in progress completes (log entry 2). -/
  wait : Nat
  /-- STATUS.DONE (R24). -/
  done : Bool
  /-- STATUS.ERR (R24). -/
  err : Bool
  /-- STATUS.OVERRUN (R24). -/
  overrun : Bool
  /-- STATUS.ERRCODE (R24). -/
  errcode : BitVec 4
  /-- ERRINFO (R25). -/
  errinfo : Word
  /-- CFG.VERSION (R26). -/
  cfgVersion : BitVec 6
  /-- CFG.LEVEL (R26). -/
  cfgLevel : BitVec 2
  /-- PLEN.LEN (R27). -/
  plen : BitVec 16
  /-- ARG0 (R28). -/
  arg0 : Word
  /-- ARG1 (R28). -/
  arg1 : Word
  /-- LA (R29). -/
  la : BitVec 9
  /-- LB (R29). -/
  lb : BitVec 9
  /-- LR (R30). -/
  lr : BitVec 9
  /-- RES0 to RES7 (R35). -/
  res : Vector Word 8
  /-- Stage SEG: STATUS.DVALID and DINFO (R32, R40). `none`: not valid. -/
  seg : Option SegInfo
  /-- Stage CW: STATUS.CVALID and CINFO (R33, R40). -/
  cw : Option CwInfo
  /-- Stage SEL: STATUS.SVALID and MASKSEL (R31, R40). -/
  sel : Option (BitVec 3)
  /-- Stage MAT: STATUS.MSTATE and SYMINFO (R34, R40). `none`: EMPTY. -/
  sym : Option SymInfo
  /-- PBUF, PA, PB, PR, DBUF and CWBUF (R37, R38) at their bus addresses (20_memory.md R61). -/
  mem : Memory
  /-- MODEL: the draw the bytes nothing has written come from (log entry 4). -/
  ramDraw : Nat
  /-- MAT (R39): the rows and columns some build has set. The cells beyond are unspecified. -/
  mat : Grid
  /-- MODEL: the draw the unspecified cells of MAT come from (log entry 5). -/
  matDraw : Nat
  /-- MODEL: the index of the next draw of a free value (log entry 6). -/
  draws : Nat
  /-- MODEL: what the host will do, in program order (log entry 1). -/
  hostQ : List HostEvent
  /-- MODEL: what the host's reads returned, newest first (log entry 1). -/
  replies : List Word
  deriving DecidableEq, Repr

/-- Why the machine would stop with a fault: never. Bus accesses never fault
(60_exceptions.md R277) and a failing command completes (R279), so there is no constructor. -/
inductive Fault where
  deriving DecidableEq, Repr

/-- Why a step would have no meaning. -/
inductive Refusal where
  /-- An arm of exec whose command has no meaning yet; raised by exec only. Safe. -/
  | notModelled (mnemonic : String)
  deriving DecidableEq, Repr

/-- The block right after reset (70_reset_and_hazards.md R290 to R292): every register 0, every stage
invalid, IDLE, no buffer byte and no cell of MAT specified. -/
def State.reset : State where
  cmd := 0#32
  seq := .idle
  wait := 0
  done := false
  err := false
  overrun := false
  errcode := 0#4
  errinfo := 0#32
  cfgVersion := 0#6
  cfgLevel := 0#2
  plen := 0#16
  arg0 := 0#32
  arg1 := 0#32
  la := 0#9
  lb := 0#9
  lr := 0#9
  res := Vector.replicate 8 0#32
  seg := none
  cw := none
  sel := none
  sym := none
  mem := []
  ramDraw := 0
  mat := []
  matDraw := 0
  draws := 1
  hostQ := []
  replies := []

end Sys2Proof.Machine
end

