-- ==== Sys2Proof/Machine/Flags.lean ====
section
/-! DEFINITION. The flags: the STATUS word and its stage bits, the words of the info registers, and
stage invalidation (10_state.md R24 to R34, R40, R42). -/

namespace Sys2Proof.Machine

/-- A field of a register word: `v` placed at bit `lo`. -/
def fieldAt (v : Nat) (lo : Nat) : Word := BitVec.ofNat 32 v <<< lo

/-- STATUS.MSTATE: 0 EMPTY, 1 TRIAL, 2 FINAL (10_state.md R24). -/
def mstateCode : Option SymInfo → Nat
  | none => 0
  | some i => if i.trial then 1 else 2

/-- The module count N of a version (00_scope.md R8, 10_state.md R34). -/
def moduleCount (v : Nat) : Nat := 4 * v + 17

/-- SYMINFO.N (10_state.md R34). -/
def SymInfo.n (i : SymInfo) : Nat := moduleCount i.version.toNat

/-- The word STATUS reads as (10_state.md R24). -/
def State.statusWord (s : State) : Word :=
  fieldAt (decide (s.seq = .busy)).toNat 0 ||| fieldAt s.done.toNat 1 ||| fieldAt s.err.toNat 2
    ||| fieldAt s.overrun.toNat 3 ||| fieldAt s.errcode.toNat 8 ||| fieldAt s.seg.isSome.toNat 16
    ||| fieldAt s.cw.isSome.toNat 17 ||| fieldAt s.sel.isSome.toNat 18
    ||| fieldAt (mstateCode s.sym) 20

/-- The word CFG reads as (10_state.md R26). -/
def State.cfgWord (s : State) : Word := fieldAt s.cfgVersion.toNat 0 ||| fieldAt s.cfgLevel.toNat 8

/-- The word MASKSEL reads as: 0 while SVALID = 0 (10_state.md R31). -/
def State.maskselWord (s : State) : Word :=
  match s.sel with
  | none => 0#32
  | some m => fieldAt m.toNat 0

/-- The word DINFO reads as: 0 while DVALID = 0 (10_state.md R32). -/
def State.dinfoWord (s : State) : Word :=
  match s.seg with
  | none => 0#32
  | some i => fieldAt i.ndata.toNat 0 ||| fieldAt i.version.toNat 16 ||| fieldAt i.level.toNat 24

/-- The word CINFO reads as: 0 while CVALID = 0 (10_state.md R33). -/
def State.cinfoWord (s : State) : Word :=
  match s.cw with
  | none => 0#32
  | some i => fieldAt i.ncw.toNat 0 ||| fieldAt i.version.toNat 16 ||| fieldAt i.level.toNat 24

/-- The word SYMINFO reads as: 0 while MSTATE is EMPTY (10_state.md R34). Field N is 8 bits wide. -/
def State.syminfoWord (s : State) : Word :=
  match s.sym with
  | none => 0#32
  | some i =>
    fieldAt i.version.toNat 0 ||| fieldAt i.level.toNat 8 ||| fieldAt i.mask.toNat 12
      ||| fieldAt i.trial.toNat 15 ||| fieldAt (i.n % 256) 16

/-- `invalidate(s)`: stage s and every later stage lose their flag and their metadata (10_state.md R40). -/
def State.invalidate (st : Stage) (s : State) : State :=
  match st with
  | .seg => { s with seg := none, cw := none, sel := none, sym := none }
  | .cw => { s with cw := none, sel := none, sym := none }
  | .sel => { s with sel := none, sym := none }
  | .mat => { s with sym := none }

/-- The invalidation a failing command makes: its own stage if it is a pipeline command, else nothing
(60_exceptions.md R279). -/
def State.invalidateFor (st : Option Stage) (s : State) : State :=
  match st with
  | none => s
  | some st => s.invalidate st

end Sys2Proof.Machine
end

