-- ==== Sys2Proof/Machine/Ops.lean ====
section
/-! DEFINITION. The named operations over buffer memory, the matrix store and the result registers,
and the block's own trap entry: acceptance, completion and failure of a command (60_exceptions.md
R270, R279, R280; 70_reset_and_hazards.md R300). There is no return from a failure (R282). -/

namespace Sys2Proof.Machine

/-! ## Buffer memory (10_state.md R37, R38; 20_memory.md R61) -/

/-- The six buffer regions of the address map (20_memory.md R61). -/
inductive Region where
  | pbuf
  | pa
  | pb
  | pr
  | dbuf
  | cwbuf
  deriving DecidableEq, Repr

/-- First bus address of a region (20_memory.md R61). -/
def Region.base : Region → Nat
  | .pbuf => 0x1000
  | .pa => 0x2000
  | .pb => 0x2100
  | .pr => 0x2200
  | .dbuf => 0x3000
  | .cwbuf => 0x4000

/-- Size of a region in bytes (20_memory.md R61). -/
def Region.size : Region → Nat
  | .pbuf => 4096
  | .pa => 256
  | .pb => 256
  | .pr => 256
  | .dbuf => 4096
  | .cwbuf => 4096

/-- Whether the host may write the region (20_memory.md R61). -/
def Region.hostWritable : Region → Bool
  | .pbuf => true
  | .pa => true
  | .pb => true
  | .pr => false
  | .dbuf => false
  | .cwbuf => false

/-- All regions. -/
def Region.all : List Region := [.pbuf, .pa, .pb, .pr, .dbuf, .cwbuf]

/-- The address lies in the region. -/
def Region.holds (r : Region) (a : Nat) : Bool := decide (r.base ≤ a ∧ a < r.base + r.size)

/-- The buffer region an address lies in, if any (20_memory.md R61). -/
def regionOf (a : Nat) : Option Region := Region.all.find? (fun r => r.holds a)

/-- The cells of the bytes `bs` from address `a` on. -/
def cellsFrom : Nat → List Byte → Memory
  | _, [] => []
  | a, b :: bs => (a, b) :: cellsFrom (a + 1) bs

/-- The byte written at an address since reset, if any. -/
def Memory.read? (m : Memory) (a : Nat) : Option Byte := List.lookup a m

/-- Write the bytes `bs` from address `a` on; every other address keeps its cell. -/
def Memory.write (a : Nat) (bs : List Byte) (m : Memory) : Memory :=
  m.filter (fun c => decide (c.1 < a)) ++ cellsFrom a bs
    ++ m.filter (fun c => decide (a + bs.length ≤ c.1))

/-- The canonical form of buffer memory: addresses strictly rising, each in a buffer region. -/
abbrev Memory.wf (m : Memory) : Prop :=
  m.Pairwise (fun c d => c.1 < d.1) ∧ ∀ c ∈ m, (regionOf c.1).isSome = true

/-- The byte a buffer address holds: what was last written since reset, else the unknown byte of that
reset (70_reset_and_hazards.md R292, free value, log entry 4). -/
def State.byteAt (s : State) (a : Nat) : Byte := (s.mem.read? a).getD (Config.powerUpByte s.ramDraw a)

/-- `BUF[0..n-1]` of a region (00_scope.md R11). -/
def State.bufferBytes (s : State) (r : Region) (n : Nat) : List Byte :=
  (List.range n).map (fun i => s.byteAt (r.base + i))

/-- A command writes a buffer: every byte, the result and then zeros (10_state.md R38, D39). -/
def State.writeBuffer (r : Region) (bs : List Byte) (s : State) : State :=
  { s with mem := s.mem.write r.base ((List.range r.size).map (fun i => bs.getD i 0#8)) }

/-- A command writes PR and LR (10_state.md R30, R38; 40_gf_poly.md R132). -/
def State.writePoly (p : List Byte) (s : State) : State :=
  { s.writeBuffer .pr p with lr := BitVec.ofNat 9 p.length }

/-! ## Result registers (10_state.md R35) -/

/-- `RES<k> <- v`. -/
def State.setRes (k : Fin 8) (v : Nat) (s : State) : State :=
  { s with res := s.res.set k.val (BitVec.ofNat 32 v) k.isLt }

/-- All eight result registers at once. -/
def State.setAllRes (vs : List Nat) (s : State) : State :=
  { s with res := Vector.ofFn (fun k : Fin 8 => BitVec.ofNat 32 (vs.getD k.val 0)) }

/-! ## Grids and the matrix store (10_state.md R39) -/

/-- `M[r][c]`, Unset outside the grid's lists. -/
def Grid.get (g : Grid) (r c : Nat) : Colour := (g.getD r []).getD c .unset

/-- `M[r][c] <- x`, nothing where the grid has no such cell. -/
def Grid.set (g : Grid) (r c : Nat) (x : Colour) : Grid := g.modify r (fun row => row.set c x)

/-- An n by n grid of Unset cells (43_matrix.md R191). -/
def Grid.blank (n : Nat) : Grid := List.replicate n (List.replicate n .unset)

/-- The corner `new` written over the store `old`; cells outside the corner keep their values. -/
def Grid.overlay : Grid → Grid → Grid
  | [], old => old
  | n :: new, [] => n :: Grid.overlay new []
  | n :: new, o :: old => (n ++ o.drop n.length) :: Grid.overlay new old

/-- `MAT[r][c]`: what the last build that covers the cell set, else an unspecified value
(70_reset_and_hazards.md R292, 44_mask_symbol.md R241, free value, log entry 5). -/
def State.matCell (s : State) (r c : Nat) : Colour :=
  match s.mat[r]? with
  | none => Config.unknownColour s.matDraw r c
  | some row =>
    match row[c]? with
    | none => Config.unknownColour s.matDraw r c
    | some x => x

/-- `MAT[0..n-1][0..n-1]`. -/
def State.matrix (s : State) (n : Nat) : Grid :=
  (List.range n).map (fun r => (List.range n).map (fun c => s.matCell r c))

/-- A build writes its corner of MAT (10_state.md R39). -/
def State.writeMat (g : Grid) (s : State) : State := { s with mat := g.overlay s.mat }

/-- MAT is left with an unspecified content (44_mask_symbol.md R241): a fresh draw. -/
def State.scrambleMat (s : State) : State :=
  { s with mat := [], matDraw := s.draws, draws := s.draws + 1 }

/-! ## Failures and completion (60_exceptions.md) -/

/-- The failure codes (60_exceptions.md R270). -/
inductive FailCode where
  | inputCapacityExceeded
  | indexOutOfRange
  | invalidTable
  | mathDomainError
  | invalidMaskId
  | illegalCommand
  | notReady
  | operandRange
  deriving DecidableEq, Repr

/-- The STATUS.ERRCODE value of a failure (60_exceptions.md R270). -/
def FailCode.code : FailCode → BitVec 4
  | .inputCapacityExceeded => 1#4
  | .indexOutOfRange => 2#4
  | .invalidTable => 3#4
  | .mathDomainError => 4#4
  | .invalidMaskId => 5#4
  | .illegalCommand => 6#4
  | .notReady => 7#4
  | .operandRange => 8#4

/-- `E(d)`: a failure code and its detail value (00_scope.md R12). -/
structure Failure where
  code : FailCode
  detail : Nat
  deriving DecidableEq, Repr

/-- `raise E(d)` (00_scope.md R12). -/
def raise {α : Type} (code : FailCode) (detail : Nat) : Except Failure α := .error ⟨code, detail⟩

/-- The ERRINFO word of a failure: `op | (d mod 2^24) << 8` (10_state.md R25, 60_exceptions.md R279). -/
def errinfoWord (op : Byte) (detail : Nat) : Word :=
  fieldAt op.toNat 0 ||| fieldAt (detail % 2 ^ 24) 8

/-- `accept(v)`: the word is stored, the failure record cleared, SEQ becomes BUSY
(70_reset_and_hazards.md R300). How long the command will take is a free value (R304). -/
def State.accept (v : Word) (s : State) : State :=
  { s with
    cmd := v, seq := .busy, done := false, err := false, errcode := 0#4, errinfo := 0#32,
    wait := Config.latency v s.draws, draws := s.draws + 1 }

/-- `on_success()`: DONE, no failure, IDLE (60_exceptions.md R280). -/
def State.onSuccess (s : State) : State :=
  { s with errcode := 0#4, err := false, done := true, seq := .idle }

/-- `on_failure(E, d, op)` on the state before the command: its stage is invalidated, the failure
recorded, IDLE (60_exceptions.md R279). -/
def State.onFailure (op : Byte) (st : Option Stage) (f : Failure) (s : State) : State :=
  { s.invalidateFor st with
    errinfo := errinfoWord op f.detail, errcode := f.code.code, err := true, done := true,
    seq := .idle }

/-- Run a command to its end: `body` is its pseudocode, whose writes are committed if it does not
raise and discarded if it does (00_scope.md R12, 60_exceptions.md R279, R280). -/
def runCommand (op : Byte) (st : Option Stage) (body : State → Except Failure State) (s : State) :
    Host.Outcome State Fault Refusal :=
  match body s with
  | .ok s' => .next s'.onSuccess
  | .error f => .next (s.onFailure op st f)

/-- The completion of an illegal word: IllegalCommand, its opcode byte in ERRINFO, nothing else
(30_encoding.md R96, 60_exceptions.md R279). -/
def completeIllegal (s : State) : State := s.onFailure (opField s.cmd) none ⟨.illegalCommand, 0⟩

end Sys2Proof.Machine
end

