-- ==== Sys2Proof/Machine/Operands.lean ====
section
/-! DEFINITION. Every operand form a command reads, as 30_encoding.md R93 interprets it, and the
checks that admit operands (40_gf_poly.md R131, 60_exceptions.md R270). -/

namespace Sys2Proof.Machine

/-- `sint32(v)` (00_scope.md R9). -/
def sint32 (v : Word) : Int := v.toInt

/-- `ARG0` as a signed number: GF.LOG, GF.EXP, SYM.QUERY's row (30_encoding.md R93). -/
def State.arg0Signed (s : State) : Int := sint32 s.arg0

/-- `ARG1` as a signed number: SYM.QUERY's column (30_encoding.md R93). -/
def State.arg1Signed (s : State) : Int := sint32 s.arg1

/-- `ARG0[w-1:0]`, unsigned: BCH.FMT (w = 5), BCH.VER (w = 6), MASK.EVAL's row (w = 8) (30_encoding.md R93). -/
def State.arg0Low (s : State) (w : Nat) : Nat := (s.arg0.extractLsb' 0 w).toNat

/-- `ARG1[w-1:0]`, unsigned: MASK.EVAL's column (w = 8) (30_encoding.md R93). -/
def State.arg1Low (s : State) (w : Nat) : Nat := (s.arg1.extractLsb' 0 w).toNat

/-- `CFG.VERSION` (10_state.md R26). -/
def State.version (s : State) : Nat := s.cfgVersion.toNat

/-- `PLEN.LEN` (10_state.md R27). -/
def State.payloadLen (s : State) : Nat := s.plen.toNat

/-- The payload `PBUF[0..n-1]` (30_encoding.md R93). -/
def State.payload (s : State) (n : Nat) : List Byte := s.bufferBytes .pbuf n

/-- The raw sequence `PA[0..LA-1]` (30_encoding.md R93). -/
def State.rawA (s : State) : List Byte := s.bufferBytes .pa s.la.toNat

/-- The raw sequence `PB[0..LB-1]` (30_encoding.md R93). -/
def State.rawB (s : State) : List Byte := s.bufferBytes .pb s.lb.toNat

/-- LA is at most 256 (40_gf_poly.md R131, 41_rs_codec.md R163). -/
def State.admitA (s : State) : Except Failure Unit :=
  if s.la.toNat > 256 then raise .operandRange s.la.toNat else .ok ()

/-- `admit_operands()`: LA, then LB (40_gf_poly.md R131). -/
def State.admitOperands (s : State) : Except Failure Unit := do
  s.admitA
  if s.lb.toNat > 256 then raise .operandRange s.lb.toNat else .ok ()

/-- The SEG stage's data codewords `DBUF[0..NDATA-1]` (41_rs_codec.md R165). -/
def State.dataCodewords (s : State) (i : SegInfo) : List Byte := s.bufferBytes .dbuf i.ndata.toNat

/-- The CW stage's codewords `CWBUF[0..NCW-1]` (43_matrix.md R218). -/
def State.codewords (s : State) (i : CwInfo) : List Byte := s.bufferBytes .cwbuf i.ncw.toNat

/-- The mask operand checked: 0 to 7, else InvalidMaskId (60_exceptions.md R270). -/
def maskOperand (m : Nat) : Except Failure (BitVec 3) :=
  if m > 7 then raise .invalidMaskId m else .ok (BitVec.ofNat 3 m)

/-- A stage the command requires, else NotReady (60_exceptions.md R270). -/
def requireStage {α : Type} (stage : Option α) : Except Failure α :=
  match stage with
  | none => raise .notReady 0
  | some i => .ok i

end Sys2Proof.Machine
end

