-- ==== Sys2Proof/Machine/Bus.lean ====
section
/-! DEFINITION. The host bus: reads, writes and the reset input (20_memory.md R60 to R67;
70_reset_and_hazards.md R290 to R293, R300 to R302; 60_exceptions.md R277). -/

namespace Sys2Proof.Machine

/-- The number of bytes of an access (20_memory.md R60). -/
def AccessSize.bytes : AccessSize → Nat
  | .b1 => 1
  | .b2 => 2
  | .b4 => 4

/-- The address lies in the register window (20_memory.md R61). -/
def inWindow (a : Nat) : Bool := decide (a < 0x100)

/-- The access is one the address map admits: aligned 4-byte accesses to the register window (R63),
aligned accesses to a buffer (R64), any access to an unmapped address (20_memory.md). -/
def admitted (a : Nat) (n : AccessSize) : Bool :=
  if inWindow a then decide (n = .b4) && decide (a % 4 = 0)
  else if (regionOf a).isSome then decide (a % n.bytes = 0)
  else true

/-- The word a register offset reads as; a reserved offset reads 0 (10_state.md R22). -/
def State.readReg (s : State) (off : Nat) : Word :=
  if off = 0x000 then Config.idValue
  else if off = 0x004 then s.cmd
  else if off = 0x008 then s.statusWord
  else if off = 0x00C then s.errinfo
  else if off = 0x010 then s.cfgWord
  else if off = 0x014 then fieldAt s.plen.toNat 0
  else if off = 0x018 then s.arg0
  else if off = 0x01C then s.arg1
  else if off = 0x020 then fieldAt s.la.toNat 0
  else if off = 0x024 then fieldAt s.lb.toNat 0
  else if off = 0x028 then fieldAt s.lr.toNat 0
  else if off = 0x02C then s.maskselWord
  else if off = 0x030 then s.dinfoWord
  else if off = 0x034 then s.cinfoWord
  else if off = 0x038 then s.syminfoWord
  else if 0x040 ≤ off ∧ off < 0x060 then s.res.toList.getD ((off - 0x040) / 4) 0#32
  else 0#32

/-- Store a word at a register offset, keeping reserved bits 0; nothing but the RW registers takes a
write here (10_state.md R22, R26 to R29; 20_memory.md R66). -/
def State.writeReg (off : Nat) (v : Word) (s : State) : State :=
  if off = 0x010 then { s with cfgVersion := v.extractLsb' 0 6, cfgLevel := v.extractLsb' 8 2 }
  else if off = 0x014 then { s with plen := v.extractLsb' 0 16 }
  else if off = 0x018 then { s with arg0 := v }
  else if off = 0x01C then { s with arg1 := v }
  else if off = 0x020 then { s with la := v.extractLsb' 0 9 }
  else if off = 0x024 then { s with lb := v.extractLsb' 0 9 }
  else s

/-- The little-endian number of some bytes, the byte at the lowest address first (20_memory.md R62). -/
def littleEndian : List Byte → Nat
  | [] => 0
  | b :: bs => b.toNat + 256 * littleEndian bs

/-- The low n bytes of a word, the least significant first (20_memory.md R62, R66). -/
def bytesOfWord (v : Word) (n : Nat) : List Byte := (List.range n).map (fun k => v.extractLsb' (8 * k) 8)

/-- `MemRead(a, n)` in IDLE; an access the map does not admit returns 0 (20_memory.md R63 to R65). -/
def State.memRead (s : State) (a : Nat) (n : AccessSize) : Word :=
  if admitted a n then
    if inWindow a then s.readReg a
    else if (regionOf a).isSome then
      BitVec.ofNat 32 (littleEndian ((List.range n.bytes).map (fun k => s.byteAt (a + k))))
    else 0#32
  else 0#32

/-- Return a value to the host. -/
def State.reply (v : Word) (s : State) : State := { s with replies := v :: s.replies }

/-- A host read. While BUSY, STATUS and ID return their values and any other address a fresh
unspecified value (20_memory.md R65, 70_reset_and_hazards.md R302). -/
def State.hostRead (a : Nat) (n : AccessSize) (s : State) : State :=
  if s.seq = .idle ∨ a = 0x000 ∨ a = 0x008 then s.reply (s.memRead a n)
  else { s.reply (Config.busyRead s.draws) with draws := s.draws + 1 }

/-- A write of STATUS: bit 3 clears OVERRUN (10_state.md R24, 20_memory.md R66). -/
def State.writeStatus (v : Word) (s : State) : State :=
  if v.getLsbD 3 then { s with overrun := false } else s

/-- A write dropped because SEQ = BUSY (70_reset_and_hazards.md R301). -/
def State.dropWrite (s : State) : State := { s with overrun := true }

/-- A write the map does not admit: it has no effect (20_memory.md R63, R64), but while BUSY it is dropped
as every write not to STATUS is, and sets OVERRUN (70_reset_and_hazards.md R301). A write is to STATUS iff
its address is STATUS's offset, R66's test (log entry 8). -/
def State.rejectWrite (a : Nat) (s : State) : State :=
  if s.seq = .busy ∧ a ≠ 0x008 then s.dropWrite else s

/-- A write to a buffer, for the buffers the host may write (20_memory.md R61, R66). -/
def State.writeBytes (a : Nat) (n : AccessSize) (v : Word) (s : State) : State :=
  match regionOf a with
  | none => s
  | some r =>
    if r.hostWritable then { s with mem := s.mem.write a (bytesOfWord v n.bytes) } else s

/-- A host write (20_memory.md R66; 70_reset_and_hazards.md R300, R301). -/
def State.hostWrite (a : Nat) (n : AccessSize) (v : Word) (s : State) : State :=
  if admitted a n then
    if a = 0x008 then s.writeStatus v
    else if s.seq = .busy then s.dropWrite
    else if a = 0x004 then s.accept v
    else if inWindow a then s.writeReg a v
    else s.writeBytes a n v
  else s.rejectWrite a

/-- The reset input: the reset state, with fresh unknown contents of the buffers and of MAT; a command
in progress is abandoned (70_reset_and_hazards.md R290 to R293). The model's own fields that stand for
the world outside (hostQ, replies) and the draw counter go on. -/
def State.pulseReset (s : State) : State :=
  { State.reset with
    ramDraw := s.draws, matDraw := s.draws, draws := s.draws + 1, hostQ := s.hostQ, replies := s.replies }

/-- One host event (20_memory.md R60, 70_reset_and_hazards.md R290). -/
def State.apply (e : HostEvent) (s : State) : State :=
  match e with
  | .read a n => s.hostRead a.toNat n
  | .write a n v => s.hostWrite a.toNat n v
  | .reset => s.pulseReset

/-- The host's turn: its next event, or nothing if it does nothing more. -/
def State.hostTurn (s : State) : State :=
  match s.hostQ with
  | [] => s
  | e :: rest => State.apply e { s with hostQ := rest }

end Sys2Proof.Machine
end

