-- ==== Sys2Proof/Machine/Poly.lean ====
section
/-! DEFINITION. Polynomials over GF(256), highest-degree coefficient first (00_scope.md R10,
40_gf_poly.md R127 to R130). -/

namespace Sys2Proof.Machine

/-- A polynomial's coefficients, highest degree first. -/
abbrev Poly := List Byte

/-- `Poly(raw, shift)`: leading zeros stripped, then `shift` zeros appended; the zero polynomial is
empty whatever the shift (40_gf_poly.md R127, D17). -/
def canonical (raw : List Byte) (shift : Nat) : Poly :=
  match raw.dropWhile (fun x => x == 0#8) with
  | [] => []
  | x :: s => (x :: s) ++ List.replicate shift 0#8

/-- XOR of a row into the leading places of a sequence. -/
def xorInto : List Byte → List Byte → List Byte
  | [], ys => ys
  | _ :: _, [] => []
  | x :: xs, y :: ys => (x ^^^ y) :: xorInto xs ys

/-- XOR of a row into a sequence from index `i` on. -/
def xorAt : Nat → List Byte → List Byte → List Byte
  | 0, row, ys => xorInto row ys
  | _ + 1, _, [] => []
  | i + 1, row, y :: ys => y :: xorAt i row ys

/-- The terms of `multiply` for the coefficients of `a` from index `i` on, XORed into `out`. -/
def multiplyRows (b : Poly) : Nat → List Byte → List Byte → Except Failure (List Byte)
  | _, [], out => .ok out
  | i, x :: a, out => do
    let row ← b.mapM (fun y => mulByte x y)
    multiplyRows b (i + 1) a (xorAt i row out)

/-- `multiply(a, b)` (40_gf_poly.md R128). -/
def multiply (a b : Poly) : Except Failure Poly := do
  let out ← multiplyRows b 0 a (List.replicate (a.length + b.length - 1) 0#8)
  return canonical out 0

/-- One pass of `mod`: `b` scaled by `exp(log(b[k]) + ratio)` XORed into the leading coefficients,
leading zeros stripped (40_gf_poly.md R129). -/
def modPass (a b : Poly) : Except Failure Poly := do
  let la ← logByte (a.headD 0#8)
  let lb ← logByte (b.headD 0#8)
  let row ← b.mapM (fun y => do
    let ly ← logByte y
    return gfExp (ly + ((la : Int) - lb)))
  return canonical (xorInto row a) 0

/-- The loop of `mod`, at most `fuel` passes. -/
def modLoop (b : Poly) : Nat → Poly → Except Failure Poly
  | 0, a => .ok a
  | fuel + 1, a =>
    if a.length < b.length then .ok a
    else do
      let a' ← modPass a b
      modLoop b fuel a'

/-- `mod(a, b)`: MathDomainError for the zero divisor. Each pass shortens `a`, so `len(a)` passes are
enough (40_gf_poly.md R129, D18). -/
def polyMod (a b : Poly) : Except Failure Poly :=
  match b with
  | [] => raise .mathDomainError 0
  | _ :: _ => modLoop b a.length a

/-- `gen(k)` from the factor of exponent `i` on, `n` factors left (40_gf_poly.md R130). -/
def genFrom : Nat → Nat → Poly → Except Failure Poly
  | 0, _, g => .ok g
  | n + 1, i, g => do
    let g' ← multiply g [1#8, gfExp i]
    genFrom n (i + 1) g'

/-- `gen(k)` (40_gf_poly.md R130). -/
def gen (k : Nat) : Except Failure Poly := genFrom k 0 [1#8]

end Sys2Proof.Machine
end

