-- ==== Sys2Proof/Machine/Codec.lean ====
section
/-! DEFINITION. The data-segment encoder, the EC generator and the block interleaver
(41_rs_codec.md R156 to R162), and the BCH encoders (42_bch.md R180 to R182). -/

namespace Sys2Proof.Machine

/-! ## Bit streams (20_memory.md R69, R70) -/

/-- `append(x, n)`: the low n bits of x, most significant first (41_rs_codec.md R159). -/
def bitsOf (x n : Nat) : List Bool := (List.range n).map (fun i => x.testBit (n - 1 - i))

/-- Eight bits, most significant first, as a number. -/
def byteOfBits (b7 b6 b5 b4 b3 b2 b1 b0 : Bool) : Byte :=
  BitVec.ofNat 8 (128 * b7.toNat + 64 * b6.toNat + 32 * b5.toNat + 16 * b4.toNat + 8 * b3.toNat
    + 4 * b2.toNat + 2 * b1.toNat + b0.toNat)

/-- A bit stream cut into bytes, most significant bit first (20_memory.md R70). -/
def packBits : List Bool → List Byte
  | b7 :: b6 :: b5 :: b4 :: b3 :: b2 :: b1 :: b0 :: bits =>
    byteOfBits b7 b6 b5 b4 b3 b2 b1 b0 :: packBits bits
  | _ => []

/-- The bits of a codeword sequence, most significant first (20_memory.md R69). -/
def codewordBits (cw : List Byte) : List Bool := cw.flatMap (fun b => bitsOf b.toNat 8)

/-! ## The data-segment encoder -/

/-- Width of the length field: 8 bits for versions 1 to 9, else 16 (41_rs_codec.md R156). -/
def lengthWidth (v : Nat) : Nat := if v ≤ 9 then 8 else 16

/-- The bit length before padding (41_rs_codec.md R159, R160). -/
def segBits (v len : Nat) : Nat := 4 + lengthWidth v + 8 * len

/-- Header and data: mode indicator 0100, length field, payload bytes (41_rs_codec.md R156, R159). -/
def segHeaderAndData (v : Nat) (payload : List Byte) : List Bool :=
  bitsOf 0b0100 4 ++ bitsOf (payload.length % 2 ^ lengthWidth v) (lengthWidth v) ++ codewordBits payload

/-- The 4-bit terminator, if it fits (41_rs_codec.md R157). -/
def addTerminator (capacity : Nat) (bits : List Bool) : List Bool :=
  if capacity - bits.length ≥ 4 then bits ++ bitsOf 0 4 else bits

/-- 0 bits up to the next byte boundary (41_rs_codec.md R157). -/
def alignBits (bits : List Bool) : List Bool :=
  bits ++ List.replicate ((8 - bits.length % 8) % 8) false

/-- Pad bytes 0xEC, 0x11 in turn until the capacity is reached (41_rs_codec.md R157). -/
def addPads (capacity : Nat) (bits : List Bool) : List Bool :=
  bits ++ (List.range ((capacity - bits.length + 7) / 8)).flatMap
    (fun p => bitsOf (if p % 2 = 0 then 0xEC else 0x11) 8)

/-- The T data codewords of a payload (41_rs_codec.md R159). -/
def segCodewords (v total : Nat) (payload : List Byte) : List Byte :=
  packBits (addPads (8 * total) (alignBits (addTerminator (8 * total) (segHeaderAndData v payload))))

/-- The checks of `seg_encode`: the table lookup, then the capacity, before any payload byte is read.
Answers T (41_rs_codec.md R159, R160). -/
def segAdmit (v : Nat) (level : BitVec 2) (len : Nat) : Except Failure Nat := do
  let blocks ← rsBlocks v level
  if segBits v len > 8 * totalData blocks then raise .inputCapacityExceeded (segBits v len)
  else .ok (totalData blocks)

/-! ## The EC generator and the interleaver -/

/-- `rs_ecc(d, k)`: the remainder of the shifted data, padded on the left to k bytes (41_rs_codec.md R161). -/
def rsEcc (d : List Byte) (k : Nat) : Except Failure (List Byte) := do
  let g ← gen k
  let r ← polyMod (canonical d k) g
  return List.replicate (k - r.length) 0#8 ++ r

/-- The data split into the blocks' data codewords, in order (41_rs_codec.md R162). -/
def splitBlocks : List Block → List Byte → List (List Byte)
  | [], _ => []
  | b :: bs, data => data.take b.data :: splitBlocks bs (data.drop b.data)

/-- The length of the longest of some sequences. -/
def maxLength (cols : List (List Byte)) : Nat := cols.foldl (fun n c => max n c.length) 0

/-- Index 0 of every sequence, then index 1, and so on; at index i a sequence contributes iff i is
below its length (41_rs_codec.md R162, 90_conflicts.md C7). -/
def interleave (cols : List (List Byte)) : List Byte :=
  (List.range (maxLength cols)).flatMap (fun i => cols.filterMap (fun col => col[i]?))

/-- `cw_build(data, v, l)` (41_rs_codec.md R162). -/
def cwBuild (data : List Byte) (v : Nat) (level : BitVec 2) : Except Failure (List Byte) := do
  let blocks ← rsBlocks v level
  let ds := splitBlocks blocks data
  let ecs ← (blocks.zip ds).mapM (fun p => rsEcc p.2 (p.1.total - p.1.data))
  return interleave ds ++ interleave ecs

/-! ## The BCH encoders -/

/-- `bitLength(x)`: the number of significant bits (42_bch.md R180). -/
def bitLength (x : Nat) : Nat := if x = 0 then 0 else Nat.log2 x + 1

/-- The reduction loop of the BCH encoders, at most `fuel` passes (42_bch.md R181, R182). -/
def bchReduce (g : Nat) : Nat → Nat → Nat
  | 0, d => d
  | fuel + 1, d =>
    if bitLength d < bitLength g then d
    else bchReduce g fuel (d ^^^ (g <<< (bitLength d - bitLength g)))

/-- `encodeFormatInfo(data)`. Each pass clears the highest bit of d (42_bch.md R181). -/
def encodeFormatInfo (data : Nat) : Nat :=
  ((data <<< 10) ||| bchReduce 0x537 (bitLength (data <<< 10)) (data <<< 10)) ^^^ 0x5412

/-- `encodeVersionInfo(data)` (42_bch.md R182). -/
def encodeVersionInfo (data : Nat) : Nat :=
  (data <<< 12) ||| bchReduce 0x1F25 (bitLength (data <<< 12)) (data <<< 12)

end Sys2Proof.Machine
end

