-- ==== Sys2Proof/Machine/Bch.lean ====
section
/-! DEFINITION. The BCH commands (42_bch.md R183, R184). -/

namespace Sys2Proof.Machine

/-- BCH.FMT's pseudocode: `RES0 <- encodeFormatInfo(ARG0[4:0])` (42_bch.md R183). -/
def bchFmtBody (s : State) : Except Failure State := .ok (s.setRes 0 (encodeFormatInfo (s.arg0Low 5)))

/-- BCH.FMT (42_bch.md R183). -/
def execBchFmt (s : State) : Host.Outcome State Fault Refusal := runCommand 0x30#8 none bchFmtBody s

/-- BCH.VER's pseudocode: `RES0 <- encodeVersionInfo(ARG0[5:0])` (42_bch.md R184). -/
def bchVerBody (s : State) : Except Failure State := .ok (s.setRes 0 (encodeVersionInfo (s.arg0Low 6)))

/-- BCH.VER (42_bch.md R184). -/
def execBchVer (s : State) : Host.Outcome State Fault Refusal := runCommand 0x31#8 none bchVerBody s

end Sys2Proof.Machine
end

