-- ==== Sys2Proof/Machine/GfPoly.lean ====
section
/-! DEFINITION. NOP and the field and polynomial commands (40_gf_poly.md R120 to R134). -/

namespace Sys2Proof.Machine

/-- NOP: nothing beyond acceptance and completion (40_gf_poly.md R120). -/
def execNop (s : State) : Host.Outcome State Fault Refusal := runCommand 0x00#8 none (fun s => .ok s) s

/-- GF.LOG's pseudocode: `RES0 <- log(sint32(ARG0))` (40_gf_poly.md R124). -/
def gfLogBody (s : State) : Except Failure State := do
  let x ← gfLog s.arg0Signed
  return s.setRes 0 x

/-- GF.LOG (40_gf_poly.md R124). -/
def execGfLog (s : State) : Host.Outcome State Fault Refusal := runCommand 0x10#8 none gfLogBody s

/-- GF.EXP's pseudocode: `RES0 <- exp(sint32(ARG0))` (40_gf_poly.md R125). -/
def gfExpBody (s : State) : Except Failure State := .ok (s.setRes 0 (gfExp s.arg0Signed).toNat)

/-- GF.EXP (40_gf_poly.md R125). -/
def execGfExp (s : State) : Host.Outcome State Fault Refusal := runCommand 0x11#8 none gfExpBody s

/-- The product of POLY.MUL must fit 256 coefficients (40_gf_poly.md R132). -/
def admitProduct (a b : Poly) : Except Failure Unit :=
  if a ≠ [] ∧ b ≠ [] ∧ a.length + b.length - 1 > 256 then raise .operandRange (a.length + b.length - 1)
  else .ok ()

/-- POLY.MUL's pseudocode (40_gf_poly.md R132). -/
def polyMulBody (s : State) : Except Failure State := do
  s.admitOperands
  let a := canonical s.rawA 0
  let b := canonical s.rawB 0
  admitProduct a b
  let r ← multiply a b
  return s.writePoly r

/-- POLY.MUL (40_gf_poly.md R132). -/
def execPolyMul (s : State) : Host.Outcome State Fault Refusal := runCommand 0x18#8 none polyMulBody s

/-- POLY.MOD's pseudocode, the dividend shifted by `sh` (40_gf_poly.md R133). -/
def polyModBody (sh : Nat) (s : State) : Except Failure State := do
  s.admitOperands
  let r ← polyMod (canonical s.rawA sh) (canonical s.rawB 0)
  return s.writePoly r

/-- POLY.MOD (40_gf_poly.md R133). -/
def execPolyMod (sh : Nat) (s : State) : Host.Outcome State Fault Refusal :=
  runCommand 0x19#8 none (polyModBody sh) s

/-- POLY.GEN's pseudocode (40_gf_poly.md R134). -/
def polyGenBody (k : Nat) (s : State) : Except Failure State := do
  let g ← gen k
  return { s.writeBuffer .pr g with lr := BitVec.ofNat 9 (k + 1) }

/-- POLY.GEN (40_gf_poly.md R134). -/
def execPolyGen (k : Nat) (s : State) : Host.Outcome State Fault Refusal :=
  runCommand 0x1A#8 none (polyGenBody k) s

end Sys2Proof.Machine
end

