-- ==== Sys2Proof/Machine/Layout.lean ====
section
/-! DEFINITION. The mask functions and the matrix layout engine: function patterns, metadata, zig-zag
data placement, trial and final builds (43_matrix.md R190 to R217, 44_mask_symbol.md R230). -/

namespace Sys2Proof.Machine

/-! ## Mask functions -/

/-- `maskfn(m, i, j)`, i the row and j the column (44_mask_symbol.md R230). -/
def maskfn (m : BitVec 3) (i j : Nat) : Bool :=
  if m = 0#3 then (i + j) % 2 == 0
  else if m = 1#3 then i % 2 == 0
  else if m = 2#3 then j % 3 == 0
  else if m = 3#3 then (i + j) % 3 == 0
  else if m = 4#3 then (i / 2 + j / 3) % 2 == 0
  else if m = 5#3 then (i * j) % 2 + (i * j) % 3 == 0
  else if m = 6#3 then ((i * j) % 2 + (i * j) % 3) % 2 == 0
  else ((i * j) % 3 + (i + j) % 2) % 2 == 0

/-! ## Writing cells -/

/-- A write of one cell: row, column, value. -/
structure CellWrite where
  row : Nat
  col : Nat
  colour : Colour
  deriving DecidableEq, Repr

/-- `MAT[row][col] <- colour`. -/
def Grid.put (g : Grid) (w : CellWrite) : Grid := g.set w.row w.col w.colour

/-- Unconditional writes, in order. -/
def paint (ws : List CellWrite) (g : Grid) : Grid := ws.foldl Grid.put g

/-- A write that lands only on a still-Unset cell. -/
def Grid.putIfUnset (g : Grid) (w : CellWrite) : Grid :=
  if g.get w.row w.col = .unset then g.put w else g

/-- Writes that land only on still-Unset cells, in order. -/
def paintUnset (ws : List CellWrite) (g : Grid) : Grid := ws.foldl Grid.putIfUnset g

/-- Dark if the condition holds, else Light. -/
def darkIf (b : Bool) : Colour := Colour.ofBit b

/-! ## Function patterns (43_matrix.md R192 to R196) -/

/-- Whether the finder pattern is Dark at the offset (r, c) (43_matrix.md R192). -/
def finderDark (r c : Int) : Bool :=
  decide ((0 ≤ r ∧ r ≤ 6) ∧ (c = 0 ∨ c = 6)) || decide ((0 ≤ c ∧ c ≤ 6) ∧ (r = 0 ∨ r = 6))
    || decide ((2 ≤ r ∧ r ≤ 4) ∧ (2 ≤ c ∧ c ≤ 4))

/-- The offsets -1 to 7 of a finder with its separator (43_matrix.md R192). -/
def finderOffsets : List Int := [-1, 0, 1, 2, 3, 4, 5, 6, 7]

/-- The cells of the finder with its separator at corner (R, C), clipped to the n by n grid
(43_matrix.md R192). -/
def finderWrites (n R C : Nat) : List CellWrite :=
  finderOffsets.flatMap (fun r => finderOffsets.filterMap (fun k =>
    if 0 ≤ (R : Int) + r ∧ (R : Int) + r < n ∧ 0 ≤ (C : Int) + k ∧ (C : Int) + k < n then
      some ⟨((R : Int) + r).toNat, ((C : Int) + k).toNat, darkIf (finderDark r k)⟩
    else none))

/-- `place_finders()` (43_matrix.md R192). -/
def placeFinders (n : Nat) (g : Grid) : Grid :=
  paint (finderWrites n 0 0 ++ finderWrites n (n - 7) 0 ++ finderWrites n 0 (n - 7)) g

/-- The alignment-position lists, version 1 first (43_matrix.md R194). -/
def alignmentTable : List (List Nat) :=
  [ [],
    [6, 18],
    [6, 22],
    [6, 26],
    [6, 30],
    [6, 34],
    [6, 22, 38],
    [6, 24, 42],
    [6, 26, 46],
    [6, 28, 50] ] ++
  [ [6, 30, 54],
    [6, 32, 58],
    [6, 34, 62],
    [6, 26, 46, 66],
    [6, 26, 48, 70],
    [6, 26, 50, 74],
    [6, 30, 54, 78],
    [6, 30, 56, 82],
    [6, 30, 58, 86],
    [6, 34, 62, 90] ] ++
  [ [6, 28, 50, 72, 94],
    [6, 26, 50, 74, 98],
    [6, 30, 54, 78, 102],
    [6, 28, 54, 80, 106],
    [6, 32, 58, 84, 110],
    [6, 30, 58, 86, 114],
    [6, 34, 62, 90, 118],
    [6, 26, 50, 74, 98, 122],
    [6, 30, 54, 78, 102, 126],
    [6, 26, 52, 78, 104, 130] ] ++
  [ [6, 30, 56, 82, 108, 134],
    [6, 34, 60, 86, 112, 138],
    [6, 30, 58, 86, 114, 142],
    [6, 34, 62, 90, 118, 146],
    [6, 30, 54, 78, 102, 126, 150],
    [6, 24, 50, 76, 102, 128, 154],
    [6, 28, 54, 80, 106, 132, 158],
    [6, 32, 58, 84, 110, 136, 162],
    [6, 26, 54, 82, 110, 138, 166],
    [6, 30, 58, 86, 114, 142, 170] ]

/-- The alignment-position list of a version (43_matrix.md R194). -/
def alignmentList (v : Nat) : List Nat := alignmentTable.getD (v - 1) []

/-- The offsets -2 to 2 of an alignment pattern (43_matrix.md R195). -/
def alignmentOffsets : List Int := [-2, -1, 0, 1, 2]

/-- Whether the alignment pattern is Dark at the offset (r, c) (43_matrix.md R195). -/
def alignmentDark (r c : Int) : Bool :=
  decide (r = -2 ∨ r = 2) || decide (c = -2 ∨ c = 2) || decide (r = 0 ∧ c = 0)

/-- The 5 by 5 cells of the alignment pattern centred at (row, col) (43_matrix.md R195). -/
def alignmentWrites (row col : Nat) : List CellWrite :=
  alignmentOffsets.flatMap (fun r => alignmentOffsets.map (fun k =>
    ⟨((row : Int) + r).toNat, ((col : Int) + k).toNat, darkIf (alignmentDark r k)⟩))

/-- One alignment pattern, skipped if its centre is already set (43_matrix.md R195). -/
def placeAlignmentAt (g : Grid) (p : Nat × Nat) : Grid :=
  if g.get p.1 p.2 = .unset then paint (alignmentWrites p.1 p.2) g else g

/-- Every ordered pair of a list, row-major. -/
def pairsOf (ps : List Nat) : List (Nat × Nat) := ps.flatMap (fun r => ps.map (fun k => (r, k)))

/-- `place_alignment(v)` (43_matrix.md R195). -/
def placeAlignment (v : Nat) (g : Grid) : Grid := (pairsOf (alignmentList v)).foldl placeAlignmentAt g

/-- The timing cells of index k in 8 to n - 8, column 6 then row 6 (43_matrix.md R196). -/
def timingWrites (n : Nat) : List CellWrite :=
  (List.range (n - 15)).flatMap (fun i =>
    [⟨i + 8, 6, darkIf ((i + 8) % 2 == 0)⟩, ⟨6, i + 8, darkIf ((i + 8) % 2 == 0)⟩])

/-- `place_timing()` (43_matrix.md R196). -/
def placeTiming (n : Nat) (g : Grid) : Grid := paintUnset (timingWrites n) g

/-! ## Format and version metadata (43_matrix.md R205 to R210, R215) -/

/-- Row of bit i in copy 1, column 8 (43_matrix.md R206). -/
def formatRow (n i : Nat) : Nat := if i < 6 then i else if i < 8 then i + 1 else n - 15 + i

/-- Column of bit i in copy 2, row 8 (43_matrix.md R206). -/
def formatCol (n i : Nat) : Nat := if i < 8 then n - 1 - i else if i = 8 then 7 else 14 - i

/-- The format code F of a level and mask (43_matrix.md R205). -/
def formatCode (l : BitVec 2) (m : BitVec 3) : Nat := encodeFormatInfo (l.toNat <<< 3 ||| m.toNat)

/-- The format cells: the code's bits, or Light in a trial build (43_matrix.md R208, R215). -/
def formatWrites (n : Nat) (l : BitVec 2) (m : BitVec 3) (t : Bool) : List CellWrite :=
  (List.range 15).flatMap (fun i =>
    let x := darkIf (!t && (formatCode l m).testBit i)
    [⟨formatRow n i, 8, x⟩, ⟨8, formatCol n i, x⟩])

/-- The version cells: the code's bits, or Light in a trial build (43_matrix.md R210, R215). -/
def versionWrites (n v : Nat) (t : Bool) : List CellWrite :=
  (List.range 18).flatMap (fun i =>
    let x := darkIf (!t && (encodeVersionInfo v).testBit i)
    [⟨i / 3, i % 3 + (n - 11), x⟩, ⟨i % 3 + (n - 11), i / 3, x⟩])

/-- `place_version(v, t)`, versions 7 and up (43_matrix.md R191, R209, R210). -/
def placeVersion (n v : Nat) (t : Bool) (g : Grid) : Grid :=
  if v ≥ 7 then paint (versionWrites n v t) g else g

/-! ## Data placement (43_matrix.md R211) -/

/-- The right columns of the column pairs from `col` leftwards, column 6 skipped (43_matrix.md R211). -/
def pairColumns : Nat → Nat → List Nat
  | 0, _ => []
  | fuel + 1, col =>
    if col = 0 then []
    else
      let right := if col = 6 then 5 else col
      right :: pairColumns fuel (right - 2)

/-- The rows of one sweep, upward or downward (43_matrix.md R211). -/
def sweepRows (n : Nat) (up : Bool) : List Nat :=
  if up then (List.range n).reverse else List.range n

/-- The cells of one column pair in the order of a sweep: in each row the right cell, then the left
(43_matrix.md R211). -/
def sweepPair (n : Nat) (up : Bool) (right : Nat) : List (Nat × Nat) :=
  (sweepRows n up).flatMap (fun r => [(r, right), (r, right - 1)])

/-- The cells of some column pairs, the sweep direction flipping at each pair (43_matrix.md R211). -/
def zigzagFrom (n : Nat) : Bool → List Nat → List (Nat × Nat)
  | _, [] => []
  | up, right :: cols => sweepPair n up right ++ zigzagFrom n (!up) cols

/-- The order in which data placement visits the n by n grid: the first sweep goes up from row n - 1
(43_matrix.md R211). -/
def zigzag (n : Nat) : List (Nat × Nat) := zigzagFrom n true (pairColumns n (n - 1))

/-- Data placement over the cells `ps` with the codeword bits still to place: each still-Unset cell
takes the next bit, or 0 once they are exhausted, XORed with the mask (43_matrix.md R211). -/
def placeBits (m : BitVec 3) : List (Nat × Nat) → List Bool → Grid → Grid
  | [], _, g => g
  | p :: ps, bits, g =>
    if g.get p.1 p.2 = .unset then
      placeBits m ps bits.tail
        (g.set p.1 p.2 (darkIf (xor (bits.headD false) (maskfn m p.1 p.2))))
    else placeBits m ps bits g

/-- `place_data(cw, m)` (43_matrix.md R211). -/
def placeData (n : Nat) (cw : List Byte) (m : BitVec 3) (g : Grid) : Grid :=
  placeBits m (zigzag n) (codewordBits cw) g

/-! ## The build (43_matrix.md R191) -/

/-- The function patterns of a version: finders, alignment, timing (43_matrix.md R191). -/
def placeFunctionPatterns (v : Nat) : Grid :=
  placeTiming (moduleCount v)
    (placeAlignment v (placeFinders (moduleCount v) (Grid.blank (moduleCount v))))

/-- Format cells, the fixed Dark cell, version cells (43_matrix.md R191, R207). -/
def placeMetadata (v : Nat) (l : BitVec 2) (m : BitVec 3) (t : Bool) (g : Grid) : Grid :=
  placeVersion (moduleCount v) v t
    ((paint (formatWrites (moduleCount v) l m t) g).set (moduleCount v - 8) 8 .dark)

/-- `build(cw, v, l, m, t)` (43_matrix.md R191). -/
def build (cw : List Byte) (v : Nat) (l : BitVec 2) (m : BitVec 3) (t : Bool) : Grid :=
  placeData (moduleCount v) cw m (placeMetadata v l m t (placeFunctionPatterns v))

end Sys2Proof.Machine
end

