-- ==== Sys2Proof/Machine/Penalty.lean ====
section
/-! DEFINITION. The four-rule penalty and minimum-penalty mask selection (44_mask_symbol.md R233 to
R240). -/

namespace Sys2Proof.Machine

/-- The sum of `f r k` over the rows r < n and columns k < p. -/
def sumOver (n p : Nat) (f : Nat → Nat → Nat) : Nat :=
  ((List.range n).map (fun r => ((List.range p).map (fun k => f r k)).sum)).sum

/-- The eight neighbour offsets (44_mask_symbol.md R233). -/
def neighbourOffsets : List (Int × Int) :=
  [(-1, -1), (-1, 0), (-1, 1), (0, -1), (0, 1), (1, -1), (1, 0), (1, 1)]

/-- The number of neighbours inside the n by n grid with the cell's colour (44_mask_symbol.md R233). -/
def sameNeighbours (g : Grid) (n r k : Nat) : Nat :=
  neighbourOffsets.countP (fun d =>
    decide (0 ≤ (r : Int) + d.1 ∧ (r : Int) + d.1 < n ∧ 0 ≤ (k : Int) + d.2 ∧ (k : Int) + d.2 < n)
      && decide (g.get ((r : Int) + d.1).toNat ((k : Int) + d.2).toNat = g.get r k))

/-- What a cell with `count` same-colour neighbours adds to rule 1 (44_mask_symbol.md R233). -/
def neighbourPenalty (count : Nat) : Nat := if count > 5 then 3 + (count - 5) else 0

/-- Rule 1, neighbour count (44_mask_symbol.md R233). -/
def penalty1 (g : Grid) (n : Nat) : Nat := sumOver n n (fun r k => neighbourPenalty (sameNeighbours g n r k))

/-- The 2 by 2 block at (r, k) has one colour (44_mask_symbol.md R234). -/
def uniformBlock (g : Grid) (r k : Nat) : Bool :=
  decide (g.get r k = g.get (r + 1) k ∧ g.get r k = g.get r (k + 1) ∧ g.get r k = g.get (r + 1) (k + 1))

/-- Rule 2, uniform blocks (44_mask_symbol.md R234). -/
def penalty2 (g : Grid) (n : Nat) : Nat := 3 * sumOver (n - 1) (n - 1) (fun r k => (uniformBlock g r k).toNat)

/-- The 7-cell pattern of rule 3 (44_mask_symbol.md R235). -/
def finderRun : List Colour := [.dark, .light, .dark, .dark, .dark, .light, .dark]

/-- The 7 cells of row r from column k on are the pattern (44_mask_symbol.md R235). -/
def rowRun (g : Grid) (r k : Nat) : Bool :=
  decide ((List.range 7).map (fun i => g.get r (k + i)) = finderRun)

/-- The 7 cells of column k from row r on are the pattern (44_mask_symbol.md R235). -/
def colRun (g : Grid) (r k : Nat) : Bool :=
  decide ((List.range 7).map (fun i => g.get (r + i) k) = finderRun)

/-- Rule 3, finder-like runs, at every start position (44_mask_symbol.md R235). -/
def penalty3 (g : Grid) (n : Nat) : Nat :=
  40 * (sumOver n (n - 6) (fun r k => (rowRun g r k).toNat)
    + sumOver (n - 6) n (fun r k => (colRun g r k).toNat))

/-- `darkCount(M)` (44_mask_symbol.md R237). -/
def darkCount (g : Grid) (n : Nat) : Nat := sumOver n n (fun r k => (decide (g.get r k = .dark)).toNat)

/-- Rule 4 from the dark count, in exact rational arithmetic (44_mask_symbol.md R236). -/
def darkBalance (dark n : Nat) : Nat :=
  10 * ((2 * ((20 * dark : Int) - 10 * (n * n)).natAbs + n * n) / (2 * (n * n)))

/-- Rule 4, dark balance (44_mask_symbol.md R236). -/
def penalty4 (g : Grid) (n : Nat) : Nat := darkBalance (darkCount g n) n

/-- `penalty(M)` (44_mask_symbol.md R237). -/
def penalty (g : Grid) (n : Nat) : Nat := penalty1 g n + penalty2 g n + penalty3 g n + penalty4 g n

/-- The eight trial penalties, mask 0 first (44_mask_symbol.md R240). -/
def trialPenalties (cw : List Byte) (v : Nat) (l : BitVec 2) : List Nat :=
  (List.range 8).map (fun k => penalty (build cw v l (BitVec.ofNat 3 k) true) (moduleCount v))

/-- The first index of the smallest of some values, from index i on, against the best so far: a later
value wins only if strictly smaller (44_mask_symbol.md R240). -/
def bestFrom : Nat → Nat × Nat → List Nat → Nat
  | _, best, [] => best.1
  | i, best, x :: xs => bestFrom (i + 1) (if x < best.2 then (i, x) else best) xs

/-- The index of the smallest value, first occurrence (44_mask_symbol.md R240). -/
def bestMask (pens : List Nat) : Nat :=
  match pens with
  | [] => 0
  | x :: xs => bestFrom 1 (0, x) xs

end Sys2Proof.Machine
end

