-- ==== Sys2Proof/Machine/MatrixCommands.lean ====
section
/-! DEFINITION. The matrix and mask commands (43_matrix.md R218; 44_mask_symbol.md R231, R239, R241). -/

namespace Sys2Proof.Machine

/-- MASK.EVAL's pseudocode (44_mask_symbol.md R231). -/
def maskEvalBody (m : Nat) (s : State) : Except Failure State := do
  let k ← maskOperand m
  return s.setRes 0 (maskfn k (s.arg0Low 8) (s.arg1Low 8)).toNat

/-- MASK.EVAL (44_mask_symbol.md R231). -/
def execMaskEval (m : Nat) (s : State) : Host.Outcome State Fault Refusal :=
  runCommand 0x40#8 none (maskEvalBody m) s

/-- A build from the CW stage's outputs into MAT and SYMINFO (43_matrix.md R218, 44_mask_symbol.md R242). -/
def State.buildMatrix (i : CwInfo) (m : BitVec 3) (t : Bool) (s : State) : State :=
  { s.writeMat (build (s.codewords i) i.version.toNat i.level m t) with
    sym := some ⟨i.version, i.level, m, t⟩ }

/-- MAT.BUILD's pseudocode (43_matrix.md R218). -/
def matBuildBody (m : Nat) (t : Bool) (s : State) : Except Failure State := do
  let i ← requireStage s.cw
  let k ← maskOperand m
  return s.buildMatrix i k t

/-- MAT.BUILD (43_matrix.md R218). -/
def execMatBuild (m : Nat) (t : Bool) (s : State) : Host.Outcome State Fault Refusal :=
  runCommand 0x41#8 (some .mat) (matBuildBody m t) s

/-- MAT.SCORE's pseudocode (44_mask_symbol.md R239). -/
def matScoreBody (s : State) : Except Failure State := do
  let i ← requireStage s.sym
  let g := s.matrix i.n
  return s.setAllRes
    [penalty g i.n, penalty1 g i.n, penalty2 g i.n, penalty3 g i.n, penalty4 g i.n, darkCount g i.n, 0, 0]

/-- MAT.SCORE (44_mask_symbol.md R239). -/
def execMatScore (s : State) : Host.Outcome State Fault Refusal := runCommand 0x42#8 none matScoreBody s

/-- MASK.SELECT's pseudocode. MAT is left unspecified (44_mask_symbol.md R241). -/
def maskSelectBody (s : State) : Except Failure State := do
  let i ← requireStage s.cw
  let pens := trialPenalties (s.codewords i) i.version.toNat i.level
  let s1 := (s.setAllRes pens).scrambleMat
  let s2 := { s1 with sel := some (BitVec.ofNat 3 (bestMask pens)) }
  return s2.invalidate .mat

/-- MASK.SELECT (44_mask_symbol.md R241). -/
def execMaskSelect (s : State) : Host.Outcome State Fault Refusal :=
  runCommand 0x43#8 (some .sel) maskSelectBody s

end Sys2Proof.Machine
end

