-- ==== Sys2Proof/Machine/RsCodec.lean ====
section
/-! DEFINITION. The Reed-Solomon and codec commands (41_rs_codec.md R155, R163 to R165). -/

namespace Sys2Proof.Machine

/-- A group packed for RS.LOOKUP: `count | total << 8 | data << 16` (41_rs_codec.md R155). -/
def groupWord (g : Group) : Nat := (fieldAt g.count 0 ||| fieldAt g.total 8 ||| fieldAt g.data 16).toNat

/-- The group at an index packed, 0 where the cell has none (41_rs_codec.md R155). -/
def groupWordAt (gs : List Group) (i : Nat) : Nat :=
  match gs[i]? with
  | none => 0
  | some g => groupWord g

/-- The EC count of a cell, that of its first group (41_rs_codec.md R155). -/
def groupsEc (gs : List Group) : Nat :=
  match gs with
  | [] => 0
  | g :: _ => g.total - g.data

/-- RS.LOOKUP's pseudocode (41_rs_codec.md R155). -/
def rsLookupBody (s : State) : Except Failure State := do
  let gs ← rsGroups s.version s.cfgLevel
  let blocks := blocksOf gs
  return ((((((s.setRes 0 (groupWordAt gs 0)).setRes 1 (groupWordAt gs 1)).setRes 2
    (totalData blocks)).setRes 3 (totalCodewords blocks)).setRes 4 blocks.length).setRes 5 (groupsEc gs))

/-- RS.LOOKUP (41_rs_codec.md R155). -/
def execRsLookup (s : State) : Host.Outcome State Fault Refusal := runCommand 0x20#8 none rsLookupBody s

/-- RS.ECC's pseudocode (41_rs_codec.md R163). -/
def rsEccBody (k : Nat) (s : State) : Except Failure State := do
  s.admitA
  let ec ← rsEcc s.rawA k
  return { s.writeBuffer .pr ec with lr := BitVec.ofNat 9 k }

/-- RS.ECC (41_rs_codec.md R163). -/
def execRsEcc (k : Nat) (s : State) : Host.Outcome State Fault Refusal :=
  runCommand 0x21#8 none (rsEccBody k) s

/-- SEG.ENCODE's pseudocode (41_rs_codec.md R164). -/
def segEncodeBody (s : State) : Except Failure State := do
  let total ← segAdmit s.version s.cfgLevel s.payloadLen
  let data := segCodewords s.version total (s.payload s.payloadLen)
  let s1 := s.writeBuffer .dbuf data
  let s2 := { s1 with seg := some ⟨BitVec.ofNat 12 total, s.cfgVersion, s.cfgLevel⟩ }
  return ((s2.invalidate .cw).setRes 0 (segBits s.version s.payloadLen)).setRes 1 total

/-- SEG.ENCODE (41_rs_codec.md R164). -/
def execSegEncode (s : State) : Host.Outcome State Fault Refusal :=
  runCommand 0x22#8 (some .seg) segEncodeBody s

/-- CW.BUILD's pseudocode (41_rs_codec.md R165). -/
def cwBuildBody (s : State) : Except Failure State := do
  let i ← requireStage s.seg
  let cw ← cwBuild (s.dataCodewords i) i.version.toNat i.level
  let s1 := s.writeBuffer .cwbuf cw
  let s2 := { s1 with cw := some ⟨BitVec.ofNat 12 cw.length, i.version, i.level⟩ }
  return (s2.invalidate .sel).setRes 0 cw.length

/-- CW.BUILD (41_rs_codec.md R165). -/
def execCwBuild (s : State) : Host.Outcome State Fault Refusal :=
  runCommand 0x23#8 (some .cw) cwBuildBody s

end Sys2Proof.Machine
end

