-- ==== Sys2Proof/Machine/SymbolCommands.lean ====
section
/-! DEFINITION. The symbol finalizer, the whole encode request and the query (44_mask_symbol.md R242,
R253, R254). -/

namespace Sys2Proof.Machine

/-- CINFO as its fields read: all 0 while CVALID = 0 (10_state.md R33). -/
def State.cinfo (s : State) : CwInfo := s.cw.getD ⟨0#12, 0#6, 0#2⟩

/-- SYM.FINAL's pseudocode: the non-trial build with the selected mask from CINFO. In every state a run
reaches SVALID = 1 implies CVALID = 1 (10_state.md R41; 44_mask_symbol.md R242). -/
def symFinalBody (s : State) : Except Failure State := do
  let m ← requireStage s.sel
  return s.buildMatrix s.cinfo m false

/-- SYM.FINAL (44_mask_symbol.md R242). -/
def execSymFinal (s : State) : Host.Outcome State Fault Refusal :=
  runCommand 0x44#8 (some .mat) symFinalBody s

/-- SYM.ENCODE's pseudocode: the four stage commands in order, each on the outputs of the one before
(44_mask_symbol.md R253). -/
def symEncodeBody (s : State) : Except Failure State := do
  let s1 ← segEncodeBody s
  let s2 ← cwBuildBody s1
  let s3 ← maskSelectBody s2
  symFinalBody s3

/-- SYM.ENCODE (44_mask_symbol.md R253). -/
def execSymEncode (s : State) : Host.Outcome State Fault Refusal :=
  runCommand 0x50#8 (some .seg) symEncodeBody s

/-- The query's coordinates lie in [0, N) (44_mask_symbol.md R254). -/
def admitQuery (row col : Int) (n : Nat) : Except Failure Unit :=
  if row < 0 ∨ row ≥ n ∨ col < 0 ∨ col ≥ n then raise .indexOutOfRange 0 else .ok ()

/-- SYM.QUERY's pseudocode (44_mask_symbol.md R254). -/
def symQueryBody (s : State) : Except Failure State := do
  let i ← requireStage s.sym
  admitQuery s.arg0Signed s.arg1Signed i.n
  return s.setRes 0 (decide (s.matCell s.arg0Signed.toNat s.arg1Signed.toNat = .dark)).toNat

/-- SYM.QUERY (44_mask_symbol.md R254). -/
def execSymQuery (s : State) : Host.Outcome State Fault Refusal := runCommand 0x51#8 none symQueryBody s

end Sys2Proof.Machine
end

