-- ==== Sys2Proof/Machine/Dispatch.lean ====
section
/-! DEFINITION. The meaning of each command, one arm per constructor of Instr (30_encoding.md R94). -/

namespace Sys2Proof.Machine

/-- The completion of a command: the state after it, from the state it was accepted in. -/
def exec (i : Instr) (s : State) : Host.Outcome State Fault Refusal :=
  match i with
  | .nop => Sys2Proof.Machine.execNop s
  | .gfLog => Sys2Proof.Machine.execGfLog s
  | .gfExp => Sys2Proof.Machine.execGfExp s
  | .polyMul => Sys2Proof.Machine.execPolyMul s
  | .polyMod sh => Sys2Proof.Machine.execPolyMod sh s
  | .polyGen k => Sys2Proof.Machine.execPolyGen k s
  | .rsLookup => Sys2Proof.Machine.execRsLookup s
  | .rsEcc k => Sys2Proof.Machine.execRsEcc k s
  | .segEncode => Sys2Proof.Machine.execSegEncode s
  | .cwBuild => Sys2Proof.Machine.execCwBuild s
  | .bchFmt => Sys2Proof.Machine.execBchFmt s
  | .bchVer => Sys2Proof.Machine.execBchVer s
  | .maskEval m => Sys2Proof.Machine.execMaskEval m s
  | .matBuild m t => Sys2Proof.Machine.execMatBuild m t s
  | .matScore => Sys2Proof.Machine.execMatScore s
  | .maskSelect => Sys2Proof.Machine.execMaskSelect s
  | .symFinal => Sys2Proof.Machine.execSymFinal s
  | .symEncode => Sys2Proof.Machine.execSymEncode s
  | .symQuery => Sys2Proof.Machine.execSymQuery s

end Sys2Proof.Machine
end

