-- ==== Sys2Proof/Machine/Step.lean ====
section
/-! DEFINITION. One step of the block and its host (00_scope.md R7; 70_reset_and_hazards.md R300 to
R310). -/

namespace Sys2Proof.Machine

/-- One step. IDLE: the host's next event. BUSY with turns left before completion: a host turn. BUSY
with none left: the command in progress completes, an illegal word with IllegalCommand (R96, R310). -/
def step (s : State) : Host.Outcome State Fault Refusal :=
  match s.seq with
  | .idle => .next s.hostTurn
  | .busy =>
    match s.wait with
    | 0 =>
      match decode s.cmd with
      | .ok i => exec i s
      | .error _ => .next (completeIllegal s)
    | k + 1 => .next (State.hostTurn { s with wait := k })

/-- The state in which the word has just been accepted and completes in the very next step: what the
host's write of it to CMD makes (R300), with no host turn before the completion (log entry 7). -/
def State.withFetchWord (s : State) (nbits w : Nat) : State :=
  { s.accept (tableWord nbits w) with wait := 0 }

end Sys2Proof.Machine
end

