-- ==== Sys2Proof/Safety.lean ====
section
/-! DEFINITION. What counts as a legal state of the block: the invariants the spec states of every
command and of reset, in the terms the obligations use. -/

namespace Sys2Proof.Machine

/-- A version of the block: 1 to 40 (00_scope.md R8). -/
def LegalVersion (v : BitVec 6) : Prop := 1 ≤ v.toNat ∧ v.toNat ≤ 40

/-- The stage invariants of 10_state.md R41: a valid later stage has its earlier stages valid, and the
latched version of every valid stage is in 1 to 40. -/
def State.StagesOk (s : State) : Prop :=
  (s.cw.isSome = true → s.seg.isSome = true) ∧ (s.sel.isSome = true → s.cw.isSome = true)
    ∧ (s.sym.isSome = true → s.cw.isSome = true)
    ∧ (∀ i, s.seg = some i → LegalVersion i.version)
    ∧ (∀ i, s.cw = some i → LegalVersion i.version)
    ∧ (∀ i, s.sym = some i → LegalVersion i.version)

/-- NDATA and NCW are the table's T and C for the latched version and level (10_state.md R32, R33,
41_rs_codec.md R164, R165). -/
def State.CountsOk (s : State) : Prop :=
  (∀ i, s.seg = some i → ∃ bs, rsBlocks i.version.toNat i.level = .ok bs ∧ i.ndata.toNat = totalData bs)
    ∧ (∀ i, s.cw = some i →
        ∃ bs, rsBlocks i.version.toNat i.level = .ok bs ∧ i.ncw.toNat = totalCodewords bs)

/-- The failure record of STATUS and ERRINFO (10_state.md R24, R25; 60_exceptions.md R270): cleared
while a command is in progress and after a success, a code 1 to 8 after a failure. -/
def State.StatusOk (s : State) : Prop :=
  (s.seq = .busy → s.done = false ∧ s.err = false)
    ∧ (s.err = false → s.errcode = 0#4 ∧ s.errinfo = 0#32)
    ∧ (s.err = true → s.done = true ∧ 1 ≤ s.errcode.toNat ∧ s.errcode.toNat ≤ 8)

/-- LR is a length of PR: 0 to 256 (10_state.md R30). -/
def State.LrOk (s : State) : Prop := s.lr.toNat ≤ 256

/-- Buffer memory is in its canonical form. -/
def State.MemOk (s : State) : Prop := s.mem.wf

/-- The cell a grid lists, if it lists it. -/
def Grid.cell? (g : Grid) (r c : Nat) : Option Colour := (g[r]?).bind (fun row => row[c]?)

/-- Every cell of the n by n corner is listed and Light or Dark (43_matrix.md R216). -/
def Grid.Coloured (g : Grid) (n : Nat) : Prop :=
  ∀ r c, r < n → c < n → Grid.cell? g r c = some .light ∨ Grid.cell? g r c = some .dark

/-- While MSTATE is not EMPTY no cell of the symbol is Unset (43_matrix.md R216). -/
def State.MatOk (s : State) : Prop := ∀ i, s.sym = some i → s.mat.Coloured i.n

/-- MAT lists a square corner of the 177 by 177 array (10_state.md R39). -/
def State.MatSquare (s : State) : Prop :=
  s.mat.length ≤ 177 ∧ ∀ row ∈ s.mat, row.length = s.mat.length

/-! ## The words of the obligations -/

/-- The state as a successful completion leaves STATUS (60_exceptions.md R280). -/
def State.asSucceeded (s : State) : State :=
  { s with errcode := 0#4, err := false, done := true, seq := .idle }

/-- The state as a failing completion leaves STATUS and ERRINFO (60_exceptions.md R279). -/
def State.asFailed (s : State) (info : Nat) (code : BitVec 4) : State :=
  { s with errinfo := BitVec.ofNat 32 info, errcode := code, err := true, done := true, seq := .idle }

/-- A polynomial is empty or has a nonzero leading coefficient (40_gf_poly.md R127). -/
def Canonical (p : Poly) : Prop := p = [] ∨ ∃ x xs, p = x :: xs ∧ x ≠ 0#8

/-- No coefficient is zero. -/
def NoZero (p : Poly) : Prop := ∀ x ∈ p, x ≠ 0#8

/-- The product in GF(256), 0 if a factor is 0 (40_gf_poly.md R123). -/
def gfTimes (x y : Byte) : Byte :=
  if x = 0#8 ∨ y = 0#8 then 0#8 else gfExp (logAt x.toNat + logAt y.toNat)

/-- The XOR of some bytes. -/
def xorAll (bs : List Byte) : Byte := bs.foldr (fun x y => x ^^^ y) 0#8

/-- The coefficient of index k of the product of two coefficient sequences: the XOR of the products
`a[i]·b[j]` with i + j = k (40_gf_poly.md R128). -/
def productCoeff (a b : Poly) (k : Nat) : Byte :=
  xorAll ((List.range (k + 1)).map (fun i => gfTimes (a.getD i 0#8) (b.getD (k - i) 0#8)))

/-- The coefficient of degree d, 0 above the polynomial's degree (00_scope.md R10). -/
def coeffAt (p : Poly) (d : Nat) : Byte := if d < p.length then p.getD (p.length - 1 - d) 0#8 else 0#8

/-- The product of two polynomials over GF(2), bit i the coefficient of x^i: the XOR of the shifts of g by
the set bits of q below bit w (42_bch.md R181, R182). -/
def bitProduct (g q w : Nat) : Nat :=
  ((List.range w).map (fun i => if q.testBit i then g <<< i else 0)).foldr (fun x y => x ^^^ y) 0

/-- The data codewords of block k: those after the earlier blocks' (41_rs_codec.md R162). -/
def blockData (bs : List Block) (data : List Byte) (k : Nat) (b : Block) : List Byte :=
  (data.drop ((bs.take k).map Block.data).sum).take b.data

/-- A group packed as RS.LOOKUP packs it (41_rs_codec.md R155). -/
def packedGroup (g : Group) : Word := BitVec.ofNat 32 (g.count + 2 ^ 8 * g.total + 2 ^ 16 * g.data)

/-- The mask rule of row i and column j (44_mask_symbol.md R230). -/
def maskRule : Nat → Nat → Nat → Prop
  | 0, i, j => (i + j) % 2 = 0
  | 1, i, _ => i % 2 = 0
  | 2, _, j => j % 3 = 0
  | 3, i, j => (i + j) % 3 = 0
  | 4, i, j => (i / 2 + j / 3) % 2 = 0
  | 5, i, j => (i * j) % 2 + (i * j) % 3 = 0
  | 6, i, j => ((i * j) % 2 + (i * j) % 3) % 2 = 0
  | 7, i, j => ((i * j) % 3 + (i + j) % 2) % 2 = 0
  | _, _, _ => False

/-- The grid is n by n. -/
def Grid.Square (g : Grid) (n : Nat) : Prop := g.length = n ∧ ∀ row ∈ g, row.length = n

/-- The finder template, true is Dark (43_matrix.md R193). -/
def finderTemplate : List (List Bool) :=
  [ [true, true, true, true, true, true, true],
    [true, false, false, false, false, false, true],
    [true, false, true, true, true, false, true],
    [true, false, true, true, true, false, true],
    [true, false, true, true, true, false, true],
    [true, false, false, false, false, false, true],
    [true, true, true, true, true, true, true] ]

/-- The 5 by 5 alignment template, true is Dark (43_matrix.md R195). -/
def alignmentTemplate : List (List Bool) :=
  [ [true, true, true, true, true],
    [true, false, false, false, true],
    [true, false, true, false, true],
    [true, false, false, false, true],
    [true, true, true, true, true] ]

/-- The k-th cell that data placement visits in an n by n symbol, k below n (n - 1): each column pair takes
2n visits, the right column counts down from n - 1 by twos and skips column 6, the first sweep goes up, the
next down, and the right cell of a row comes before the left (43_matrix.md R211). -/
def visitedCell (n k : Nat) : Nat × Nat :=
  let pair := k / (2 * n)
  let row := k % (2 * n) / 2
  let right := if 6 < n - 1 - 2 * pair then n - 1 - 2 * pair else n - 2 - 2 * pair
  (if pair % 2 = 0 then n - 1 - row else row, right - k % 2)

/-- The cells of an n by n matrix. -/
def cellsOf (n : Nat) : Finset (Nat × Nat) := Finset.range n ×ˢ Finset.range n

/-- Two different cells touch, by a side or a corner (44_mask_symbol.md R233). -/
abbrev Touch (p q : Nat × Nat) : Prop :=
  p ≠ q ∧ p.1 ≤ q.1 + 1 ∧ q.1 ≤ p.1 + 1 ∧ p.2 ≤ q.2 + 1 ∧ q.2 ≤ p.2 + 1

/-- Cell (r, c) holds bit i of the format code in an n by n symbol (43_matrix.md R206). -/
def FormatCellOf (n i r c : Nat) : Prop :=
  (c = 8 ∧ ((i < 6 ∧ r = i) ∨ (6 ≤ i ∧ i < 8 ∧ r = i + 1) ∨ (8 ≤ i ∧ i < 15 ∧ r + 15 = n + i)))
    ∨ (r = 8 ∧ ((i < 8 ∧ c + 1 + i = n) ∨ (i = 8 ∧ c = 7) ∨ (9 ≤ i ∧ i < 15 ∧ c + i = 14)))

/-- Cell (r, c) holds bit i of the version code in an n by n symbol (43_matrix.md R210). -/
def VersionCellOf (n i r c : Nat) : Prop :=
  i < 18 ∧ ((r = i / 3 ∧ c + 11 = i % 3 + n) ∨ (r + 11 = i % 3 + n ∧ c = i / 3))

/-- The stage of a pipeline command (60_exceptions.md R279). -/
def stageOf : Instr → Option Stage
  | .segEncode => some .seg
  | .cwBuild => some .cw
  | .maskSelect => some .sel
  | .matBuild _ _ => some .mat
  | .symFinal => some .mat
  | .symEncode => some .seg
  | .nop | .gfLog | .gfExp | .polyMul | .polyMod _ | .polyGen _ | .rsLookup | .rsEcc _ | .bchFmt
  | .bchVer | .maskEval _ | .matScore | .symQuery => none

/-- The buffers a command may write (40_gf_poly.md to 44_mask_symbol.md, the rules' Writes). -/
def storesTo : Instr → List Region
  | .polyMul | .polyMod _ | .polyGen _ | .rsEcc _ => [.pr]
  | .segEncode => [.dbuf]
  | .cwBuild => [.cwbuf]
  | .symEncode => [.dbuf, .cwbuf]
  | .nop | .gfLog | .gfExp | .rsLookup | .bchFmt | .bchVer | .maskEval _ | .matBuild _ _ | .matScore
  | .maskSelect | .symFinal | .symQuery => []

/-- The RES registers a command may write: those below the answer (10_state.md R35). -/
def writesResBelow : Instr → Nat
  | .gfLog | .gfExp | .cwBuild | .bchFmt | .bchVer | .maskEval _ | .symQuery => 1
  | .segEncode => 2
  | .rsLookup => 6
  | .matScore | .maskSelect | .symEncode => 8
  | .nop | .polyMul | .polyMod _ | .polyGen _ | .rsEcc _ | .matBuild _ _ | .symFinal => 0

/-- The commands that may write MAT (44_mask_symbol.md R243). -/
def writesMat : Instr → Bool
  | .matBuild _ _ | .symFinal | .symEncode | .maskSelect => true
  | .nop | .gfLog | .gfExp | .polyMul | .polyMod _ | .polyGen _ | .rsLookup | .rsEcc _ | .segEncode
  | .cwBuild | .bchFmt | .bchVer | .maskEval _ | .matScore | .symQuery => false

/-- A safe step: the block never stops (60_exceptions.md R277, R281). -/
def SafeStep (s : State) : Prop := ∃ t, step s = .next t

end Sys2Proof.Machine
end

