-- ==== Sys2Proof/Certificates/Slice0/Obligations.lean ====
section
/-! DEFINITION. The statements for the provers, each from a numbered rule of spec/. -/

open Sys2Proof Sys2Proof.Machine

/-! ## Encoding (30_encoding.md) -/

/-- Words written out from R94 and 95_test_vectors.md 2.8 decode to their commands; two illegal words do not. -/
def Obligations.SampleWordsDecode : Prop :=
  decode 0x00010341#32 = .ok (.matBuild 3 true) ∧ decode 0x00000741#32 = .ok (.matBuild 7 false)
    ∧ decode 0x00000A1A#32 = .ok (.polyGen 10) ∧ decode 0x00000A21#32 = .ok (.rsEcc 10)
    ∧ decode 0x00000319#32 = .ok (.polyMod 3) ∧ decode 0x0000FF40#32 = .ok (.maskEval 255)
    ∧ decode 0x00000031#32 = .ok .bchVer ∧ decode 0x00000051#32 = .ok .symQuery
    ∧ decode 0x00020341#32 = .error (.nonzeroReserved 0x41#8)
    ∧ decode 0x00000024#32 = .error (.unassignedOpcode 0x24#8)

/-- Every well-formed command's word decodes to the command (R94, R95, R98). -/
def Obligations.DecodeEncode : Prop := ∀ i : Instr, i.WellFormed → decode (encode i) = .ok i

/-- R95: a word selects a row iff its opcode byte is the row's and every must-be-zero bit of the row's
format is 0; it selects at most one row; and the decoder answers that row's command. -/
def Obligations.DecodeByRows : Prop :=
  (∀ (w : Word) (r : OpcodeRow), r ∈ opcodeTable →
    (r.selects w = true ↔
      w &&& (match r.format with
        | .f0 => 0xFFFFFFFF#32
        | .fa => 0xFFFF00FF#32
        | .fab => 0xFFFE00FF#32) = r.op.setWidth 32))
  ∧ (∀ (w : Word) (r r' : OpcodeRow), r ∈ opcodeTable → r' ∈ opcodeTable → r.selects w = true →
      r'.selects w = true → r = r')
  ∧ ∀ (w : Word) (i : Instr), decode w = .ok i ↔
      ∃ r ∈ opcodeTable, r.selects w = true ∧ i = r.build (w.toNat / 2 ^ 8 % 2 ^ 8) (w.getLsbD 16)

/-- No bit of a legal word is dropped: what decodes is well-formed and encodes to the same word. -/
def Obligations.EncodeDecode : Prop :=
  ∀ (w : Word) (i : Instr), decode w = .ok i → i.WellFormed ∧ encode i = w

/-- R96: the illegal words are those that match no row, among them every word of an unassigned opcode;
an illegal word completes with IllegalCommand and changes only STATUS and ERRINFO. -/
def Obligations.IllegalWordFails : Prop :=
  (∀ w : Word, (∃ e, decode w = .error e) ↔ ∀ i : Instr, i.WellFormed → encode i ≠ w)
  ∧ (∀ w : Word, (∃ op, decode w = .error (.unassignedOpcode op)) ↔
      let o := w.toNat % 2 ^ 8
      (0x01 ≤ o ∧ o ≤ 0x0F) ∨ (0x12 ≤ o ∧ o ≤ 0x17) ∨ (0x1B ≤ o ∧ o ≤ 0x1F) ∨ (0x24 ≤ o ∧ o ≤ 0x2F)
        ∨ (0x32 ≤ o ∧ o ≤ 0x3F) ∨ (0x45 ≤ o ∧ o ≤ 0x4F) ∨ (0x52 ≤ o ∧ o ≤ 0xFF))
  ∧ ∀ s : State, s.seq = .busy → s.wait = 0 → (∃ e, decode s.cmd = .error e) →
      step s = .next (s.asFailed (s.cmd.toNat % 2 ^ 8) 6#4)

/-! ## A step (00_scope.md R7, 70_reset_and_hazards.md R300 to R310) -/

/-- A step runs the decoded command: the completion of the word in CMD is exec of its command. Every
other step is the host's: its next event in program order, while IDLE and while the command in progress
has host turns left (the model's reading of R310, log entries 1 to 3). -/
def Obligations.StepRunsDecoded : Prop :=
  (∀ (s : State) (i : Instr), s.seq = .busy → s.wait = 0 → decode s.cmd = .ok i → step s = exec i s)
  ∧ (∀ s : State, s.seq = .idle → step s = .next s.hostTurn)
  ∧ ∀ (s : State) (k : Nat), s.seq = .busy → s.wait = k + 1 →
      step s = .next (State.hostTurn { s with wait := k })

/-- A word placed where the block takes its next command runs in the very next step, as the host's
write of it to CMD while IDLE would make it run with no host turn in between (log entry 7). -/
def Obligations.FetchWordRuns : Prop :=
  ∀ (s : State) (w : Nat) (i : Instr), decodeTableWord 32 w = some i →
    step (s.withFetchWord 32 w) = exec i (s.withFetchWord 32 w)
    ∧ (s.seq = .idle → s.withFetchWord 32 w = { s.hostWrite 0x004 .b4 (BitVec.ofNat 32 w) with wait := 0 })

/-- The block never stops: every step of every state answers a next state (60_exceptions.md R277, R281). -/
def Obligations.StepNeverStops : Prop := ∀ s : State, SafeStep s

/-! ## The bus (20_memory.md) -/

/-- R66, for an access admitted by R63 and R64: what a host write does, case by case. The clause for
CMD states acceptance (R300); its latency is the free value of log entry 2. -/
def Obligations.HostWriteRule : Prop :=
  ∀ (s : State) (a : Nat) (n : AccessSize) (v : Word),
    (a < 0x100 → n = .b4 ∧ a % 4 = 0) → ((regionOf a).isSome = true → a % n.bytes = 0) →
    let t := s.hostWrite a n v
    (a = 0x008 → t = { s with overrun := s.overrun && !v.getLsbD 3 })
    ∧ (a ≠ 0x008 → s.seq = .busy → t = { s with overrun := true })
    ∧ (s.seq = .idle →
        (a = 0x004 → t = { s with
            cmd := v, seq := .busy, done := false, err := false, errcode := 0#4, errinfo := 0#32,
            wait := Config.latency v s.draws, draws := s.draws + 1 })
        ∧ (a = 0x010 → t = { s with cfgVersion := v.extractLsb' 0 6, cfgLevel := v.extractLsb' 8 2 })
        ∧ (a = 0x014 → t = { s with plen := v.extractLsb' 0 16 })
        ∧ (a = 0x018 → t = { s with arg0 := v })
        ∧ (a = 0x01C → t = { s with arg1 := v })
        ∧ (a = 0x020 → t = { s with la := v.extractLsb' 0 9 })
        ∧ (a = 0x024 → t = { s with lb := v.extractLsb' 0 9 })
        ∧ (((0x1000 ≤ a ∧ a < 0x2000) ∨ (0x2000 ≤ a ∧ a < 0x2200)) → t = { s with mem := t.mem }
            ∧ ∀ x, t.byteAt x =
                if a ≤ x ∧ x < a + n.bytes then v.extractLsb' (8 * (x - a)) 8 else s.byteAt x)
        ∧ (a ∉ [0x004, 0x008, 0x010, 0x014, 0x018, 0x01C, 0x020, 0x024] →
            ¬ (0x1000 ≤ a ∧ a < 0x2200) → t = s))

/-- R22, R65, for an access admitted by R63 and R64: what a host read returns, register by register and
buffer by buffer, while IDLE and while BUSY; and that it changes nothing else (R67): `replies` and `draws`
are the model's own fields (log entries 1, 6). StatusWordLayout and InfoWordsLayout fix the words named. -/
def Obligations.HostReadRule : Prop :=
  ∀ (s : State) (a : Nat) (n : AccessSize),
    (a < 0x100 → n = .b4 ∧ a % 4 = 0) → ((regionOf a).isSome = true → a % n.bytes = 0) →
    let t := s.hostRead a n
    let answers := fun w : Word => t = { s with replies := w :: s.replies }
    (s.seq = .idle →
      (a = 0x000 → answers 0x51524307#32) ∧ (a = 0x004 → answers s.cmd) ∧ (a = 0x008 → answers s.statusWord)
      ∧ (a = 0x00C → answers s.errinfo) ∧ (a = 0x010 → answers s.cfgWord)
      ∧ (a = 0x014 → answers (s.plen.setWidth 32)) ∧ (a = 0x018 → answers s.arg0) ∧ (a = 0x01C → answers s.arg1)
      ∧ (a = 0x020 → answers (s.la.setWidth 32)) ∧ (a = 0x024 → answers (s.lb.setWidth 32))
      ∧ (a = 0x028 → answers (s.lr.setWidth 32)) ∧ (a = 0x02C → answers s.maskselWord)
      ∧ (a = 0x030 → answers s.dinfoWord) ∧ (a = 0x034 → answers s.cinfoWord)
      ∧ (a = 0x038 → answers s.syminfoWord)
      ∧ (∀ k : Fin 8, a = 0x040 + 4 * k.val → answers s.res[k.val])
      ∧ (a = 0x03C ∨ (0x060 ≤ a ∧ a < 0x100) → answers 0#32)
      ∧ ((regionOf a).isSome = true → answers (BitVec.ofNat 32
            (((List.range n.bytes).map (fun k => (s.byteAt (a + k)).toNat <<< (8 * k))).sum)))
      ∧ (0x100 ≤ a → regionOf a = none → answers 0#32))
    ∧ (s.seq = .busy →
      (a = 0x000 → answers 0x51524307#32) ∧ (a = 0x008 → answers s.statusWord)
      ∧ (a ≠ 0x000 → a ≠ 0x008 → ∃ x, t = { s with replies := x :: s.replies, draws := s.draws + 1 }))

/-- R63, R64, R301: an access the map does not admit reads 0 and has no effect while IDLE. While BUSY every
write of any size and alignment whose address is not STATUS's is dropped and sets OVERRUN; a mis-sized
write at STATUS's address has no effect at all (that it is a write to STATUS is log entry 8). -/
def Obligations.UnadmittedAccess : Prop :=
  ∀ (s : State) (a : Nat) (n : AccessSize) (v : Word),
    (s.seq = .busy → a ≠ 0x008 → s.hostWrite a n v = { s with overrun := true })
    ∧ (((a < 0x100 ∧ ¬ (n = .b4 ∧ a % 4 = 0)) ∨ ((regionOf a).isSome = true ∧ a % n.bytes ≠ 0)) →
      (s.seq = .idle → s.hostWrite a n v = s ∧ s.hostRead a n = { s with replies := 0#32 :: s.replies })
      ∧ (s.seq = .busy → a = 0x008 → s.hostWrite a n v = s))

/-- R26 to R29, R62, R65, R66: a RW register reads back the bits it keeps, its reserved bits 0; an
aligned write to PBUF, PA or PB reads back, little-endian. -/
def Obligations.WritesReadBack : Prop :=
  (∀ (s : State) (v : Word), s.seq = .idle →
    (s.hostWrite 0x010 .b4 v).memRead 0x010 .b4 = v &&& 0x0000033F#32
    ∧ (s.hostWrite 0x014 .b4 v).memRead 0x014 .b4 = v &&& 0x0000FFFF#32
    ∧ (s.hostWrite 0x018 .b4 v).memRead 0x018 .b4 = v
    ∧ (s.hostWrite 0x01C .b4 v).memRead 0x01C .b4 = v
    ∧ (s.hostWrite 0x020 .b4 v).memRead 0x020 .b4 = v &&& 0x000001FF#32
    ∧ (s.hostWrite 0x024 .b4 v).memRead 0x024 .b4 = v &&& 0x000001FF#32)
  ∧ ∀ (s : State) (a : Nat) (n : AccessSize) (v : Word) (r : Region), s.seq = .idle →
      regionOf a = some r → r.hostWritable = true → a % n.bytes = 0 →
      (s.hostWrite a n v).memRead a n = BitVec.ofNat 32 (v.toNat % 2 ^ (8 * n.bytes))

/-- R24: the bits of STATUS; every bit not listed reads 0. -/
def Obligations.StatusWordLayout : Prop :=
  ∀ (s : State) (i : Nat), i < 32 → s.statusWord.getLsbD i =
    if i = 0 then decide (s.seq = .busy) else if i = 1 then s.done else if i = 2 then s.err
    else if i = 3 then s.overrun else if 8 ≤ i ∧ i ≤ 11 then s.errcode.getLsbD (i - 8)
    else if i = 16 then s.seg.isSome else if i = 17 then s.cw.isSome else if i = 18 then s.sel.isSome
    else if i = 20 then s.sym.any (fun x => x.trial) else if i = 21 then s.sym.any (fun x => !x.trial)
    else false

/-- R26, R31 to R34: the words of CFG, MASKSEL, DINFO, CINFO and SYMINFO; an info register of a stage
that is not valid reads 0. SYMINFO is stated for the versions 1 to 40, the only ones R41 allows. -/
def Obligations.InfoWordsLayout : Prop :=
  ∀ s : State,
    s.cfgWord.toNat = s.cfgVersion.toNat + 2 ^ 8 * s.cfgLevel.toNat
    ∧ (s.sel = none → s.maskselWord = 0#32) ∧ (∀ m, s.sel = some m → s.maskselWord.toNat = m.toNat)
    ∧ (s.seg = none → s.dinfoWord = 0#32)
    ∧ (∀ i, s.seg = some i →
        s.dinfoWord.toNat = i.ndata.toNat + 2 ^ 16 * i.version.toNat + 2 ^ 24 * i.level.toNat)
    ∧ (s.cw = none → s.cinfoWord = 0#32)
    ∧ (∀ i, s.cw = some i →
        s.cinfoWord.toNat = i.ncw.toNat + 2 ^ 16 * i.version.toNat + 2 ^ 24 * i.level.toNat)
    ∧ (s.sym = none → s.syminfoWord = 0#32)
    ∧ (∀ i, s.sym = some i → LegalVersion i.version →
        s.syminfoWord.toNat = i.version.toNat + 2 ^ 8 * i.level.toNat + 2 ^ 12 * i.mask.toNat
          + 2 ^ 15 * i.trial.toNat + 2 ^ 16 * (4 * i.version.toNat + 17))

/-- R291: after reset, by power-up and by the reset input, every register of the window reads its reset
value (ID its constant, every other offset 0) and SEQ is IDLE, so no command is in progress. -/
def Obligations.ResetValues : Prop :=
  (∀ off, off < 0x100 → off % 4 = 0 →
    State.reset.memRead off .b4 = (if off = 0 then 0x51524307#32 else 0#32)
    ∧ ∀ s : State, s.pulseReset.memRead off .b4 = (if off = 0 then 0x51524307#32 else 0#32))
  ∧ State.reset.seq = .idle ∧ ∀ s : State, s.pulseReset.seq = .idle

/-- R290, R292, R293: a reset pulse that is the host's next event takes effect at its next turn, IDLE or
BUSY; a command in progress is abandoned: every field is that of reset, the unknown contents of the buffers
and of MAT come from a fresh draw. The step that completes a command is the core's, and the pulse follows in
the very next step (the model's choice, log entry 10). The host's queue, its replies and the draw counter
are the model's own and go on (log entries 1, 4, 5, 6). -/
def Obligations.ResetTakesItsTurn : Prop :=
  ∀ (s : State) (q : List HostEvent), s.hostQ = .reset :: q →
    let afterPulse := fun u : State => { State.reset with
      ramDraw := u.draws, matDraw := u.draws, draws := u.draws + 1, hostQ := q, replies := u.replies }
    (s.seq = .idle ∨ s.wait ≠ 0 → step s = .next (afterPulse s))
    ∧ (s.seq = .busy → s.wait = 0 → ∃ t, step s = .next t ∧ t.seq = .idle ∧ t.replies = s.replies
        ∧ step t = .next (afterPulse t))

/-! ## The field (40_gf_poly.md R121 to R126) -/

/-- R121: the EXP and LOG tables obey their build rule. -/
def Obligations.ExpLogTables : Prop :=
  (∀ i, i < 8 → (expAt i).toNat = 2 ^ i)
  ∧ (∀ i, 8 ≤ i → i < 256 → expAt i = expAt (i - 4) ^^^ expAt (i - 5) ^^^ expAt (i - 6) ^^^ expAt (i - 8))
  ∧ ∀ i, i < 255 → logAt (expAt i).toNat = i

/-- R122, R123, R126: log and exp undo each other, exp(i + 1) is 2 times exp(i) modulo 0x11D, and the
product formed through logs is exp of the sum. -/
def Obligations.FieldLaws : Prop :=
  (∀ n : Int, 1 ≤ n → n ≤ 255 → ∃ e : Nat, e < 255 ∧ gfLog n = .ok e ∧ ((gfExp e).toNat : Int) = n)
  ∧ (∀ i : Int, gfLog (gfExp i).toNat = .ok (i % 255).toNat)
  ∧ (∀ i : Int, gfExp (i + 1) = (gfExp i <<< 1) ^^^ (if (gfExp i).msb then 0x1D#8 else 0#8))
  ∧ ∀ i j : Int, mulByte (gfExp i) (gfExp j) = .ok (gfExp (i + j))

/-! ## NOP, field and polynomial commands (40_gf_poly.md R120 to R134) -/

/-- R120: NOP is the word 0, no other word of its opcode is legal, and it changes nothing but the
completion flags; accepted while IDLE it clears a previous failure's record with no other effect (the
host's wait and the draw counter are the model's own fields, log entries 2 and 6). -/
def Obligations.NopEffect : Prop :=
  decode 0x00000000#32 = .ok .nop
  ∧ (∀ w : Word, w.toNat % 2 ^ 8 = 0 → w ≠ 0#32 → ∃ e, decode w = .error e)
  ∧ (∀ s : State, exec .nop s = .next s.asSucceeded)
  ∧ ∀ s : State, s.seq = .idle → ∃ k, exec .nop (s.hostWrite 0x004 .b4 0#32) = .next { s with
      cmd := 0#32, done := true, err := false, errcode := 0#4, errinfo := 0#32, wait := k, draws := s.draws + 1 }

/-- R124: GF.LOG writes to RES0 the exponent below 255 of the field element ARG0, and refuses a signed
value below 1 or above 255 with MathDomainError. -/
def Obligations.GfLogEffect : Prop :=
  decode 0x00000010#32 = .ok .gfLog
  ∧ ∀ s : State,
      (1 ≤ s.arg0.toInt ∧ s.arg0.toInt ≤ 255 → ∃ e : Nat, e < 255 ∧ ((expAt e).toNat : Int) = s.arg0.toInt
        ∧ exec .gfLog s = .next { s with res := s.res.set 0 (BitVec.ofNat 32 e) }.asSucceeded)
      ∧ (¬ (1 ≤ s.arg0.toInt ∧ s.arg0.toInt ≤ 255) → exec .gfLog s = .next (s.asFailed 0x10 4#4))

/-- R125: GF.EXP writes EXP[n mod 255] of the signed ARG0 to RES0, which is never 0, and never fails. -/
def Obligations.GfExpEffect : Prop :=
  decode 0x00000011#32 = .ok .gfExp
  ∧ ∀ s : State, expAt (s.arg0.toInt % 255).toNat ≠ 0#8
      ∧ exec .gfExp s = .next
          { s with res := s.res.set 0 ((expAt (s.arg0.toInt % 255).toNat).setWidth 32) }.asSucceeded

/-- R128, R132: POLY.MUL completes for canonical operands without a zero coefficient whose product fits,
and for an empty operand; PR holds the product's coefficients and then zeros, LR its length; nothing
else changes. -/
def Obligations.PolyMulCompletes : Prop :=
  ∀ s : State, s.la.toNat ≤ 256 → s.lb.toNat ≤ 256 →
    let a := canonical s.rawA 0
    let b := canonical s.rawB 0
    (a = [] ∨ b = [] ∨ (NoZero a ∧ NoZero b ∧ a.length + b.length ≤ 257)) →
    ∃ t, exec .polyMul s = .next t
      ∧ t = { s.asSucceeded with mem := t.mem, lr := t.lr }
      ∧ t.lr.toNat = (if a = [] ∨ b = [] then 0 else a.length + b.length - 1)
      ∧ ∀ x, t.byteAt x =
          if 0x2200 ≤ x ∧ x < 0x2300 then
            if x - 0x2200 < t.lr.toNat then productCoeff a b (x - 0x2200) else 0#8
          else s.byteAt x

/-- R129, R133: POLY.MOD completes when the divisor is not the zero polynomial and either has no zero
coefficient or is longer than the shifted dividend; PR holds the remainder and then zeros, LR its
length, below the divisor's; nothing else changes. -/
def Obligations.PolyModCompletes : Prop :=
  ∀ (s : State) (sh : Nat), s.la.toNat ≤ 256 → s.lb.toNat ≤ 256 →
    let a := canonical s.rawA sh
    let b := canonical s.rawB 0
    b ≠ [] → (a.length < b.length ∨ NoZero b) →
    ∃ r t, polyMod a b = .ok r ∧ r.length < b.length ∧ exec (.polyMod sh) s = .next t
      ∧ t = { s.asSucceeded with mem := t.mem, lr := t.lr } ∧ t.lr.toNat = r.length
      ∧ ∀ x, t.byteAt x =
          if 0x2200 ≤ x ∧ x < 0x2300 then r.getD (x - 0x2200) 0#8 else s.byteAt x

/-- R129: what `mod` answers is a remainder: shorter than the divisor, and the dividend is a sum of
shifted multiples of the divisor and the remainder, coefficient by coefficient. -/
def Obligations.ModIsRemainder : Prop :=
  ∀ a b r : Poly, Canonical a → Canonical b → polyMod a b = .ok r →
    Canonical r ∧ r.length < b.length
    ∧ ∃ q : List (Byte × Nat), ∀ d : Nat, coeffAt a d =
        coeffAt r d ^^^ xorAll (q.map (fun p => if p.2 ≤ d then gfTimes p.1 (coeffAt b (d - p.2)) else 0#8))

/-- R130, R134: POLY.GEN completes for every k of a command word; PR holds the k + 1 coefficients of
gen(k), leading 1, and then zeros; LR is k + 1; nothing else changes. gen(0) is 1, gen(k + 1) is the product
of gen(k) and the factor (1, exp(k)), no coefficient up to k = 254 is zero, and gen(255) is x^255 + 1. -/
def Obligations.PolyGenCompletes : Prop :=
  (∀ (s : State) (k : Nat), k < 256 →
    ∃ g t, gen k = .ok g ∧ g.length = k + 1 ∧ g.head? = some 1#8 ∧ exec (.polyGen k) s = .next t
      ∧ t = { s.asSucceeded with mem := t.mem, lr := BitVec.ofNat 9 (k + 1) }
      ∧ ∀ x, t.byteAt x =
          if 0x2200 ≤ x ∧ x < 0x2300 then g.getD (x - 0x2200) 0#8 else s.byteAt x)
  ∧ gen 0 = .ok [1#8]
  ∧ (∀ k, k < 255 → ∃ g h, gen k = .ok g ∧ NoZero g ∧ gen (k + 1) = .ok h
      ∧ ∀ j, h.getD j 0#8 = productCoeff g [1#8, expAt k] j)
  ∧ gen 255 = .ok (1#8 :: (List.replicate 254 0#8 ++ [1#8]))

/-- R131, R132, R133, R273: where POLY.MUL and POLY.MOD fail, with the code and detail of the first check
that refuses. -/
def Obligations.PolyOperandsRefused : Prop :=
  ∀ (s : State) (sh : Nat),
    let a := canonical s.rawA 0
    let b := canonical s.rawB 0
    let c := canonical s.rawA sh
    (256 < s.la.toNat → exec .polyMul s = .next (s.asFailed (0x18 + 2 ^ 8 * s.la.toNat) 8#4)
      ∧ exec (.polyMod sh) s = .next (s.asFailed (0x19 + 2 ^ 8 * s.la.toNat) 8#4))
    ∧ (s.la.toNat ≤ 256 → 256 < s.lb.toNat →
        exec .polyMul s = .next (s.asFailed (0x18 + 2 ^ 8 * s.lb.toNat) 8#4)
        ∧ exec (.polyMod sh) s = .next (s.asFailed (0x19 + 2 ^ 8 * s.lb.toNat) 8#4))
    ∧ (s.la.toNat ≤ 256 → s.lb.toNat ≤ 256 →
        (a ≠ [] → b ≠ [] → 257 < a.length + b.length →
          exec .polyMul s = .next (s.asFailed (0x18 + 2 ^ 8 * (a.length + b.length - 1)) 8#4))
        ∧ (a ≠ [] → b ≠ [] → a.length + b.length ≤ 257 → ¬ (NoZero a ∧ NoZero b) →
          exec .polyMul s = .next (s.asFailed 0x18 4#4))
        ∧ (b = [] → exec (.polyMod sh) s = .next (s.asFailed 0x19 4#4))
        ∧ (b ≠ [] → b.length ≤ c.length → ¬ NoZero b → exec (.polyMod sh) s = .next (s.asFailed 0x19 4#4)))

/-! ## Reed-Solomon and codec commands (41_rs_codec.md) -/

/-- R155: RS.LOOKUP packs the cell of the CFG version and level into RES0 and RES1 and its totals into
RES2 to RES5, and refuses a version outside 1 to 40 with InvalidTable. -/
def Obligations.RsLookupEffect : Prop :=
  decode 0x00000020#32 = .ok .rsLookup
  ∧ ∀ s : State, let v := s.cfgVersion.toNat
      (1 ≤ v ∧ v ≤ 40 → ∃ (g : Machine.Group) (rest : List Machine.Group), rsGroups v s.cfgLevel = .ok (g :: rest)
        ∧ rest.length ≤ 1
        ∧ exec .rsLookup s = .next { s with
            res := (((((s.res.set 0 (packedGroup g)).set 1 ((rest.map packedGroup).headD 0#32)).set 2
              (BitVec.ofNat 32 ((g :: rest).map (fun h : Machine.Group => h.count * h.data)).sum)).set 3
              (BitVec.ofNat 32 ((g :: rest).map (fun h : Machine.Group => h.count * h.total)).sum)).set 4
              (BitVec.ofNat 32 ((g :: rest).map (fun h : Machine.Group => h.count)).sum)).set 5
              (BitVec.ofNat 32 (g.total - g.data)) }.asSucceeded)
      ∧ (¬ (1 ≤ v ∧ v ≤ 40) → exec .rsLookup s = .next (s.asFailed (0x20 + 2 ^ 8 * v) 3#4))

/-- R153: in every cell each block has EC codewords, as many in both groups, the second group one more
data codeword; the total does not depend on the level; the counts stay within their fields. -/
def Obligations.RsTableSound : Prop :=
  ∀ (v : Nat) (l : BitVec 2), 1 ≤ v → v ≤ 40 → ∃ gs, rsGroups v l = .ok gs
    ∧ (∀ g ∈ gs, g.data < g.total ∧ g.total - g.data = groupsEc gs ∧ g.total ≤ 153 ∧ g.count ≤ 67)
    ∧ (gs.length = 1 ∨ ∃ g h, gs = [g, h] ∧ h.data = g.data + 1)
    ∧ groupsEc gs ∈ [7, 10, 13, 15, 16, 17, 18, 20, 22, 24, 26, 28, 30]
    ∧ (blocksOf gs).length ≤ 81
    ∧ ∀ l' gs', rsGroups v l' = .ok gs' → totalCodewords (blocksOf gs') = totalCodewords (blocksOf gs)

/-- R161, R163: RS.ECC completes for every EC count up to 254, and for 255 on all-zero data: PR holds k
EC codewords and then zeros, LR is k. It refuses LA above 256, and k = 255 with a nonzero data byte. -/
def Obligations.RsEccEffect : Prop :=
  ∀ (s : State) (k : Nat), k < 256 →
    (s.la.toNat ≤ 256 → (k ≤ 254 ∨ ∀ x ∈ s.rawA, x = 0#8) →
      ∃ ec t, rsEcc s.rawA k = .ok ec ∧ ec.length = k ∧ exec (.rsEcc k) s = .next t
        ∧ t = { s.asSucceeded with mem := t.mem, lr := BitVec.ofNat 9 k }
        ∧ ∀ x, t.byteAt x =
            if 0x2200 ≤ x ∧ x < 0x2300 then ec.getD (x - 0x2200) 0#8 else s.byteAt x)
    ∧ (256 < s.la.toNat → exec (.rsEcc k) s = .next (s.asFailed (0x21 + 2 ^ 8 * s.la.toNat) 8#4))
    ∧ (s.la.toNat ≤ 256 → k = 255 → (∃ x ∈ s.rawA, x ≠ 0#8) →
        exec (.rsEcc k) s = .next (s.asFailed 0x21 4#4))

/-- R161: the EC codewords make the data divisible: data followed by its k EC codewords has remainder
zero modulo the generator. -/
def Obligations.RsEccSystematic : Prop :=
  ∀ (d ec : List Byte) (k : Nat), k ≤ 254 → rsEcc d k = .ok ec →
    ∃ g, gen k = .ok g ∧ polyMod (canonical (d ++ ec) 0) g = .ok []

/-- R159, R164: SEG.ENCODE completes for a version 1 to 40 whose capacity holds the payload: DBUF holds
the T data codewords and then zeros, stage SEG is valid with the CFG values, the later stages are not,
RES0 and RES1 hold nbits and T; nothing else changes. -/
def Obligations.SegEncodeCompletes : Prop :=
  ∀ (s : State) (bs : List Block), rsBlocks s.version s.cfgLevel = .ok bs →
    segBits s.version s.payloadLen ≤ 8 * totalData bs →
    let data := segCodewords s.version (totalData bs) (s.payload s.payloadLen)
    data.length = totalData bs
    ∧ ∃ t, exec .segEncode s = .next t
      ∧ t = { s.asSucceeded with
          mem := t.mem,
          res := (s.res.set 0 (BitVec.ofNat 32 (segBits s.version s.payloadLen))).set 1
            (BitVec.ofNat 32 (totalData bs)),
          seg := some ⟨BitVec.ofNat 12 (totalData bs), s.cfgVersion, s.cfgLevel⟩,
          cw := none, sel := none, sym := none }
      ∧ ∀ x, t.byteAt x =
          if 0x3000 ≤ x ∧ x < 0x4000 then data.getD (x - 0x3000) 0#8 else s.byteAt x

/-- R157, R158: the data codewords are, bit for bit, the mode indicator 0100, the length, the payload, a
4-bit terminator, and pad bytes 0xEC, 0x11 in turn. -/
def Obligations.SegCodewordsClosedForm : Prop :=
  ∀ (v total : Nat) (p : List Byte), segBits v p.length ≤ 8 * total →
    (segCodewords v total p).length = total
    ∧ codewordBits (segCodewords v total p) =
        [false, true, false, false]
          ++ bitsOf (p.length % 2 ^ (if v ≤ 9 then 8 else 16)) (if v ≤ 9 then 8 else 16)
          ++ codewordBits p ++ [false, false, false, false]
          ++ codewordBits ((List.range (total - (segBits v p.length + 4) / 8)).map
              (fun k => if k % 2 = 0 then 0xEC#8 else 0x11#8))

/-- R160, R164, R253, R279: where SEG.ENCODE and SYM.ENCODE fail, with their codes and details; every
stage is invalid afterwards and nothing else changes but the failure record. -/
def Obligations.SegmentRefused : Prop :=
  ∀ s : State, let v := s.version
    let u : State := { s with seg := none, cw := none, sel := none, sym := none }
    (¬ (1 ≤ v ∧ v ≤ 40) → exec .segEncode s = .next (u.asFailed (0x22 + 2 ^ 8 * v) 3#4)
      ∧ exec .symEncode s = .next (u.asFailed (0x50 + 2 ^ 8 * v) 3#4))
    ∧ ∀ bs, rsBlocks v s.cfgLevel = .ok bs → 8 * totalData bs < segBits v s.payloadLen →
        exec .segEncode s = .next (u.asFailed (0x22 + 2 ^ 8 * segBits v s.payloadLen) 1#4)
        ∧ exec .symEncode s = .next (u.asFailed (0x50 + 2 ^ 8 * segBits v s.payloadLen) 1#4)

/-- R161, R162, R165, R166, R272: CW.BUILD completes whenever stage SEG is valid with a version 1 to 40 and
its table count NDATA (the invariants LegalVersion and CountsOk): CWBUF holds the C codewords and then
zeros, stage CW is valid with the SEG stage's values, SEL and MAT are not; nothing else changes. The
codewords are the blocks' consecutive parts of DBUF interleaved, then each block's EC codewords interleaved
(InterleaveOrder says in which order). -/
def Obligations.CwBuildCompletes : Prop :=
  ∀ (s : State) (i : SegInfo) (bs : List Block), s.seg = some i →
    rsBlocks i.version.toNat i.level = .ok bs → i.ndata.toNat = totalData bs →
    let data := s.bufferBytes .dbuf i.ndata.toNat
    ∃ ds ecs cw t,
      (ds.length = bs.length ∧ ecs.length = bs.length
        ∧ (∀ (k : Nat) (b : Block), bs[k]? = some b →
            ds[k]? = some (blockData bs data k b) ∧ (blockData bs data k b).length = b.data
            ∧ ∃ ec, ecs[k]? = some ec ∧ ec.length = b.total - b.data
              ∧ rsEcc (blockData bs data k b) (b.total - b.data) = .ok ec)
        ∧ cw = interleave ds ++ interleave ecs ∧ cw.length = totalCodewords bs)
      ∧ exec .cwBuild s = .next t
      ∧ t = { s.asSucceeded with
          mem := t.mem, res := s.res.set 0 (BitVec.ofNat 32 cw.length),
          cw := some ⟨BitVec.ofNat 12 cw.length, i.version, i.level⟩, sel := none, sym := none }
      ∧ ∀ x, t.byteAt x =
          if 0x4000 ≤ x ∧ x < 0x5000 then cw.getD (x - 0x4000) 0#8 else s.byteAt x

/-- R162, R166 (C7): interleaving is column-wise, for sequences of any lengths: entry i of sequence j comes
after the entries of index below i of every sequence (a sequence has min(i, its length) of them) and after
the entries of index i of the earlier sequences, which contribute one iff i is below their length. So no
codeword is lost or added; for sequences of one length n, entry k is entry k / B of sequence k mod B. -/
def Obligations.InterleaveOrder : Prop :=
  (∀ (cols : List (List Byte)) (i j : Nat) (col : List Byte) (x : Byte), cols[j]? = some col →
    col[i]? = some x →
    (interleave cols)[(cols.map (fun d => min i d.length)).sum
      + (cols.take j).countP (fun d => decide (i < d.length))]? = some x)
  ∧ (∀ cols : List (List Byte), (interleave cols).Perm cols.flatten
      ∧ (interleave cols).length = (cols.map (fun col => col.length)).sum)
  ∧ ∀ (cols : List (List Byte)) (n k : Nat), cols ≠ [] → (∀ col ∈ cols, col.length = n) →
      k < cols.length * n →
      (interleave cols)[k]? = ((cols[k % cols.length]?).bind (fun col => col[k / cols.length]?))

/-! ## BCH commands (42_bch.md) -/

/-- R183, R184: BCH.FMT and BCH.VER write the code of the low 5 or 6 bits of ARG0 to RES0, and never fail. -/
def Obligations.BchEffect : Prop :=
  decode 0x00000030#32 = .ok .bchFmt ∧ decode 0x00000031#32 = .ok .bchVer
  ∧ ∀ s : State,
      exec .bchFmt s = .next
        { s with res := s.res.set 0 (BitVec.ofNat 32 (encodeFormatInfo (s.arg0.toNat % 2 ^ 5))) }.asSucceeded
      ∧ exec .bchVer s = .next
        { s with res := s.res.set 0 (BitVec.ofNat 32 (encodeVersionInfo (s.arg0.toNat % 2 ^ 6))) }.asSucceeded

/-- R181 to R184: a format code has its data, masked, in bits 14 to 10, and without the final XOR is a
multiple of the generator, the XOR of its shifts by the bits of a quotient; a version code has its data in
bits 17 to 12 and is a multiple of its generator; the 32 format codes are distinct. -/
def Obligations.BchCodesSound : Prop :=
  (∀ d, d < 32 → encodeFormatInfo d < 2 ^ 15 ∧ encodeFormatInfo d / 2 ^ 10 = d ^^^ 0b10101
    ∧ ∃ q, q < 2 ^ 5 ∧ encodeFormatInfo d ^^^ 0x5412 = bitProduct 0x537 q 5)
  ∧ (∀ d e, d < 32 → e < 32 → encodeFormatInfo d = encodeFormatInfo e → d = e)
  ∧ ∀ d, d < 64 → encodeVersionInfo d < 2 ^ 18 ∧ encodeVersionInfo d / 2 ^ 12 = d
      ∧ ∃ q, q < 2 ^ 6 ∧ encodeVersionInfo d = bitProduct 0x1F25 q 6

/-! ## Matrix and mask commands (43_matrix.md, 44_mask_symbol.md) -/

/-- R230, R231: MASK.EVAL, its operand the command word's FA field, writes the mask function of the low
bytes of ARG0 and ARG1 to RES0 for a mask 0 to 7, and refuses any other mask of a command word with
InvalidMaskId. -/
def Obligations.MaskEvalEffect : Prop :=
  ∀ (s : State) (m : Nat), m < 256 →
    decode (BitVec.ofNat 32 (0x40 + 2 ^ 8 * m)) = .ok (.maskEval m)
    ∧ (m ≤ 7 → ∃ b : Bool, (b = true ↔ maskRule m (s.arg0.toNat % 2 ^ 8) (s.arg1.toNat % 2 ^ 8))
      ∧ exec (.maskEval m) s = .next { s with res := s.res.set 0 (BitVec.ofNat 32 b.toNat) }.asSucceeded)
    ∧ (7 < m → exec (.maskEval m) s = .next (s.asFailed (0x40 + 2 ^ 8 * m) 5#4))

/-- R218: MAT.BUILD completes whenever stage CW is valid and the mask is 0 to 7: the N by N corner of MAT
is the build, every other cell of MAT is unchanged, SYMINFO and MSTATE describe it; nothing else changes.
It refuses another mask, and then stage MAT is EMPTY. -/
def Obligations.MatBuildEffect : Prop :=
  ∀ (s : State) (i : CwInfo) (m : Nat) (t : Bool), s.cw = some i → m < 256 →
    let n := 4 * i.version.toNat + 17
    let g := build (s.bufferBytes .cwbuf i.ncw.toNat) i.version.toNat i.level (BitVec.ofNat 3 m) t
    (m ≤ 7 → ∃ u, exec (.matBuild m t) s = .next u
      ∧ u = { s.asSucceeded with mat := u.mat, sym := some ⟨i.version, i.level, BitVec.ofNat 3 m, t⟩ }
      ∧ (∀ r c, r < n → c < n → u.matCell r c = g.get r c)
      ∧ ∀ r c, ¬ (r < n ∧ c < n) → u.matCell r c = s.matCell r c)
    ∧ (7 < m → exec (.matBuild m t) s = .next ({ s with sym := none }.asFailed (0x41 + 2 ^ 8 * m) 5#4))

/-- R216: every build, trial or final, of a version 1 to 40 is an N by N grid without an Unset cell. -/
def Obligations.BuildLeavesNoUnset : Prop :=
  ∀ (cw : List Byte) (v : Nat) (l : BitVec 2) (m : BitVec 3) (t : Bool), 1 ≤ v → v ≤ 40 →
    (build cw v l m t).Square (4 * v + 17)
    ∧ ∀ r c, r < 4 * v + 17 → c < 4 * v + 17 →
        (build cw v l m t).get r c = .light ∨ (build cw v l m t).get r c = .dark

/-- R207: the cell (N - 8, 8) is Dark in every build, whatever the mask and the trial flag. -/
def Obligations.FixedCellDark : Prop :=
  ∀ (cw : List Byte) (v : Nat) (l : BitVec 2) (m : BitVec 3) (t : Bool), 1 ≤ v → v ≤ 40 →
    (build cw v l m t).get (4 * v + 17 - 8) 8 = .dark

/-- R192 to R196: the function patterns of every build, whatever its inputs: the three finders are the
template and their separators are Light; at every pair of the version's alignment list but the three that
meet a finder stands the alignment template; column 6 and row 6 from 8 to N - 8 are Dark iff the index is
even. An alignment list of a version 2 to 40 runs from 6 to N - 7. -/
def Obligations.FunctionPatterns : Prop :=
  ∀ (cw : List Byte) (v : Nat) (l : BitVec 2) (m : BitVec 3) (t : Bool), 1 ≤ v → v ≤ 40 →
    let n := 4 * v + 17
    let g := build cw v l m t
    let ps := alignmentList v
    (∀ r c, r < 7 → c < 7 →
      let x := Colour.ofBit ((finderTemplate.getD r []).getD c false)
      g.get r c = x ∧ g.get (n - 7 + r) c = x ∧ g.get r (n - 7 + c) = x)
    ∧ (∀ k, k < 8 → g.get 7 k = .light ∧ g.get k 7 = .light ∧ g.get (n - 8) k = .light
        ∧ g.get (n - 8 + k) 7 = .light ∧ g.get 7 (n - 8 + k) = .light ∧ g.get k (n - 8) = .light)
    ∧ (∀ p q dr dc, p ∈ ps → q ∈ ps → ¬ (p = 6 ∧ q = 6) → ¬ (p = 6 ∧ q = n - 7) → ¬ (p = n - 7 ∧ q = 6) →
        dr < 5 → dc < 5 → g.get (p - 2 + dr) (q - 2 + dc) =
          Colour.ofBit ((alignmentTemplate.getD dr []).getD dc false))
    ∧ (∀ k, 8 ≤ k → k ≤ n - 8 →
        g.get k 6 = Colour.ofBit (decide (k % 2 = 0)) ∧ g.get 6 k = Colour.ofBit (decide (k % 2 = 0)))
    ∧ (if v = 1 then ps = [] else ps.head? = some 6 ∧ ps.getLast? = some (n - 7))

/-- R205, R206, R208, R209, R210, R215: in every build bit i of the format code stands at both its cells,
and for versions 7 and up bit i of the version code at both its cells; a trial build has them Light. -/
def Obligations.MetadataCells : Prop :=
  ∀ (cw : List Byte) (v : Nat) (l : BitVec 2) (m : BitVec 3) (t : Bool) (i r c : Nat), 1 ≤ v → v ≤ 40 →
    (FormatCellOf (4 * v + 17) i r c → (build cw v l m t).get r c =
      if t then .light else Colour.ofBit ((encodeFormatInfo (8 * l.toNat + m.toNat)).testBit i))
    ∧ (7 ≤ v → VersionCellOf (4 * v + 17) i r c → (build cw v l m t).get r c =
      if t then .light else Colour.ofBit ((encodeVersionInfo v).testBit i))

/-- R217: two builds that differ only in the trial flag differ only in the format and version cells. -/
def Obligations.TrialChangesOnlyMetadata : Prop :=
  ∀ (cw : List Byte) (v : Nat) (l : BitVec 2) (m : BitVec 3) (r c : Nat), 1 ≤ v → v ≤ 40 →
    (∀ i, ¬ FormatCellOf (4 * v + 17) i r c) → (7 ≤ v → ∀ i, ¬ VersionCellOf (4 * v + 17) i r c) →
    (build cw v l m true).get r c = (build cw v l m false).get r c

/-- R69, R211: data placement gives the k-th still-Unset cell of its order bit k of the codewords, MSB
first, or 0 once they are exhausted, XORed with the mask; a cell already set keeps its colour. The order is
`visitedCell`: column pairs from the right, column 6 skipped, the first sweep upward and the next ones in
turn, in each row the right cell first. -/
def Obligations.DataPlacementOrder : Prop :=
  ∀ (n : Nat) (cw : List Byte) (m : BitVec 3) (g : Grid), g.Square n → n % 2 = 1 → 9 ≤ n →
    let order := (List.range (n * (n - 1))).map (visitedCell n)
    (∀ k p, (order.filter (fun q => decide (g.get q.1 q.2 = .unset)))[k]? = some p →
      (placeData n cw m g).get p.1 p.2 = Colour.ofBit
        (xor (if k < 8 * cw.length then (cw.getD (k / 8) 0#8).getLsbD (7 - k % 8) else false)
          (maskfn m p.1 p.2)))
    ∧ (∀ r c, g.get r c ≠ .unset → (placeData n cw m g).get r c = g.get r c)
    ∧ zigzag n = order

/-- R239: MAT.SCORE completes whenever MSTATE is not EMPTY: RES0 to RES5 are the penalty, its four rules
and the dark count of the N by N corner, RES6 and RES7 are 0; nothing else changes. -/
def Obligations.MatScoreEffect : Prop :=
  decode 0x00000042#32 = .ok .matScore
  ∧ ∀ s : State,
      (∀ i, s.sym = some i →
        let n := 4 * i.version.toNat + 17
        let g := s.matrix n
        exec .matScore s = .next { s with
          res := #v[BitVec.ofNat 32 (penalty1 g n + penalty2 g n + penalty3 g n + penalty4 g n),
            BitVec.ofNat 32 (penalty1 g n), BitVec.ofNat 32 (penalty2 g n), BitVec.ofNat 32 (penalty3 g n),
            BitVec.ofNat 32 (penalty4 g n), BitVec.ofNat 32 (darkCount g n), 0#32, 0#32] }.asSucceeded)
      ∧ (s.sym = none → exec .matScore s = .next (s.asFailed 0x42 7#4))

/-- R233 to R237: the four penalty rules, each counted over sets of cells: a cell with more than 5 touching
cells of its colour adds 3 and what exceeds 5; a 2 by 2 block of one colour adds 3; a start of the 7-cell
run in a row or a column adds 40; the dark balance adds 10 times the nearest integer of
|20 dark - 10 N^2| / N^2. Their bounds, so that the penalty of a symbol fits 32 bits. -/
def Obligations.PenaltyRules : Prop :=
  ∀ (g : Grid) (n : Nat),
    let run : List Colour := [.dark, .light, .dark, .dark, .dark, .light, .dark]
    let num := ((20 * darkCount g n : Int) - 10 * (n * n : Nat)).natAbs
    (penalty1 g n = ∑ p ∈ cellsOf n,
        let same := ((cellsOf n).filter (fun q => Touch p q ∧ g.get q.1 q.2 = g.get p.1 p.2)).card
        if 5 < same then 3 + (same - 5) else 0)
    ∧ penalty2 g n = 3 * ((cellsOf n).filter (fun p => p.1 + 1 < n ∧ p.2 + 1 < n
        ∧ g.get p.1 p.2 = g.get (p.1 + 1) p.2 ∧ g.get p.1 p.2 = g.get p.1 (p.2 + 1)
        ∧ g.get p.1 p.2 = g.get (p.1 + 1) (p.2 + 1))).card
    ∧ penalty3 g n = 40 * (((cellsOf n).filter (fun p => p.2 + 7 ≤ n
          ∧ (List.range 7).map (fun k => g.get p.1 (p.2 + k)) = run)).card
        + ((cellsOf n).filter (fun p => p.1 + 7 ≤ n
          ∧ (List.range 7).map (fun k => g.get (p.1 + k) p.2) = run)).card)
    ∧ darkCount g n = ((cellsOf n).filter (fun p => g.get p.1 p.2 = .dark)).card
    ∧ (0 < n → ∃ k, penalty4 g n = 10 * k ∧ 2 * k * (n * n) ≤ 2 * num + n * n
        ∧ 2 * num + n * n < 2 * (k + 1) * (n * n))
    ∧ penalty1 g n ≤ 6 * (n * n) ∧ penalty2 g n ≤ 3 * ((n - 1) * (n - 1)) ∧ penalty3 g n ≤ 80 * (n * (n - 6))
    ∧ penalty4 g n ≤ 100
    ∧ penalty g n = penalty1 g n + penalty2 g n + penalty3 g n + penalty4 g n
    ∧ (n ≤ 177 → penalty g n < 2 ^ 32)

/-- R240, R241: MASK.SELECT completes whenever stage CW is valid: RESk is the penalty of the trial build
of mask k, MASKSEL the first mask of the smallest penalty, MAT is left unspecified and EMPTY (a fresh
draw, log entry 5); nothing else changes. -/
def Obligations.MaskSelectCompletes : Prop :=
  ∀ (s : State) (i : CwInfo), s.cw = some i →
    let n := 4 * i.version.toNat + 17
    let pen := fun k : Nat =>
      penalty (build (s.bufferBytes .cwbuf i.ncw.toNat) i.version.toNat i.level (BitVec.ofNat 3 k) true) n
    ∃ best, best < 8 ∧ (∀ k, k < 8 → pen best ≤ pen k) ∧ (∀ k, k < best → pen best < pen k)
      ∧ exec .maskSelect s = .next { s.asSucceeded with
          res := Vector.ofFn (fun k : Fin 8 => BitVec.ofNat 32 (pen k.val)),
          sel := some (BitVec.ofNat 3 best), sym := none,
          mat := [], matDraw := s.draws, draws := s.draws + 1 }

/-- R242: SYM.FINAL completes whenever stages SEL and CW are valid: MAT's corner is the final build with
the selected mask, MSTATE is FINAL; no RES register and nothing else changes. -/
def Obligations.SymFinalCompletes : Prop :=
  ∀ (s : State) (i : CwInfo) (m : BitVec 3), s.sel = some m → s.cw = some i →
    let n := 4 * i.version.toNat + 17
    let g := build (s.bufferBytes .cwbuf i.ncw.toNat) i.version.toNat i.level m false
    ∃ u, exec .symFinal s = .next u
      ∧ u = { s.asSucceeded with mat := u.mat, sym := some ⟨i.version, i.level, m, false⟩ }
      ∧ (∀ r c, r < n → c < n → u.matCell r c = g.get r c)
      ∧ ∀ r c, ¬ (r < n ∧ c < n) → u.matCell r c = s.matCell r c

/-- R253: SYM.ENCODE completes for a version 1 to 40 whose capacity holds the payload, with the result of
the four stage commands issued one by one: every stage valid and MSTATE FINAL. -/
def Obligations.SymEncodeIsFourCommands : Prop :=
  ∀ (s : State) (bs : List Block), rsBlocks s.version s.cfgLevel = .ok bs →
    segBits s.version s.payloadLen ≤ 8 * totalData bs →
    ∃ s1 s2 s3 s4, exec .segEncode s = .next s1 ∧ exec .cwBuild s1 = .next s2
      ∧ exec .maskSelect s2 = .next s3 ∧ exec .symFinal s3 = .next s4 ∧ exec .symEncode s = .next s4
      ∧ s4.err = false ∧ s4.seg.isSome = true ∧ s4.cw.isSome = true
      ∧ ∃ m, s4.sel = some m ∧ s4.sym = some ⟨s.cfgVersion, s.cfgLevel, m, false⟩

/-- R254: SYM.QUERY answers whether the cell at the signed coordinates ARG0, ARG1 is Dark, on a trial or
a final matrix; outside [0, N) it fails with IndexOutOfRange, with no matrix NotReady, and changes no
stage. -/
def Obligations.SymQueryEffect : Prop :=
  ∀ s : State,
    (∀ i, s.sym = some i →
      let n := 4 * i.version.toNat + 17
      let inside := 0 ≤ s.arg0.toInt ∧ s.arg0.toInt < n ∧ 0 ≤ s.arg1.toInt ∧ s.arg1.toInt < n
      (inside → exec .symQuery s = .next { s with
          res := s.res.set 0 (if s.matCell s.arg0.toInt.toNat s.arg1.toInt.toNat = Colour.dark then 1#32 else 0#32) }.asSucceeded)
      ∧ (¬ inside → exec .symQuery s = .next (s.asFailed 0x51 2#4)))
    ∧ (s.sym = none → exec .symQuery s = .next (s.asFailed 0x51 7#4))

/-- R270, R273, R279: a command whose required stage is not valid fails with NotReady, before any other
check, and a pipeline command then invalidates its own stage and the later ones. -/
def Obligations.StageRequired : Prop :=
  ∀ (s : State) (m : Nat) (t : Bool),
    (s.seg = none →
      exec .cwBuild s = .next ({ s with cw := none, sel := none, sym := none }.asFailed 0x23 7#4))
    ∧ (s.cw = none → exec (.matBuild m t) s = .next ({ s with sym := none }.asFailed 0x41 7#4)
        ∧ exec .maskSelect s = .next ({ s with sel := none, sym := none }.asFailed 0x43 7#4))
    ∧ (s.sel = none → exec .symFinal s = .next ({ s with sym := none }.asFailed 0x44 7#4))
    ∧ (s.sym = none → exec .matScore s = .next (s.asFailed 0x42 7#4)
        ∧ exec .symQuery s = .next (s.asFailed 0x51 7#4))

/-! ## Frames (10_state.md R35, R40; 60_exceptions.md R279) -/

/-- What no command changes, for every command: the host's registers, CMD, OVERRUN, the model's own
fields of the host's side; every byte outside the buffers the command stores to; the RES registers it
does not name; LR, unless it is a polynomial command; the stages, unless it is a pipeline command; MAT,
unless it is a build (R35, R37, R40, R42, R243). -/
def Obligations.CommandFrame : Prop :=
  ∀ (i : Instr) (s t : State), exec i s = .next t →
    (t.cmd = s.cmd ∧ t.overrun = s.overrun ∧ t.cfgVersion = s.cfgVersion ∧ t.cfgLevel = s.cfgLevel
      ∧ t.plen = s.plen ∧ t.arg0 = s.arg0 ∧ t.arg1 = s.arg1 ∧ t.la = s.la ∧ t.lb = s.lb
      ∧ t.wait = s.wait ∧ t.hostQ = s.hostQ ∧ t.replies = s.replies ∧ t.ramDraw = s.ramDraw)
    ∧ (∀ a, (∀ r ∈ storesTo i, ¬ (r.base ≤ a ∧ a < r.base + r.size)) → t.byteAt a = s.byteAt a)
    ∧ (∀ k : Fin 8, writesResBelow i ≤ k.val → t.res[k.val] = s.res[k.val])
    ∧ (storesTo i ≠ [.pr] → t.lr = s.lr)
    ∧ (stageOf i = none → t.seg = s.seg ∧ t.cw = s.cw ∧ t.sel = s.sel ∧ t.sym = s.sym)
    ∧ (writesMat i = false → t.mat = s.mat ∧ t.matDraw = s.matDraw ∧ t.draws = s.draws)

/-- R279, R283: a command that fails discards every write it made: the state is the one before it but for
the failure record and the invalidated stages of a pipeline command. -/
def Obligations.FailureDiscardsWrites : Prop :=
  ∀ (i : Instr) (s t : State), exec i s = .next t → t.err = true →
    ∃ (u : State) (d : Nat) (c : BitVec 4), 1 ≤ c.toNat ∧ c.toNat ≤ 8
      ∧ t = u.asFailed (i.opcode.toNat + 2 ^ 8 * (d % 2 ^ 24)) c
      ∧ u = (match stageOf i with
          | none => s
          | some .seg => { s with seg := none, cw := none, sel := none, sym := none }
          | some .cw => { s with cw := none, sel := none, sym := none }
          | some .sel => { s with sel := none, sym := none }
          | some .mat => { s with sym := none })

/-! ## Invariants every step keeps -/

/-- R41: every step, of host or core, keeps the stage invariants. -/
def Obligations.StagesKept : Prop := ∀ s t : State, s.StagesOk → step s = .next t → t.StagesOk

/-- R32, R33: every step keeps NDATA and NCW at the table's T and C of the latched version and level. -/
def Obligations.CountsKept : Prop := ∀ s t : State, s.CountsOk → step s = .next t → t.CountsOk

/-- R24, R25, R30, R270: every step keeps the failure record consistent and LR within PR. -/
def Obligations.RecordKept : Prop :=
  ∀ s t : State, s.StatusOk → s.LrOk → step s = .next t → t.StatusOk ∧ t.LrOk

/-- Every step keeps buffer memory in its canonical form, inside the buffer regions. -/
def Obligations.MemoryKept : Prop := ∀ s t : State, s.MemOk → step s = .next t → t.MemOk

/-- R39, R216: every step keeps MAT a square corner of the array, and a symbol's cells Light or Dark. -/
def Obligations.MatrixKept : Prop :=
  ∀ s t : State, s.StagesOk → s.MatOk → s.MatSquare → step s = .next t → t.MatOk ∧ t.MatSquare

/-- The state after reset meets every invariant. -/
def Obligations.ResetInvariants : Prop :=
  State.reset.StagesOk ∧ State.reset.CountsOk ∧ State.reset.StatusOk ∧ State.reset.LrOk
    ∧ State.reset.MemOk ∧ State.reset.MatOk ∧ State.reset.MatSquare
end

