-- ==== Sys2Proof/Laws/State.lean ====
section
/-! SUPPORT. What each update of State does to each field: one lemma a field, so that no later proof
unfolds a record update. -/

namespace Sys2Proof.Machine

variable (s : State)

/-! ### setRes -/

@[simp] theorem State.setRes_cmd (k : Fin 8) (v : Nat) : (s.setRes k v).cmd = s.cmd := rfl
@[simp] theorem State.setRes_seq (k : Fin 8) (v : Nat) : (s.setRes k v).seq = s.seq := rfl
@[simp] theorem State.setRes_wait (k : Fin 8) (v : Nat) : (s.setRes k v).wait = s.wait := rfl
@[simp] theorem State.setRes_done (k : Fin 8) (v : Nat) : (s.setRes k v).done = s.done := rfl
@[simp] theorem State.setRes_err (k : Fin 8) (v : Nat) : (s.setRes k v).err = s.err := rfl
@[simp] theorem State.setRes_overrun (k : Fin 8) (v : Nat) : (s.setRes k v).overrun = s.overrun := rfl
@[simp] theorem State.setRes_errcode (k : Fin 8) (v : Nat) : (s.setRes k v).errcode = s.errcode := rfl
@[simp] theorem State.setRes_errinfo (k : Fin 8) (v : Nat) : (s.setRes k v).errinfo = s.errinfo := rfl
@[simp] theorem State.setRes_cfgVersion (k : Fin 8) (v : Nat) : (s.setRes k v).cfgVersion = s.cfgVersion := rfl
@[simp] theorem State.setRes_cfgLevel (k : Fin 8) (v : Nat) : (s.setRes k v).cfgLevel = s.cfgLevel := rfl
@[simp] theorem State.setRes_plen (k : Fin 8) (v : Nat) : (s.setRes k v).plen = s.plen := rfl
@[simp] theorem State.setRes_arg0 (k : Fin 8) (v : Nat) : (s.setRes k v).arg0 = s.arg0 := rfl
@[simp] theorem State.setRes_arg1 (k : Fin 8) (v : Nat) : (s.setRes k v).arg1 = s.arg1 := rfl
@[simp] theorem State.setRes_la (k : Fin 8) (v : Nat) : (s.setRes k v).la = s.la := rfl
@[simp] theorem State.setRes_lb (k : Fin 8) (v : Nat) : (s.setRes k v).lb = s.lb := rfl
@[simp] theorem State.setRes_lr (k : Fin 8) (v : Nat) : (s.setRes k v).lr = s.lr := rfl
@[simp] theorem State.setRes_res (k : Fin 8) (v : Nat) : (s.setRes k v).res = s.res.set k.val (BitVec.ofNat 32 v) k.isLt := rfl
@[simp] theorem State.setRes_seg (k : Fin 8) (v : Nat) : (s.setRes k v).seg = s.seg := rfl
@[simp] theorem State.setRes_cw (k : Fin 8) (v : Nat) : (s.setRes k v).cw = s.cw := rfl
@[simp] theorem State.setRes_sel (k : Fin 8) (v : Nat) : (s.setRes k v).sel = s.sel := rfl
@[simp] theorem State.setRes_sym (k : Fin 8) (v : Nat) : (s.setRes k v).sym = s.sym := rfl
@[simp] theorem State.setRes_mem (k : Fin 8) (v : Nat) : (s.setRes k v).mem = s.mem := rfl
@[simp] theorem State.setRes_ramDraw (k : Fin 8) (v : Nat) : (s.setRes k v).ramDraw = s.ramDraw := rfl
@[simp] theorem State.setRes_mat (k : Fin 8) (v : Nat) : (s.setRes k v).mat = s.mat := rfl
@[simp] theorem State.setRes_matDraw (k : Fin 8) (v : Nat) : (s.setRes k v).matDraw = s.matDraw := rfl
@[simp] theorem State.setRes_draws (k : Fin 8) (v : Nat) : (s.setRes k v).draws = s.draws := rfl
@[simp] theorem State.setRes_hostQ (k : Fin 8) (v : Nat) : (s.setRes k v).hostQ = s.hostQ := rfl
@[simp] theorem State.setRes_replies (k : Fin 8) (v : Nat) : (s.setRes k v).replies = s.replies := rfl

/-! ### setAllRes -/

@[simp] theorem State.setAllRes_cmd (vs : List Nat) : (s.setAllRes vs).cmd = s.cmd := rfl
@[simp] theorem State.setAllRes_seq (vs : List Nat) : (s.setAllRes vs).seq = s.seq := rfl
@[simp] theorem State.setAllRes_wait (vs : List Nat) : (s.setAllRes vs).wait = s.wait := rfl
@[simp] theorem State.setAllRes_done (vs : List Nat) : (s.setAllRes vs).done = s.done := rfl
@[simp] theorem State.setAllRes_err (vs : List Nat) : (s.setAllRes vs).err = s.err := rfl
@[simp] theorem State.setAllRes_overrun (vs : List Nat) : (s.setAllRes vs).overrun = s.overrun := rfl
@[simp] theorem State.setAllRes_errcode (vs : List Nat) : (s.setAllRes vs).errcode = s.errcode := rfl
@[simp] theorem State.setAllRes_errinfo (vs : List Nat) : (s.setAllRes vs).errinfo = s.errinfo := rfl
@[simp] theorem State.setAllRes_cfgVersion (vs : List Nat) : (s.setAllRes vs).cfgVersion = s.cfgVersion := rfl
@[simp] theorem State.setAllRes_cfgLevel (vs : List Nat) : (s.setAllRes vs).cfgLevel = s.cfgLevel := rfl
@[simp] theorem State.setAllRes_plen (vs : List Nat) : (s.setAllRes vs).plen = s.plen := rfl
@[simp] theorem State.setAllRes_arg0 (vs : List Nat) : (s.setAllRes vs).arg0 = s.arg0 := rfl
@[simp] theorem State.setAllRes_arg1 (vs : List Nat) : (s.setAllRes vs).arg1 = s.arg1 := rfl
@[simp] theorem State.setAllRes_la (vs : List Nat) : (s.setAllRes vs).la = s.la := rfl
@[simp] theorem State.setAllRes_lb (vs : List Nat) : (s.setAllRes vs).lb = s.lb := rfl
@[simp] theorem State.setAllRes_lr (vs : List Nat) : (s.setAllRes vs).lr = s.lr := rfl
@[simp] theorem State.setAllRes_res (vs : List Nat) : (s.setAllRes vs).res = Vector.ofFn (fun k : Fin 8 => BitVec.ofNat 32 (vs.getD k.val 0)) := rfl
@[simp] theorem State.setAllRes_seg (vs : List Nat) : (s.setAllRes vs).seg = s.seg := rfl
@[simp] theorem State.setAllRes_cw (vs : List Nat) : (s.setAllRes vs).cw = s.cw := rfl
@[simp] theorem State.setAllRes_sel (vs : List Nat) : (s.setAllRes vs).sel = s.sel := rfl
@[simp] theorem State.setAllRes_sym (vs : List Nat) : (s.setAllRes vs).sym = s.sym := rfl
@[simp] theorem State.setAllRes_mem (vs : List Nat) : (s.setAllRes vs).mem = s.mem := rfl
@[simp] theorem State.setAllRes_ramDraw (vs : List Nat) : (s.setAllRes vs).ramDraw = s.ramDraw := rfl
@[simp] theorem State.setAllRes_mat (vs : List Nat) : (s.setAllRes vs).mat = s.mat := rfl
@[simp] theorem State.setAllRes_matDraw (vs : List Nat) : (s.setAllRes vs).matDraw = s.matDraw := rfl
@[simp] theorem State.setAllRes_draws (vs : List Nat) : (s.setAllRes vs).draws = s.draws := rfl
@[simp] theorem State.setAllRes_hostQ (vs : List Nat) : (s.setAllRes vs).hostQ = s.hostQ := rfl
@[simp] theorem State.setAllRes_replies (vs : List Nat) : (s.setAllRes vs).replies = s.replies := rfl

/-! ### writeBuffer -/

@[simp] theorem State.writeBuffer_cmd (r : Region) (bs : List Byte) : (s.writeBuffer r bs).cmd = s.cmd := rfl
@[simp] theorem State.writeBuffer_seq (r : Region) (bs : List Byte) : (s.writeBuffer r bs).seq = s.seq := rfl
@[simp] theorem State.writeBuffer_wait (r : Region) (bs : List Byte) : (s.writeBuffer r bs).wait = s.wait := rfl
@[simp] theorem State.writeBuffer_done (r : Region) (bs : List Byte) : (s.writeBuffer r bs).done = s.done := rfl
@[simp] theorem State.writeBuffer_err (r : Region) (bs : List Byte) : (s.writeBuffer r bs).err = s.err := rfl
@[simp] theorem State.writeBuffer_overrun (r : Region) (bs : List Byte) : (s.writeBuffer r bs).overrun = s.overrun := rfl
@[simp] theorem State.writeBuffer_errcode (r : Region) (bs : List Byte) : (s.writeBuffer r bs).errcode = s.errcode := rfl
@[simp] theorem State.writeBuffer_errinfo (r : Region) (bs : List Byte) : (s.writeBuffer r bs).errinfo = s.errinfo := rfl
@[simp] theorem State.writeBuffer_cfgVersion (r : Region) (bs : List Byte) : (s.writeBuffer r bs).cfgVersion = s.cfgVersion := rfl
@[simp] theorem State.writeBuffer_cfgLevel (r : Region) (bs : List Byte) : (s.writeBuffer r bs).cfgLevel = s.cfgLevel := rfl
@[simp] theorem State.writeBuffer_plen (r : Region) (bs : List Byte) : (s.writeBuffer r bs).plen = s.plen := rfl
@[simp] theorem State.writeBuffer_arg0 (r : Region) (bs : List Byte) : (s.writeBuffer r bs).arg0 = s.arg0 := rfl
@[simp] theorem State.writeBuffer_arg1 (r : Region) (bs : List Byte) : (s.writeBuffer r bs).arg1 = s.arg1 := rfl
@[simp] theorem State.writeBuffer_la (r : Region) (bs : List Byte) : (s.writeBuffer r bs).la = s.la := rfl
@[simp] theorem State.writeBuffer_lb (r : Region) (bs : List Byte) : (s.writeBuffer r bs).lb = s.lb := rfl
@[simp] theorem State.writeBuffer_lr (r : Region) (bs : List Byte) : (s.writeBuffer r bs).lr = s.lr := rfl
@[simp] theorem State.writeBuffer_res (r : Region) (bs : List Byte) : (s.writeBuffer r bs).res = s.res := rfl
@[simp] theorem State.writeBuffer_seg (r : Region) (bs : List Byte) : (s.writeBuffer r bs).seg = s.seg := rfl
@[simp] theorem State.writeBuffer_cw (r : Region) (bs : List Byte) : (s.writeBuffer r bs).cw = s.cw := rfl
@[simp] theorem State.writeBuffer_sel (r : Region) (bs : List Byte) : (s.writeBuffer r bs).sel = s.sel := rfl
@[simp] theorem State.writeBuffer_sym (r : Region) (bs : List Byte) : (s.writeBuffer r bs).sym = s.sym := rfl
@[simp] theorem State.writeBuffer_mem (r : Region) (bs : List Byte) : (s.writeBuffer r bs).mem = s.mem.write r.base ((List.range r.size).map (fun i => bs.getD i 0#8)) := rfl
@[simp] theorem State.writeBuffer_ramDraw (r : Region) (bs : List Byte) : (s.writeBuffer r bs).ramDraw = s.ramDraw := rfl
@[simp] theorem State.writeBuffer_mat (r : Region) (bs : List Byte) : (s.writeBuffer r bs).mat = s.mat := rfl
@[simp] theorem State.writeBuffer_matDraw (r : Region) (bs : List Byte) : (s.writeBuffer r bs).matDraw = s.matDraw := rfl
@[simp] theorem State.writeBuffer_draws (r : Region) (bs : List Byte) : (s.writeBuffer r bs).draws = s.draws := rfl
@[simp] theorem State.writeBuffer_hostQ (r : Region) (bs : List Byte) : (s.writeBuffer r bs).hostQ = s.hostQ := rfl
@[simp] theorem State.writeBuffer_replies (r : Region) (bs : List Byte) : (s.writeBuffer r bs).replies = s.replies := rfl

/-! ### writePoly -/

@[simp] theorem State.writePoly_cmd (p : List Byte) : (s.writePoly p).cmd = s.cmd := rfl
@[simp] theorem State.writePoly_seq (p : List Byte) : (s.writePoly p).seq = s.seq := rfl
@[simp] theorem State.writePoly_wait (p : List Byte) : (s.writePoly p).wait = s.wait := rfl
@[simp] theorem State.writePoly_done (p : List Byte) : (s.writePoly p).done = s.done := rfl
@[simp] theorem State.writePoly_err (p : List Byte) : (s.writePoly p).err = s.err := rfl
@[simp] theorem State.writePoly_overrun (p : List Byte) : (s.writePoly p).overrun = s.overrun := rfl
@[simp] theorem State.writePoly_errcode (p : List Byte) : (s.writePoly p).errcode = s.errcode := rfl
@[simp] theorem State.writePoly_errinfo (p : List Byte) : (s.writePoly p).errinfo = s.errinfo := rfl
@[simp] theorem State.writePoly_cfgVersion (p : List Byte) : (s.writePoly p).cfgVersion = s.cfgVersion := rfl
@[simp] theorem State.writePoly_cfgLevel (p : List Byte) : (s.writePoly p).cfgLevel = s.cfgLevel := rfl
@[simp] theorem State.writePoly_plen (p : List Byte) : (s.writePoly p).plen = s.plen := rfl
@[simp] theorem State.writePoly_arg0 (p : List Byte) : (s.writePoly p).arg0 = s.arg0 := rfl
@[simp] theorem State.writePoly_arg1 (p : List Byte) : (s.writePoly p).arg1 = s.arg1 := rfl
@[simp] theorem State.writePoly_la (p : List Byte) : (s.writePoly p).la = s.la := rfl
@[simp] theorem State.writePoly_lb (p : List Byte) : (s.writePoly p).lb = s.lb := rfl
@[simp] theorem State.writePoly_lr (p : List Byte) : (s.writePoly p).lr = BitVec.ofNat 9 p.length := rfl
@[simp] theorem State.writePoly_res (p : List Byte) : (s.writePoly p).res = s.res := rfl
@[simp] theorem State.writePoly_seg (p : List Byte) : (s.writePoly p).seg = s.seg := rfl
@[simp] theorem State.writePoly_cw (p : List Byte) : (s.writePoly p).cw = s.cw := rfl
@[simp] theorem State.writePoly_sel (p : List Byte) : (s.writePoly p).sel = s.sel := rfl
@[simp] theorem State.writePoly_sym (p : List Byte) : (s.writePoly p).sym = s.sym := rfl
@[simp] theorem State.writePoly_mem (p : List Byte) : (s.writePoly p).mem = (s.writeBuffer .pr p).mem := rfl
@[simp] theorem State.writePoly_ramDraw (p : List Byte) : (s.writePoly p).ramDraw = s.ramDraw := rfl
@[simp] theorem State.writePoly_mat (p : List Byte) : (s.writePoly p).mat = s.mat := rfl
@[simp] theorem State.writePoly_matDraw (p : List Byte) : (s.writePoly p).matDraw = s.matDraw := rfl
@[simp] theorem State.writePoly_draws (p : List Byte) : (s.writePoly p).draws = s.draws := rfl
@[simp] theorem State.writePoly_hostQ (p : List Byte) : (s.writePoly p).hostQ = s.hostQ := rfl
@[simp] theorem State.writePoly_replies (p : List Byte) : (s.writePoly p).replies = s.replies := rfl

/-! ### writeMat -/

@[simp] theorem State.writeMat_cmd (g : Grid) : (s.writeMat g).cmd = s.cmd := rfl
@[simp] theorem State.writeMat_seq (g : Grid) : (s.writeMat g).seq = s.seq := rfl
@[simp] theorem State.writeMat_wait (g : Grid) : (s.writeMat g).wait = s.wait := rfl
@[simp] theorem State.writeMat_done (g : Grid) : (s.writeMat g).done = s.done := rfl
@[simp] theorem State.writeMat_err (g : Grid) : (s.writeMat g).err = s.err := rfl
@[simp] theorem State.writeMat_overrun (g : Grid) : (s.writeMat g).overrun = s.overrun := rfl
@[simp] theorem State.writeMat_errcode (g : Grid) : (s.writeMat g).errcode = s.errcode := rfl
@[simp] theorem State.writeMat_errinfo (g : Grid) : (s.writeMat g).errinfo = s.errinfo := rfl
@[simp] theorem State.writeMat_cfgVersion (g : Grid) : (s.writeMat g).cfgVersion = s.cfgVersion := rfl
@[simp] theorem State.writeMat_cfgLevel (g : Grid) : (s.writeMat g).cfgLevel = s.cfgLevel := rfl
@[simp] theorem State.writeMat_plen (g : Grid) : (s.writeMat g).plen = s.plen := rfl
@[simp] theorem State.writeMat_arg0 (g : Grid) : (s.writeMat g).arg0 = s.arg0 := rfl
@[simp] theorem State.writeMat_arg1 (g : Grid) : (s.writeMat g).arg1 = s.arg1 := rfl
@[simp] theorem State.writeMat_la (g : Grid) : (s.writeMat g).la = s.la := rfl
@[simp] theorem State.writeMat_lb (g : Grid) : (s.writeMat g).lb = s.lb := rfl
@[simp] theorem State.writeMat_lr (g : Grid) : (s.writeMat g).lr = s.lr := rfl
@[simp] theorem State.writeMat_res (g : Grid) : (s.writeMat g).res = s.res := rfl
@[simp] theorem State.writeMat_seg (g : Grid) : (s.writeMat g).seg = s.seg := rfl
@[simp] theorem State.writeMat_cw (g : Grid) : (s.writeMat g).cw = s.cw := rfl
@[simp] theorem State.writeMat_sel (g : Grid) : (s.writeMat g).sel = s.sel := rfl
@[simp] theorem State.writeMat_sym (g : Grid) : (s.writeMat g).sym = s.sym := rfl
@[simp] theorem State.writeMat_mem (g : Grid) : (s.writeMat g).mem = s.mem := rfl
@[simp] theorem State.writeMat_ramDraw (g : Grid) : (s.writeMat g).ramDraw = s.ramDraw := rfl
@[simp] theorem State.writeMat_mat (g : Grid) : (s.writeMat g).mat = g.overlay s.mat := rfl
@[simp] theorem State.writeMat_matDraw (g : Grid) : (s.writeMat g).matDraw = s.matDraw := rfl
@[simp] theorem State.writeMat_draws (g : Grid) : (s.writeMat g).draws = s.draws := rfl
@[simp] theorem State.writeMat_hostQ (g : Grid) : (s.writeMat g).hostQ = s.hostQ := rfl
@[simp] theorem State.writeMat_replies (g : Grid) : (s.writeMat g).replies = s.replies := rfl

/-! ### scrambleMat -/

@[simp] theorem State.scrambleMat_cmd : (s.scrambleMat).cmd = s.cmd := rfl
@[simp] theorem State.scrambleMat_seq : (s.scrambleMat).seq = s.seq := rfl
@[simp] theorem State.scrambleMat_wait : (s.scrambleMat).wait = s.wait := rfl
@[simp] theorem State.scrambleMat_done : (s.scrambleMat).done = s.done := rfl
@[simp] theorem State.scrambleMat_err : (s.scrambleMat).err = s.err := rfl
@[simp] theorem State.scrambleMat_overrun : (s.scrambleMat).overrun = s.overrun := rfl
@[simp] theorem State.scrambleMat_errcode : (s.scrambleMat).errcode = s.errcode := rfl
@[simp] theorem State.scrambleMat_errinfo : (s.scrambleMat).errinfo = s.errinfo := rfl
@[simp] theorem State.scrambleMat_cfgVersion : (s.scrambleMat).cfgVersion = s.cfgVersion := rfl
@[simp] theorem State.scrambleMat_cfgLevel : (s.scrambleMat).cfgLevel = s.cfgLevel := rfl
@[simp] theorem State.scrambleMat_plen : (s.scrambleMat).plen = s.plen := rfl
@[simp] theorem State.scrambleMat_arg0 : (s.scrambleMat).arg0 = s.arg0 := rfl
@[simp] theorem State.scrambleMat_arg1 : (s.scrambleMat).arg1 = s.arg1 := rfl
@[simp] theorem State.scrambleMat_la : (s.scrambleMat).la = s.la := rfl
@[simp] theorem State.scrambleMat_lb : (s.scrambleMat).lb = s.lb := rfl
@[simp] theorem State.scrambleMat_lr : (s.scrambleMat).lr = s.lr := rfl
@[simp] theorem State.scrambleMat_res : (s.scrambleMat).res = s.res := rfl
@[simp] theorem State.scrambleMat_seg : (s.scrambleMat).seg = s.seg := rfl
@[simp] theorem State.scrambleMat_cw : (s.scrambleMat).cw = s.cw := rfl
@[simp] theorem State.scrambleMat_sel : (s.scrambleMat).sel = s.sel := rfl
@[simp] theorem State.scrambleMat_sym : (s.scrambleMat).sym = s.sym := rfl
@[simp] theorem State.scrambleMat_mem : (s.scrambleMat).mem = s.mem := rfl
@[simp] theorem State.scrambleMat_ramDraw : (s.scrambleMat).ramDraw = s.ramDraw := rfl
@[simp] theorem State.scrambleMat_mat : (s.scrambleMat).mat = [] := rfl
@[simp] theorem State.scrambleMat_matDraw : (s.scrambleMat).matDraw = s.draws := rfl
@[simp] theorem State.scrambleMat_draws : (s.scrambleMat).draws = s.draws + 1 := rfl
@[simp] theorem State.scrambleMat_hostQ : (s.scrambleMat).hostQ = s.hostQ := rfl
@[simp] theorem State.scrambleMat_replies : (s.scrambleMat).replies = s.replies := rfl

/-! ### buildMatrix -/

@[simp] theorem State.buildMatrix_cmd (i : CwInfo) (m : BitVec 3) (t : Bool) : (s.buildMatrix i m t).cmd = s.cmd := by unfold State.buildMatrix; rfl
@[simp] theorem State.buildMatrix_seq (i : CwInfo) (m : BitVec 3) (t : Bool) : (s.buildMatrix i m t).seq = s.seq := by unfold State.buildMatrix; rfl
@[simp] theorem State.buildMatrix_wait (i : CwInfo) (m : BitVec 3) (t : Bool) : (s.buildMatrix i m t).wait = s.wait := by unfold State.buildMatrix; rfl
@[simp] theorem State.buildMatrix_done (i : CwInfo) (m : BitVec 3) (t : Bool) : (s.buildMatrix i m t).done = s.done := by unfold State.buildMatrix; rfl
@[simp] theorem State.buildMatrix_err (i : CwInfo) (m : BitVec 3) (t : Bool) : (s.buildMatrix i m t).err = s.err := by unfold State.buildMatrix; rfl
@[simp] theorem State.buildMatrix_overrun (i : CwInfo) (m : BitVec 3) (t : Bool) : (s.buildMatrix i m t).overrun = s.overrun := by unfold State.buildMatrix; rfl
@[simp] theorem State.buildMatrix_errcode (i : CwInfo) (m : BitVec 3) (t : Bool) : (s.buildMatrix i m t).errcode = s.errcode := by unfold State.buildMatrix; rfl
@[simp] theorem State.buildMatrix_errinfo (i : CwInfo) (m : BitVec 3) (t : Bool) : (s.buildMatrix i m t).errinfo = s.errinfo := by unfold State.buildMatrix; rfl
@[simp] theorem State.buildMatrix_cfgVersion (i : CwInfo) (m : BitVec 3) (t : Bool) : (s.buildMatrix i m t).cfgVersion = s.cfgVersion := by unfold State.buildMatrix; rfl
@[simp] theorem State.buildMatrix_cfgLevel (i : CwInfo) (m : BitVec 3) (t : Bool) : (s.buildMatrix i m t).cfgLevel = s.cfgLevel := by unfold State.buildMatrix; rfl
@[simp] theorem State.buildMatrix_plen (i : CwInfo) (m : BitVec 3) (t : Bool) : (s.buildMatrix i m t).plen = s.plen := by unfold State.buildMatrix; rfl
@[simp] theorem State.buildMatrix_arg0 (i : CwInfo) (m : BitVec 3) (t : Bool) : (s.buildMatrix i m t).arg0 = s.arg0 := by unfold State.buildMatrix; rfl
@[simp] theorem State.buildMatrix_arg1 (i : CwInfo) (m : BitVec 3) (t : Bool) : (s.buildMatrix i m t).arg1 = s.arg1 := by unfold State.buildMatrix; rfl
@[simp] theorem State.buildMatrix_la (i : CwInfo) (m : BitVec 3) (t : Bool) : (s.buildMatrix i m t).la = s.la := by unfold State.buildMatrix; rfl
@[simp] theorem State.buildMatrix_lb (i : CwInfo) (m : BitVec 3) (t : Bool) : (s.buildMatrix i m t).lb = s.lb := by unfold State.buildMatrix; rfl
@[simp] theorem State.buildMatrix_lr (i : CwInfo) (m : BitVec 3) (t : Bool) : (s.buildMatrix i m t).lr = s.lr := by unfold State.buildMatrix; rfl
@[simp] theorem State.buildMatrix_res (i : CwInfo) (m : BitVec 3) (t : Bool) : (s.buildMatrix i m t).res = s.res := by unfold State.buildMatrix; rfl
@[simp] theorem State.buildMatrix_seg (i : CwInfo) (m : BitVec 3) (t : Bool) : (s.buildMatrix i m t).seg = s.seg := by unfold State.buildMatrix; rfl
@[simp] theorem State.buildMatrix_cw (i : CwInfo) (m : BitVec 3) (t : Bool) : (s.buildMatrix i m t).cw = s.cw := by unfold State.buildMatrix; rfl
@[simp] theorem State.buildMatrix_sel (i : CwInfo) (m : BitVec 3) (t : Bool) : (s.buildMatrix i m t).sel = s.sel := by unfold State.buildMatrix; rfl
@[simp] theorem State.buildMatrix_sym (i : CwInfo) (m : BitVec 3) (t : Bool) : (s.buildMatrix i m t).sym = some ⟨i.version, i.level, m, t⟩ := by unfold State.buildMatrix; rfl
@[simp] theorem State.buildMatrix_mem (i : CwInfo) (m : BitVec 3) (t : Bool) : (s.buildMatrix i m t).mem = s.mem := by unfold State.buildMatrix; rfl
@[simp] theorem State.buildMatrix_ramDraw (i : CwInfo) (m : BitVec 3) (t : Bool) : (s.buildMatrix i m t).ramDraw = s.ramDraw := by unfold State.buildMatrix; rfl
@[simp] theorem State.buildMatrix_mat (i : CwInfo) (m : BitVec 3) (t : Bool) : (s.buildMatrix i m t).mat = (build (s.codewords i) i.version.toNat i.level m t).overlay s.mat := by unfold State.buildMatrix; rfl
@[simp] theorem State.buildMatrix_matDraw (i : CwInfo) (m : BitVec 3) (t : Bool) : (s.buildMatrix i m t).matDraw = s.matDraw := by unfold State.buildMatrix; rfl
@[simp] theorem State.buildMatrix_draws (i : CwInfo) (m : BitVec 3) (t : Bool) : (s.buildMatrix i m t).draws = s.draws := by unfold State.buildMatrix; rfl
@[simp] theorem State.buildMatrix_hostQ (i : CwInfo) (m : BitVec 3) (t : Bool) : (s.buildMatrix i m t).hostQ = s.hostQ := by unfold State.buildMatrix; rfl
@[simp] theorem State.buildMatrix_replies (i : CwInfo) (m : BitVec 3) (t : Bool) : (s.buildMatrix i m t).replies = s.replies := by unfold State.buildMatrix; rfl

/-! ### onSuccess -/

@[simp] theorem State.onSuccess_cmd : (s.onSuccess).cmd = s.cmd := rfl
@[simp] theorem State.onSuccess_seq : (s.onSuccess).seq = .idle := rfl
@[simp] theorem State.onSuccess_wait : (s.onSuccess).wait = s.wait := rfl
@[simp] theorem State.onSuccess_done : (s.onSuccess).done = true := rfl
@[simp] theorem State.onSuccess_err : (s.onSuccess).err = false := rfl
@[simp] theorem State.onSuccess_overrun : (s.onSuccess).overrun = s.overrun := rfl
@[simp] theorem State.onSuccess_errcode : (s.onSuccess).errcode = 0#4 := rfl
@[simp] theorem State.onSuccess_errinfo : (s.onSuccess).errinfo = s.errinfo := rfl
@[simp] theorem State.onSuccess_cfgVersion : (s.onSuccess).cfgVersion = s.cfgVersion := rfl
@[simp] theorem State.onSuccess_cfgLevel : (s.onSuccess).cfgLevel = s.cfgLevel := rfl
@[simp] theorem State.onSuccess_plen : (s.onSuccess).plen = s.plen := rfl
@[simp] theorem State.onSuccess_arg0 : (s.onSuccess).arg0 = s.arg0 := rfl
@[simp] theorem State.onSuccess_arg1 : (s.onSuccess).arg1 = s.arg1 := rfl
@[simp] theorem State.onSuccess_la : (s.onSuccess).la = s.la := rfl
@[simp] theorem State.onSuccess_lb : (s.onSuccess).lb = s.lb := rfl
@[simp] theorem State.onSuccess_lr : (s.onSuccess).lr = s.lr := rfl
@[simp] theorem State.onSuccess_res : (s.onSuccess).res = s.res := rfl
@[simp] theorem State.onSuccess_seg : (s.onSuccess).seg = s.seg := rfl
@[simp] theorem State.onSuccess_cw : (s.onSuccess).cw = s.cw := rfl
@[simp] theorem State.onSuccess_sel : (s.onSuccess).sel = s.sel := rfl
@[simp] theorem State.onSuccess_sym : (s.onSuccess).sym = s.sym := rfl
@[simp] theorem State.onSuccess_mem : (s.onSuccess).mem = s.mem := rfl
@[simp] theorem State.onSuccess_ramDraw : (s.onSuccess).ramDraw = s.ramDraw := rfl
@[simp] theorem State.onSuccess_mat : (s.onSuccess).mat = s.mat := rfl
@[simp] theorem State.onSuccess_matDraw : (s.onSuccess).matDraw = s.matDraw := rfl
@[simp] theorem State.onSuccess_draws : (s.onSuccess).draws = s.draws := rfl
@[simp] theorem State.onSuccess_hostQ : (s.onSuccess).hostQ = s.hostQ := rfl
@[simp] theorem State.onSuccess_replies : (s.onSuccess).replies = s.replies := rfl

/-! ### accept -/

@[simp] theorem State.accept_cmd (v : Word) : (s.accept v).cmd = v := rfl
@[simp] theorem State.accept_seq (v : Word) : (s.accept v).seq = .busy := rfl
@[simp] theorem State.accept_wait (v : Word) : (s.accept v).wait = Config.latency v s.draws := rfl
@[simp] theorem State.accept_done (v : Word) : (s.accept v).done = false := rfl
@[simp] theorem State.accept_err (v : Word) : (s.accept v).err = false := rfl
@[simp] theorem State.accept_overrun (v : Word) : (s.accept v).overrun = s.overrun := rfl
@[simp] theorem State.accept_errcode (v : Word) : (s.accept v).errcode = 0#4 := rfl
@[simp] theorem State.accept_errinfo (v : Word) : (s.accept v).errinfo = 0#32 := rfl
@[simp] theorem State.accept_cfgVersion (v : Word) : (s.accept v).cfgVersion = s.cfgVersion := rfl
@[simp] theorem State.accept_cfgLevel (v : Word) : (s.accept v).cfgLevel = s.cfgLevel := rfl
@[simp] theorem State.accept_plen (v : Word) : (s.accept v).plen = s.plen := rfl
@[simp] theorem State.accept_arg0 (v : Word) : (s.accept v).arg0 = s.arg0 := rfl
@[simp] theorem State.accept_arg1 (v : Word) : (s.accept v).arg1 = s.arg1 := rfl
@[simp] theorem State.accept_la (v : Word) : (s.accept v).la = s.la := rfl
@[simp] theorem State.accept_lb (v : Word) : (s.accept v).lb = s.lb := rfl
@[simp] theorem State.accept_lr (v : Word) : (s.accept v).lr = s.lr := rfl
@[simp] theorem State.accept_res (v : Word) : (s.accept v).res = s.res := rfl
@[simp] theorem State.accept_seg (v : Word) : (s.accept v).seg = s.seg := rfl
@[simp] theorem State.accept_cw (v : Word) : (s.accept v).cw = s.cw := rfl
@[simp] theorem State.accept_sel (v : Word) : (s.accept v).sel = s.sel := rfl
@[simp] theorem State.accept_sym (v : Word) : (s.accept v).sym = s.sym := rfl
@[simp] theorem State.accept_mem (v : Word) : (s.accept v).mem = s.mem := rfl
@[simp] theorem State.accept_ramDraw (v : Word) : (s.accept v).ramDraw = s.ramDraw := rfl
@[simp] theorem State.accept_mat (v : Word) : (s.accept v).mat = s.mat := rfl
@[simp] theorem State.accept_matDraw (v : Word) : (s.accept v).matDraw = s.matDraw := rfl
@[simp] theorem State.accept_draws (v : Word) : (s.accept v).draws = s.draws + 1 := rfl
@[simp] theorem State.accept_hostQ (v : Word) : (s.accept v).hostQ = s.hostQ := rfl
@[simp] theorem State.accept_replies (v : Word) : (s.accept v).replies = s.replies := rfl

/-! ### dropWrite -/

@[simp] theorem State.dropWrite_cmd : (s.dropWrite).cmd = s.cmd := rfl
@[simp] theorem State.dropWrite_seq : (s.dropWrite).seq = s.seq := rfl
@[simp] theorem State.dropWrite_wait : (s.dropWrite).wait = s.wait := rfl
@[simp] theorem State.dropWrite_done : (s.dropWrite).done = s.done := rfl
@[simp] theorem State.dropWrite_err : (s.dropWrite).err = s.err := rfl
@[simp] theorem State.dropWrite_overrun : (s.dropWrite).overrun = true := rfl
@[simp] theorem State.dropWrite_errcode : (s.dropWrite).errcode = s.errcode := rfl
@[simp] theorem State.dropWrite_errinfo : (s.dropWrite).errinfo = s.errinfo := rfl
@[simp] theorem State.dropWrite_cfgVersion : (s.dropWrite).cfgVersion = s.cfgVersion := rfl
@[simp] theorem State.dropWrite_cfgLevel : (s.dropWrite).cfgLevel = s.cfgLevel := rfl
@[simp] theorem State.dropWrite_plen : (s.dropWrite).plen = s.plen := rfl
@[simp] theorem State.dropWrite_arg0 : (s.dropWrite).arg0 = s.arg0 := rfl
@[simp] theorem State.dropWrite_arg1 : (s.dropWrite).arg1 = s.arg1 := rfl
@[simp] theorem State.dropWrite_la : (s.dropWrite).la = s.la := rfl
@[simp] theorem State.dropWrite_lb : (s.dropWrite).lb = s.lb := rfl
@[simp] theorem State.dropWrite_lr : (s.dropWrite).lr = s.lr := rfl
@[simp] theorem State.dropWrite_res : (s.dropWrite).res = s.res := rfl
@[simp] theorem State.dropWrite_seg : (s.dropWrite).seg = s.seg := rfl
@[simp] theorem State.dropWrite_cw : (s.dropWrite).cw = s.cw := rfl
@[simp] theorem State.dropWrite_sel : (s.dropWrite).sel = s.sel := rfl
@[simp] theorem State.dropWrite_sym : (s.dropWrite).sym = s.sym := rfl
@[simp] theorem State.dropWrite_mem : (s.dropWrite).mem = s.mem := rfl
@[simp] theorem State.dropWrite_ramDraw : (s.dropWrite).ramDraw = s.ramDraw := rfl
@[simp] theorem State.dropWrite_mat : (s.dropWrite).mat = s.mat := rfl
@[simp] theorem State.dropWrite_matDraw : (s.dropWrite).matDraw = s.matDraw := rfl
@[simp] theorem State.dropWrite_draws : (s.dropWrite).draws = s.draws := rfl
@[simp] theorem State.dropWrite_hostQ : (s.dropWrite).hostQ = s.hostQ := rfl
@[simp] theorem State.dropWrite_replies : (s.dropWrite).replies = s.replies := rfl

/-! ### reply -/

@[simp] theorem State.reply_cmd (v : Word) : (s.reply v).cmd = s.cmd := rfl
@[simp] theorem State.reply_seq (v : Word) : (s.reply v).seq = s.seq := rfl
@[simp] theorem State.reply_wait (v : Word) : (s.reply v).wait = s.wait := rfl
@[simp] theorem State.reply_done (v : Word) : (s.reply v).done = s.done := rfl
@[simp] theorem State.reply_err (v : Word) : (s.reply v).err = s.err := rfl
@[simp] theorem State.reply_overrun (v : Word) : (s.reply v).overrun = s.overrun := rfl
@[simp] theorem State.reply_errcode (v : Word) : (s.reply v).errcode = s.errcode := rfl
@[simp] theorem State.reply_errinfo (v : Word) : (s.reply v).errinfo = s.errinfo := rfl
@[simp] theorem State.reply_cfgVersion (v : Word) : (s.reply v).cfgVersion = s.cfgVersion := rfl
@[simp] theorem State.reply_cfgLevel (v : Word) : (s.reply v).cfgLevel = s.cfgLevel := rfl
@[simp] theorem State.reply_plen (v : Word) : (s.reply v).plen = s.plen := rfl
@[simp] theorem State.reply_arg0 (v : Word) : (s.reply v).arg0 = s.arg0 := rfl
@[simp] theorem State.reply_arg1 (v : Word) : (s.reply v).arg1 = s.arg1 := rfl
@[simp] theorem State.reply_la (v : Word) : (s.reply v).la = s.la := rfl
@[simp] theorem State.reply_lb (v : Word) : (s.reply v).lb = s.lb := rfl
@[simp] theorem State.reply_lr (v : Word) : (s.reply v).lr = s.lr := rfl
@[simp] theorem State.reply_res (v : Word) : (s.reply v).res = s.res := rfl
@[simp] theorem State.reply_seg (v : Word) : (s.reply v).seg = s.seg := rfl
@[simp] theorem State.reply_cw (v : Word) : (s.reply v).cw = s.cw := rfl
@[simp] theorem State.reply_sel (v : Word) : (s.reply v).sel = s.sel := rfl
@[simp] theorem State.reply_sym (v : Word) : (s.reply v).sym = s.sym := rfl
@[simp] theorem State.reply_mem (v : Word) : (s.reply v).mem = s.mem := rfl
@[simp] theorem State.reply_ramDraw (v : Word) : (s.reply v).ramDraw = s.ramDraw := rfl
@[simp] theorem State.reply_mat (v : Word) : (s.reply v).mat = s.mat := rfl
@[simp] theorem State.reply_matDraw (v : Word) : (s.reply v).matDraw = s.matDraw := rfl
@[simp] theorem State.reply_draws (v : Word) : (s.reply v).draws = s.draws := rfl
@[simp] theorem State.reply_hostQ (v : Word) : (s.reply v).hostQ = s.hostQ := rfl
@[simp] theorem State.reply_replies (v : Word) : (s.reply v).replies = v :: s.replies := rfl

/-! ### invalidate -/

@[simp] theorem State.invalidate_cmd (st : Stage) : (s.invalidate st).cmd = s.cmd := by cases st <;> rfl
@[simp] theorem State.invalidate_seq (st : Stage) : (s.invalidate st).seq = s.seq := by cases st <;> rfl
@[simp] theorem State.invalidate_wait (st : Stage) : (s.invalidate st).wait = s.wait := by cases st <;> rfl
@[simp] theorem State.invalidate_done (st : Stage) : (s.invalidate st).done = s.done := by cases st <;> rfl
@[simp] theorem State.invalidate_err (st : Stage) : (s.invalidate st).err = s.err := by cases st <;> rfl
@[simp] theorem State.invalidate_overrun (st : Stage) : (s.invalidate st).overrun = s.overrun := by cases st <;> rfl
@[simp] theorem State.invalidate_errcode (st : Stage) : (s.invalidate st).errcode = s.errcode := by cases st <;> rfl
@[simp] theorem State.invalidate_errinfo (st : Stage) : (s.invalidate st).errinfo = s.errinfo := by cases st <;> rfl
@[simp] theorem State.invalidate_cfgVersion (st : Stage) : (s.invalidate st).cfgVersion = s.cfgVersion := by cases st <;> rfl
@[simp] theorem State.invalidate_cfgLevel (st : Stage) : (s.invalidate st).cfgLevel = s.cfgLevel := by cases st <;> rfl
@[simp] theorem State.invalidate_plen (st : Stage) : (s.invalidate st).plen = s.plen := by cases st <;> rfl
@[simp] theorem State.invalidate_arg0 (st : Stage) : (s.invalidate st).arg0 = s.arg0 := by cases st <;> rfl
@[simp] theorem State.invalidate_arg1 (st : Stage) : (s.invalidate st).arg1 = s.arg1 := by cases st <;> rfl
@[simp] theorem State.invalidate_la (st : Stage) : (s.invalidate st).la = s.la := by cases st <;> rfl
@[simp] theorem State.invalidate_lb (st : Stage) : (s.invalidate st).lb = s.lb := by cases st <;> rfl
@[simp] theorem State.invalidate_lr (st : Stage) : (s.invalidate st).lr = s.lr := by cases st <;> rfl
@[simp] theorem State.invalidate_res (st : Stage) : (s.invalidate st).res = s.res := by cases st <;> rfl
@[simp] theorem State.invalidate_mem (st : Stage) : (s.invalidate st).mem = s.mem := by cases st <;> rfl
@[simp] theorem State.invalidate_ramDraw (st : Stage) : (s.invalidate st).ramDraw = s.ramDraw := by cases st <;> rfl
@[simp] theorem State.invalidate_mat (st : Stage) : (s.invalidate st).mat = s.mat := by cases st <;> rfl
@[simp] theorem State.invalidate_matDraw (st : Stage) : (s.invalidate st).matDraw = s.matDraw := by cases st <;> rfl
@[simp] theorem State.invalidate_draws (st : Stage) : (s.invalidate st).draws = s.draws := by cases st <;> rfl
@[simp] theorem State.invalidate_hostQ (st : Stage) : (s.invalidate st).hostQ = s.hostQ := by cases st <;> rfl
@[simp] theorem State.invalidate_replies (st : Stage) : (s.invalidate st).replies = s.replies := by cases st <;> rfl
@[simp] theorem State.invalidate_seg_seg : (s.invalidate .seg).seg = none := rfl
@[simp] theorem State.invalidate_seg_cw : (s.invalidate .seg).cw = none := rfl
@[simp] theorem State.invalidate_seg_sel : (s.invalidate .seg).sel = none := rfl
@[simp] theorem State.invalidate_seg_sym : (s.invalidate .seg).sym = none := rfl
@[simp] theorem State.invalidate_cw_seg : (s.invalidate .cw).seg = s.seg := rfl
@[simp] theorem State.invalidate_cw_cw : (s.invalidate .cw).cw = none := rfl
@[simp] theorem State.invalidate_cw_sel : (s.invalidate .cw).sel = none := rfl
@[simp] theorem State.invalidate_cw_sym : (s.invalidate .cw).sym = none := rfl
@[simp] theorem State.invalidate_sel_seg : (s.invalidate .sel).seg = s.seg := rfl
@[simp] theorem State.invalidate_sel_cw : (s.invalidate .sel).cw = s.cw := rfl
@[simp] theorem State.invalidate_sel_sel : (s.invalidate .sel).sel = none := rfl
@[simp] theorem State.invalidate_sel_sym : (s.invalidate .sel).sym = none := rfl
@[simp] theorem State.invalidate_mat_seg : (s.invalidate .mat).seg = s.seg := rfl
@[simp] theorem State.invalidate_mat_cw : (s.invalidate .mat).cw = s.cw := rfl
@[simp] theorem State.invalidate_mat_sel : (s.invalidate .mat).sel = s.sel := rfl
@[simp] theorem State.invalidate_mat_sym : (s.invalidate .mat).sym = none := rfl

/-! ### invalidateFor and onFailure -/

@[simp] theorem State.invalidateFor_none : s.invalidateFor none = s := rfl
@[simp] theorem State.invalidateFor_some (st : Stage) : s.invalidateFor (some st) = s.invalidate st := rfl
@[simp] theorem State.invalidateFor_cmd (st : Option Stage) : (s.invalidateFor st).cmd = s.cmd := by cases st; exacts [rfl, State.invalidate_cmd s _]
@[simp] theorem State.invalidateFor_seq (st : Option Stage) : (s.invalidateFor st).seq = s.seq := by cases st; exacts [rfl, State.invalidate_seq s _]
@[simp] theorem State.invalidateFor_wait (st : Option Stage) : (s.invalidateFor st).wait = s.wait := by cases st; exacts [rfl, State.invalidate_wait s _]
@[simp] theorem State.invalidateFor_done (st : Option Stage) : (s.invalidateFor st).done = s.done := by cases st; exacts [rfl, State.invalidate_done s _]
@[simp] theorem State.invalidateFor_err (st : Option Stage) : (s.invalidateFor st).err = s.err := by cases st; exacts [rfl, State.invalidate_err s _]
@[simp] theorem State.invalidateFor_overrun (st : Option Stage) : (s.invalidateFor st).overrun = s.overrun := by cases st; exacts [rfl, State.invalidate_overrun s _]
@[simp] theorem State.invalidateFor_errcode (st : Option Stage) : (s.invalidateFor st).errcode = s.errcode := by cases st; exacts [rfl, State.invalidate_errcode s _]
@[simp] theorem State.invalidateFor_errinfo (st : Option Stage) : (s.invalidateFor st).errinfo = s.errinfo := by cases st; exacts [rfl, State.invalidate_errinfo s _]
@[simp] theorem State.invalidateFor_cfgVersion (st : Option Stage) : (s.invalidateFor st).cfgVersion = s.cfgVersion := by cases st; exacts [rfl, State.invalidate_cfgVersion s _]
@[simp] theorem State.invalidateFor_cfgLevel (st : Option Stage) : (s.invalidateFor st).cfgLevel = s.cfgLevel := by cases st; exacts [rfl, State.invalidate_cfgLevel s _]
@[simp] theorem State.invalidateFor_plen (st : Option Stage) : (s.invalidateFor st).plen = s.plen := by cases st; exacts [rfl, State.invalidate_plen s _]
@[simp] theorem State.invalidateFor_arg0 (st : Option Stage) : (s.invalidateFor st).arg0 = s.arg0 := by cases st; exacts [rfl, State.invalidate_arg0 s _]
@[simp] theorem State.invalidateFor_arg1 (st : Option Stage) : (s.invalidateFor st).arg1 = s.arg1 := by cases st; exacts [rfl, State.invalidate_arg1 s _]
@[simp] theorem State.invalidateFor_la (st : Option Stage) : (s.invalidateFor st).la = s.la := by cases st; exacts [rfl, State.invalidate_la s _]
@[simp] theorem State.invalidateFor_lb (st : Option Stage) : (s.invalidateFor st).lb = s.lb := by cases st; exacts [rfl, State.invalidate_lb s _]
@[simp] theorem State.invalidateFor_lr (st : Option Stage) : (s.invalidateFor st).lr = s.lr := by cases st; exacts [rfl, State.invalidate_lr s _]
@[simp] theorem State.invalidateFor_res (st : Option Stage) : (s.invalidateFor st).res = s.res := by cases st; exacts [rfl, State.invalidate_res s _]
@[simp] theorem State.invalidateFor_mem (st : Option Stage) : (s.invalidateFor st).mem = s.mem := by cases st; exacts [rfl, State.invalidate_mem s _]
@[simp] theorem State.invalidateFor_ramDraw (st : Option Stage) : (s.invalidateFor st).ramDraw = s.ramDraw := by cases st; exacts [rfl, State.invalidate_ramDraw s _]
@[simp] theorem State.invalidateFor_mat (st : Option Stage) : (s.invalidateFor st).mat = s.mat := by cases st; exacts [rfl, State.invalidate_mat s _]
@[simp] theorem State.invalidateFor_matDraw (st : Option Stage) : (s.invalidateFor st).matDraw = s.matDraw := by cases st; exacts [rfl, State.invalidate_matDraw s _]
@[simp] theorem State.invalidateFor_draws (st : Option Stage) : (s.invalidateFor st).draws = s.draws := by cases st; exacts [rfl, State.invalidate_draws s _]
@[simp] theorem State.invalidateFor_hostQ (st : Option Stage) : (s.invalidateFor st).hostQ = s.hostQ := by cases st; exacts [rfl, State.invalidate_hostQ s _]
@[simp] theorem State.invalidateFor_replies (st : Option Stage) : (s.invalidateFor st).replies = s.replies := by cases st; exacts [rfl, State.invalidate_replies s _]
@[simp] theorem State.onFailure_cmd (op : Byte) (st : Option Stage) (f : Failure) : (s.onFailure op st f).cmd = s.cmd := State.invalidateFor_cmd s st
@[simp] theorem State.onFailure_seq (op : Byte) (st : Option Stage) (f : Failure) : (s.onFailure op st f).seq = .idle := rfl
@[simp] theorem State.onFailure_wait (op : Byte) (st : Option Stage) (f : Failure) : (s.onFailure op st f).wait = s.wait := State.invalidateFor_wait s st
@[simp] theorem State.onFailure_done (op : Byte) (st : Option Stage) (f : Failure) : (s.onFailure op st f).done = true := rfl
@[simp] theorem State.onFailure_err (op : Byte) (st : Option Stage) (f : Failure) : (s.onFailure op st f).err = true := rfl
@[simp] theorem State.onFailure_overrun (op : Byte) (st : Option Stage) (f : Failure) : (s.onFailure op st f).overrun = s.overrun := State.invalidateFor_overrun s st
@[simp] theorem State.onFailure_errcode (op : Byte) (st : Option Stage) (f : Failure) : (s.onFailure op st f).errcode = f.code.code := rfl
@[simp] theorem State.onFailure_errinfo (op : Byte) (st : Option Stage) (f : Failure) : (s.onFailure op st f).errinfo = errinfoWord op f.detail := rfl
@[simp] theorem State.onFailure_cfgVersion (op : Byte) (st : Option Stage) (f : Failure) : (s.onFailure op st f).cfgVersion = s.cfgVersion := State.invalidateFor_cfgVersion s st
@[simp] theorem State.onFailure_cfgLevel (op : Byte) (st : Option Stage) (f : Failure) : (s.onFailure op st f).cfgLevel = s.cfgLevel := State.invalidateFor_cfgLevel s st
@[simp] theorem State.onFailure_plen (op : Byte) (st : Option Stage) (f : Failure) : (s.onFailure op st f).plen = s.plen := State.invalidateFor_plen s st
@[simp] theorem State.onFailure_arg0 (op : Byte) (st : Option Stage) (f : Failure) : (s.onFailure op st f).arg0 = s.arg0 := State.invalidateFor_arg0 s st
@[simp] theorem State.onFailure_arg1 (op : Byte) (st : Option Stage) (f : Failure) : (s.onFailure op st f).arg1 = s.arg1 := State.invalidateFor_arg1 s st
@[simp] theorem State.onFailure_la (op : Byte) (st : Option Stage) (f : Failure) : (s.onFailure op st f).la = s.la := State.invalidateFor_la s st
@[simp] theorem State.onFailure_lb (op : Byte) (st : Option Stage) (f : Failure) : (s.onFailure op st f).lb = s.lb := State.invalidateFor_lb s st
@[simp] theorem State.onFailure_lr (op : Byte) (st : Option Stage) (f : Failure) : (s.onFailure op st f).lr = s.lr := State.invalidateFor_lr s st
@[simp] theorem State.onFailure_res (op : Byte) (st : Option Stage) (f : Failure) : (s.onFailure op st f).res = s.res := State.invalidateFor_res s st
@[simp] theorem State.onFailure_seg (op : Byte) (st : Option Stage) (f : Failure) : (s.onFailure op st f).seg = (s.invalidateFor st).seg := rfl
@[simp] theorem State.onFailure_cw (op : Byte) (st : Option Stage) (f : Failure) : (s.onFailure op st f).cw = (s.invalidateFor st).cw := rfl
@[simp] theorem State.onFailure_sel (op : Byte) (st : Option Stage) (f : Failure) : (s.onFailure op st f).sel = (s.invalidateFor st).sel := rfl
@[simp] theorem State.onFailure_sym (op : Byte) (st : Option Stage) (f : Failure) : (s.onFailure op st f).sym = (s.invalidateFor st).sym := rfl
@[simp] theorem State.onFailure_mem (op : Byte) (st : Option Stage) (f : Failure) : (s.onFailure op st f).mem = s.mem := State.invalidateFor_mem s st
@[simp] theorem State.onFailure_ramDraw (op : Byte) (st : Option Stage) (f : Failure) : (s.onFailure op st f).ramDraw = s.ramDraw := State.invalidateFor_ramDraw s st
@[simp] theorem State.onFailure_mat (op : Byte) (st : Option Stage) (f : Failure) : (s.onFailure op st f).mat = s.mat := State.invalidateFor_mat s st
@[simp] theorem State.onFailure_matDraw (op : Byte) (st : Option Stage) (f : Failure) : (s.onFailure op st f).matDraw = s.matDraw := State.invalidateFor_matDraw s st
@[simp] theorem State.onFailure_draws (op : Byte) (st : Option Stage) (f : Failure) : (s.onFailure op st f).draws = s.draws := State.invalidateFor_draws s st
@[simp] theorem State.onFailure_hostQ (op : Byte) (st : Option Stage) (f : Failure) : (s.onFailure op st f).hostQ = s.hostQ := State.invalidateFor_hostQ s st
@[simp] theorem State.onFailure_replies (op : Byte) (st : Option Stage) (f : Failure) : (s.onFailure op st f).replies = s.replies := State.invalidateFor_replies s st

/-! ### bytes and cells read through an update -/

@[simp] theorem State.setRes_byteAt (k : Fin 8) (v : Nat) (a : Nat) : (s.setRes k v).byteAt a = s.byteAt a := rfl
@[simp] theorem State.setRes_matCell (k : Fin 8) (v : Nat) (row col : Nat) : (s.setRes k v).matCell row col = s.matCell row col := rfl
@[simp] theorem State.setRes_bufferBytes (k : Fin 8) (v : Nat) (reg : Region) (n : Nat) : (s.setRes k v).bufferBytes reg n = s.bufferBytes reg n := rfl
@[simp] theorem State.setAllRes_byteAt (vs : List Nat) (a : Nat) : (s.setAllRes vs).byteAt a = s.byteAt a := rfl
@[simp] theorem State.setAllRes_matCell (vs : List Nat) (row col : Nat) : (s.setAllRes vs).matCell row col = s.matCell row col := rfl
@[simp] theorem State.setAllRes_bufferBytes (vs : List Nat) (reg : Region) (n : Nat) : (s.setAllRes vs).bufferBytes reg n = s.bufferBytes reg n := rfl
@[simp] theorem State.writeBuffer_matCell (r : Region) (bs : List Byte) (row col : Nat) : (s.writeBuffer r bs).matCell row col = s.matCell row col := rfl
@[simp] theorem State.writePoly_matCell (p : List Byte) (row col : Nat) : (s.writePoly p).matCell row col = s.matCell row col := rfl
@[simp] theorem State.writeMat_byteAt (g : Grid) (a : Nat) : (s.writeMat g).byteAt a = s.byteAt a := rfl
@[simp] theorem State.writeMat_bufferBytes (g : Grid) (reg : Region) (n : Nat) : (s.writeMat g).bufferBytes reg n = s.bufferBytes reg n := rfl
@[simp] theorem State.scrambleMat_byteAt (a : Nat) : (s.scrambleMat).byteAt a = s.byteAt a := rfl
@[simp] theorem State.scrambleMat_bufferBytes (reg : Region) (n : Nat) : (s.scrambleMat).bufferBytes reg n = s.bufferBytes reg n := rfl
@[simp] theorem State.buildMatrix_byteAt (i : CwInfo) (m : BitVec 3) (t : Bool) (a : Nat) : (s.buildMatrix i m t).byteAt a = s.byteAt a := by simp [State.byteAt]
@[simp] theorem State.buildMatrix_bufferBytes (i : CwInfo) (m : BitVec 3) (t : Bool) (reg : Region) (n : Nat) : (s.buildMatrix i m t).bufferBytes reg n = s.bufferBytes reg n := by simp [State.bufferBytes]
@[simp] theorem State.onSuccess_byteAt (a : Nat) : (s.onSuccess).byteAt a = s.byteAt a := rfl
@[simp] theorem State.onSuccess_matCell (row col : Nat) : (s.onSuccess).matCell row col = s.matCell row col := rfl
@[simp] theorem State.onSuccess_bufferBytes (reg : Region) (n : Nat) : (s.onSuccess).bufferBytes reg n = s.bufferBytes reg n := rfl
@[simp] theorem State.accept_byteAt (v : Word) (a : Nat) : (s.accept v).byteAt a = s.byteAt a := rfl
@[simp] theorem State.accept_matCell (v : Word) (row col : Nat) : (s.accept v).matCell row col = s.matCell row col := rfl
@[simp] theorem State.accept_bufferBytes (v : Word) (reg : Region) (n : Nat) : (s.accept v).bufferBytes reg n = s.bufferBytes reg n := rfl
@[simp] theorem State.dropWrite_byteAt (a : Nat) : (s.dropWrite).byteAt a = s.byteAt a := rfl
@[simp] theorem State.dropWrite_matCell (row col : Nat) : (s.dropWrite).matCell row col = s.matCell row col := rfl
@[simp] theorem State.dropWrite_bufferBytes (reg : Region) (n : Nat) : (s.dropWrite).bufferBytes reg n = s.bufferBytes reg n := rfl
@[simp] theorem State.reply_byteAt (v : Word) (a : Nat) : (s.reply v).byteAt a = s.byteAt a := rfl
@[simp] theorem State.reply_matCell (v : Word) (row col : Nat) : (s.reply v).matCell row col = s.matCell row col := rfl
@[simp] theorem State.reply_bufferBytes (v : Word) (reg : Region) (n : Nat) : (s.reply v).bufferBytes reg n = s.bufferBytes reg n := rfl
@[simp] theorem State.invalidate_byteAt (st : Stage) (a : Nat) : (s.invalidate st).byteAt a = s.byteAt a := by
  simp [State.byteAt]
@[simp] theorem State.onFailure_byteAt (op : Byte) (st : Option Stage) (f : Failure) (a : Nat) :
    (s.onFailure op st f).byteAt a = s.byteAt a := by simp [State.byteAt]
@[simp] theorem State.invalidate_bufferBytes (st : Stage) (r : Region) (n : Nat) :
    (s.invalidate st).bufferBytes r n = s.bufferBytes r n := by simp [State.bufferBytes]
@[simp] theorem State.invalidate_matCell (st : Stage) (r c : Nat) :
    (s.invalidate st).matCell r c = s.matCell r c := by simp [State.matCell]
@[simp] theorem State.onFailure_matCell (op : Byte) (st : Option Stage) (f : Failure) (r c : Nat) :
    (s.onFailure op st f).matCell r c = s.matCell r c := by simp [State.matCell]

end Sys2Proof.Machine
end

