-- ==== Sys2Proof/Laws/Memory.lean ====
section
/-! SUPPORT. The laws of buffer memory: what a write changes, what it leaves, and that the canonical
form is kept; and of the address map. -/

namespace Sys2Proof.Machine

/-! ## The address map -/

theorem region_mem_all (r : Region) : r ∈ Region.all := by cases r <;> decide

theorem Region.holds_iff (r : Region) (a : Nat) : r.holds a = true ↔ r.base ≤ a ∧ a < r.base + r.size := by
  simp [Region.holds]

/-- No address lies in two regions. -/
theorem Region.holds_unique {r r' : Region} {a : Nat} (h : r.holds a = true) (h' : r'.holds a = true) :
    r = r' := by
  rw [Region.holds_iff] at h h'
  cases r <;> cases r' <;> first | rfl | (simp only [Region.base, Region.size] at h h'; omega)

theorem regionOf_eq_some_iff (a : Nat) (r : Region) : regionOf a = some r ↔ r.holds a = true := by
  constructor
  · intro h; simpa using List.find?_some h
  · intro h
    have hs : (Region.all.find? (fun q => q.holds a)).isSome = true :=
      List.find?_isSome.2 ⟨r, region_mem_all r, h⟩
    obtain ⟨q, hq⟩ := Option.isSome_iff_exists.1 hs
    have hqa : q.holds a = true := by simpa using List.find?_some hq
    rw [regionOf, hq, Region.holds_unique hqa h]

theorem regionOf_base_add (r : Region) {k : Nat} (h : k < r.size) : regionOf (r.base + k) = some r := by
  rw [regionOf_eq_some_iff, Region.holds_iff]; omega

/-! ## Runs of cells -/

theorem cellsFrom_keys (bs : List Byte) (a : Nat) : ∀ c ∈ cellsFrom a bs, a ≤ c.1 ∧ c.1 < a + bs.length := by
  induction bs generalizing a with
  | nil => simp [cellsFrom]
  | cons b bs ih =>
    intro c hc
    simp only [cellsFrom, List.mem_cons] at hc
    rcases hc with rfl | hc
    · simp
    · have := ih _ c hc; simp only [List.length_cons]; omega

theorem cellsFrom_sorted (bs : List Byte) (a : Nat) : (cellsFrom a bs).Pairwise (fun c d => c.1 < d.1) := by
  induction bs generalizing a with
  | nil => simp [cellsFrom]
  | cons b bs ih =>
    simp only [cellsFrom, List.pairwise_cons]
    exact ⟨fun c hc => by have := cellsFrom_keys bs (a + 1) c hc; show a < c.1; omega, ih _⟩

theorem lookup_cellsFrom (bs : List Byte) (a x : Nat) :
    List.lookup x (cellsFrom a bs) = if a ≤ x then bs[x - a]? else none := by
  induction bs generalizing a with
  | nil => simp [cellsFrom]
  | cons b bs ih =>
    simp only [cellsFrom, List.lookup_cons, ih]
    by_cases h : x = a
    · subst h; simp
    · rw [beq_eq_false_iff_ne.2 h]
      by_cases hle : a + 1 ≤ x
      · obtain ⟨k, rfl⟩ := Nat.exists_eq_add_of_le hle
        rw [if_pos hle, if_pos (by omega), show a + 1 + k - (a + 1) = k by omega,
          show a + 1 + k - a = k + 1 by omega]
        simp
      · rw [if_neg hle, if_neg (by omega)]

theorem lookup_eq_none_of_keys {m : Memory} {x : Nat} (h : ∀ c ∈ m, c.1 ≠ x) : List.lookup x m = none := by
  induction m with
  | nil => rfl
  | cons c m ih =>
    obtain ⟨k, b⟩ := c
    rw [List.lookup_cons, beq_eq_false_iff_ne.2 (h (k, b) (by simp)).symm]
    exact ih fun d hd => h d (by simp [hd])

theorem lookup_filter {m : Memory} {x : Nat} {p : Host.Cell → Bool} (h : ∀ c : Host.Cell, c.1 = x → p c = true) :
    List.lookup x (m.filter p) = List.lookup x m := by
  induction m with
  | nil => rfl
  | cons c m ih =>
    obtain ⟨k, b⟩ := c
    by_cases hx : k = x
    · rw [List.filter_cons_of_pos (h (k, b) hx)]
      simp [hx]
    · have hb : (x == k) = false := beq_eq_false_iff_ne.2 (fun e => hx e.symm)
      by_cases hp : p (k, b) = true
      · rw [List.filter_cons_of_pos hp, List.lookup_cons, List.lookup_cons, hb]; exact ih
      · rw [List.filter_cons_of_neg hp, List.lookup_cons, hb]; exact ih

/-! ## Writes -/

/-- What a write does to every address: its bytes in its range, nothing outside it. -/
theorem Memory.read?_write (m : Memory) (a : Nat) (bs : List Byte) (x : Nat) :
    (m.write a bs).read? x = if a ≤ x ∧ x < a + bs.length then bs[x - a]? else m.read? x := by
  unfold Memory.read? Memory.write
  rw [List.lookup_append, List.lookup_append, lookup_cellsFrom]
  by_cases h1 : x < a
  · rw [if_neg (by omega : ¬ a ≤ x), if_neg (by omega),
      lookup_filter (x := x) (fun c hc => by simp only [decide_eq_true_eq]; omega),
      lookup_eq_none_of_keys (m := m.filter _) (fun c hc => by
        have := (List.mem_filter.1 hc).2; simp only [decide_eq_true_eq] at this; omega)]
    simp
  · rw [lookup_eq_none_of_keys (m := m.filter fun c => decide (c.1 < a)) (fun c hc => by
        have := (List.mem_filter.1 hc).2; simp only [decide_eq_true_eq] at this; omega)]
    by_cases h2 : x < a + bs.length
    · rw [if_pos (by omega : a ≤ x), if_pos (by omega)]
      have : x - a < bs.length := by omega
      simp [List.getElem?_eq_getElem this]
    · rw [if_neg (by omega : ¬ (a ≤ x ∧ x < a + bs.length)), if_pos (by omega : a ≤ x),
        List.getElem?_eq_none (by omega),
        lookup_filter (x := x) (fun c hc => by simp only [decide_eq_true_eq]; omega)]
      simp

theorem Memory.read?_write_outside (m : Memory) (a : Nat) (bs : List Byte) {x : Nat}
    (h : x < a ∨ a + bs.length ≤ x) : (m.write a bs).read? x = m.read? x := by
  rw [Memory.read?_write, if_neg (by omega)]

theorem Memory.read?_write_inside (m : Memory) (a : Nat) (bs : List Byte) {k : Nat} (h : k < bs.length) :
    (m.write a bs).read? (a + k) = some bs[k] := by
  rw [Memory.read?_write, if_pos (by omega), Nat.add_sub_cancel_left, List.getElem?_eq_getElem h]

/-- The empty memory is canonical. -/
theorem Memory.wf_nil : Memory.wf [] := ⟨List.Pairwise.nil, by simp⟩

/-- A write inside the buffers keeps the canonical form. -/
theorem Memory.wf_write {m : Memory} (h : m.wf) {a : Nat} {bs : List Byte}
    (hr : ∀ k, k < bs.length → (regionOf (a + k)).isSome = true) : (m.write a bs).wf := by
  obtain ⟨hs, hreg⟩ := h
  refine ⟨?_, ?_⟩
  · unfold Memory.write
    rw [List.pairwise_append, List.pairwise_append]
    refine ⟨⟨hs.filter _, cellsFrom_sorted bs a, ?_⟩, hs.filter _, ?_⟩
    · intro c hc d hd
      have := (List.mem_filter.1 hc).2
      simp only [decide_eq_true_eq] at this
      have := cellsFrom_keys bs a d hd
      omega
    · intro c hc d hd
      have hd' := (List.mem_filter.1 hd).2
      simp only [decide_eq_true_eq] at hd'
      rcases List.mem_append.1 hc with hc | hc
      · have := (List.mem_filter.1 hc).2
        simp only [decide_eq_true_eq] at this
        omega
      · have := cellsFrom_keys bs a c hc
        omega
  · intro c hc
    unfold Memory.write at hc
    rcases List.mem_append.1 hc with hc | hc
    · rcases List.mem_append.1 hc with hc | hc
      · exact hreg c (List.mem_filter.1 hc).1
      · have hk := cellsFrom_keys bs a c hc
        have := hr (c.1 - a) (by omega)
        rwa [show a + (c.1 - a) = c.1 by omega] at this
    · exact hreg c (List.mem_filter.1 hc).1

/-! ## Command writes -/

variable (s : State)

/-- What a command's buffer write does to every byte: its region holds the result and then zeros,
every byte outside it is unchanged (10_state.md R38). -/
theorem State.writeBuffer_byteAt (r : Region) (bs : List Byte) (a : Nat) :
    (s.writeBuffer r bs).byteAt a = if r.holds a = true then bs.getD (a - r.base) 0#8 else s.byteAt a := by
  unfold State.byteAt
  rw [State.writeBuffer_mem, State.writeBuffer_ramDraw, Memory.read?_write]
  by_cases h : r.holds a = true
  · rw [if_pos h]
    rw [Region.holds_iff] at h
    rw [if_pos (by simpa using h)]
    have hk : a - r.base < r.size := by omega
    rw [List.getElem?_map, List.getElem?_range hk]
    simp
  · rw [if_neg h]
    rw [Region.holds_iff] at h
    rw [if_neg (by simpa using h)]

theorem State.writeBuffer_byteAt_outside (r : Region) (bs : List Byte) {a : Nat} (h : r.holds a = false) :
    (s.writeBuffer r bs).byteAt a = s.byteAt a := by
  rw [State.writeBuffer_byteAt, if_neg (by simp [h])]

theorem State.writeBuffer_byteAt_inside (r : Region) (bs : List Byte) {k : Nat} (h : k < r.size) :
    (s.writeBuffer r bs).byteAt (r.base + k) = bs.getD k 0#8 := by
  rw [State.writeBuffer_byteAt, if_pos ((Region.holds_iff _ _).2 (by omega)), Nat.add_sub_cancel_left]

/-- A write of one region leaves the bytes of every other region. -/
theorem State.writeBuffer_bufferBytes_other {r r' : Region} (hne : r ≠ r') (bs : List Byte) {n : Nat}
    (hn : n ≤ r'.size) : (s.writeBuffer r bs).bufferBytes r' n = s.bufferBytes r' n := by
  unfold State.bufferBytes
  apply List.map_congr_left
  intro k hk
  have hk' : k < r'.size := by have := List.mem_range.1 hk; omega
  apply State.writeBuffer_byteAt_outside
  by_contra hc
  have h1 : r.holds (r'.base + k) = true := by simpa using hc
  exact hne (Region.holds_unique h1 ((Region.holds_iff _ _).2 (by omega)))

/-- The bytes of a region just written, up to the result's length. -/
theorem State.writeBuffer_bufferBytes (r : Region) (bs : List Byte) (h : bs.length ≤ r.size) :
    (s.writeBuffer r bs).bufferBytes r bs.length = bs := by
  apply List.ext_getElem?
  intro k
  unfold State.bufferBytes
  by_cases hk : k < bs.length
  · rw [List.getElem?_map, List.getElem?_range hk, Option.map_some,
      State.writeBuffer_byteAt_inside _ _ _ (by omega), List.getD_eq_getElem?_getD,
      List.getElem?_eq_getElem hk]
    rfl
  · rw [List.getElem?_eq_none (by simpa using hk), List.getElem?_eq_none (by simpa using hk)]

theorem State.bufferBytes_length (r : Region) (n : Nat) : (s.bufferBytes r n).length = n := by
  simp [State.bufferBytes]

/-- A command's buffer write keeps the canonical form. -/
theorem State.writeBuffer_memOk (r : Region) (bs : List Byte) (h : s.MemOk) : (s.writeBuffer r bs).MemOk :=
  Memory.wf_write h fun k hk => by
    rw [regionOf_base_add r (by simpa using hk)]; rfl

theorem State.reset_memOk : State.reset.MemOk := Memory.wf_nil

end Sys2Proof.Machine
end

