-- ==== Sys2Proof/Laws/Ops.lean ====
section
/-! SUPPORT. What the shared operations of a command can do: running it, its checks, its completion. -/

namespace Sys2Proof.Machine

/-! ## Chaining what can fail -/

theorem bind_eq_ok {ε α β : Type} {x : Except ε α} {f : α → Except ε β} {b : β} :
    (x >>= f) = .ok b ↔ ∃ a, x = .ok a ∧ f a = .ok b := by
  cases x with
  | error e => simp [bind, Except.bind]
  | ok a => simp [bind, Except.bind]

theorem bind_eq_error {ε α β : Type} {x : Except ε α} {f : α → Except ε β} {e : ε} :
    (x >>= f) = .error e ↔ x = .error e ∨ ∃ a, x = .ok a ∧ f a = .error e := by
  cases x with
  | error e' => simp [bind, Except.bind]
  | ok a => simp [bind, Except.bind]

@[simp] theorem ok_bind {ε α β : Type} (a : α) (f : α → Except ε β) : ((Except.ok a : Except ε α) >>= f) = f a := rfl

@[simp] theorem error_bind {ε α β : Type} (e : ε) (f : α → Except ε β) :
    ((Except.error e : Except ε α) >>= f) = .error e := rfl

@[simp] theorem pure_eq_ok {ε α : Type} (a : α) : (pure a : Except ε α) = .ok a := rfl

/-! ## Running a command -/

variable {op : Byte} {st : Option Stage} {body : State → Except Failure State} {s t : State}

theorem runCommand_ok {s' : State} (h : body s = .ok s') : runCommand op st body s = .next s'.onSuccess := by
  simp only [runCommand, h]

theorem runCommand_error {f : Failure} (h : body s = .error f) :
    runCommand op st body s = .next (s.onFailure op st f) := by
  simp only [runCommand, h]

/-- A command always completes (60_exceptions.md R281). -/
theorem runCommand_next (op : Byte) (st : Option Stage) (body : State → Except Failure State) (s : State) :
    ∃ t, runCommand op st body s = .next t := by
  cases h : body s with
  | ok s' => exact ⟨_, runCommand_ok h⟩
  | error f => exact ⟨_, runCommand_error h⟩

/-- All a command can do: commit its writes and succeed, or discard them and fail
(60_exceptions.md R279, R280). -/
theorem runCommand_cases (h : runCommand op st body s = .next t) :
    (∃ s', body s = .ok s' ∧ t = s'.onSuccess) ∨ (∃ f, body s = .error f ∧ t = s.onFailure op st f) := by
  cases hb : body s with
  | ok s' => rw [runCommand_ok hb] at h; cases h; exact .inl ⟨s', rfl, rfl⟩
  | error f => rw [runCommand_error hb] at h; cases h; exact .inr ⟨f, rfl, rfl⟩

/-! ## Checks -/

theorem requireStage_ok {α : Type} {x : Option α} {i : α} : requireStage x = .ok i ↔ x = some i := by
  cases x <;> simp [requireStage, raise]

theorem requireStage_error {α : Type} {x : Option α} {f : Failure} :
    requireStage x = .error f ↔ x = none ∧ f = ⟨.notReady, 0⟩ := by
  cases x <;> simp [requireStage, raise, eq_comm]

theorem maskOperand_ok {m : Nat} {k : BitVec 3} : maskOperand m = .ok k ↔ m ≤ 7 ∧ k = BitVec.ofNat 3 m := by
  unfold maskOperand
  by_cases h : m > 7
  · simp [h, raise]
  · simp [h, eq_comm]; omega

theorem maskOperand_error {m : Nat} {f : Failure} : maskOperand m = .error f ↔ 7 < m ∧ f = ⟨.invalidMaskId, m⟩ := by
  unfold maskOperand
  by_cases h : m > 7
  · simp [h, raise, eq_comm]
  · simp [h]

theorem admitA_ok {u : Unit} : s.admitA = .ok u ↔ s.la.toNat ≤ 256 := by
  unfold State.admitA
  by_cases h : s.la.toNat > 256
  · simp [h, raise]
  · simp [h]; omega

theorem admitA_error {f : Failure} : s.admitA = .error f ↔ 256 < s.la.toNat ∧ f = ⟨.operandRange, s.la.toNat⟩ := by
  unfold State.admitA
  by_cases h : s.la.toNat > 256
  · simp [h, raise, eq_comm]
  · simp [h]

theorem admitOperands_ok {u : Unit} : s.admitOperands = .ok u ↔ s.la.toNat ≤ 256 ∧ s.lb.toNat ≤ 256 := by
  unfold State.admitOperands
  rw [bind_eq_ok]
  simp only [admitA_ok]
  by_cases h : s.lb.toNat > 256
  · simp [h, raise]
  · simp [h]; omega

theorem admitOperands_error {f : Failure} : s.admitOperands = .error f ↔
    (256 < s.la.toNat ∧ f = ⟨.operandRange, s.la.toNat⟩)
      ∨ (s.la.toNat ≤ 256 ∧ 256 < s.lb.toNat ∧ f = ⟨.operandRange, s.lb.toNat⟩) := by
  unfold State.admitOperands
  rw [bind_eq_error]
  simp only [admitA_ok, admitA_error]
  by_cases h : s.lb.toNat > 256
  · simp [h, raise, eq_comm]
  · simp [h]

theorem admitQuery_ok {row col : Int} {n : Nat} {u : Unit} :
    admitQuery row col n = .ok u ↔ 0 ≤ row ∧ row < n ∧ 0 ≤ col ∧ col < n := by
  unfold admitQuery
  split <;> simp [raise] <;> omega

theorem admitQuery_error {row col : Int} {n : Nat} {f : Failure} :
    admitQuery row col n = .error f ↔
      ¬ (0 ≤ row ∧ row < n ∧ 0 ≤ col ∧ col < n) ∧ f = ⟨.indexOutOfRange, 0⟩ := by
  unfold admitQuery
  split
  · rename_i h
    simp only [raise, Except.error.injEq, eq_comm (a := f)]
    exact ⟨fun e => ⟨by omega, e⟩, fun e => e.2⟩
  · rename_i h
    simp only [reduceCtorEq, false_iff]
    rintro ⟨hn, -⟩
    omega

theorem rsGroups_ok {v : Nat} {l : BitVec 2} {gs : List Group} :
    rsGroups v l = .ok gs ↔ 1 ≤ v ∧ ∃ r, rsTable[v - 1]? = some r ∧ gs = r.cell l := by
  unfold rsGroups
  by_cases h : v < 1
  · simp [h, raise]
  · simp only [h, if_false]
    cases rsTable[v - 1]? with
    | none => simp [raise]
    | some r => simp [eq_comm]; omega

theorem rsTable_length : rsTable.length = 40 := by decide

/-- The table answers exactly for versions 1 to 40 (41_rs_codec.md R152). -/
theorem rsGroups_isOk {v : Nat} {l : BitVec 2} : (∃ gs, rsGroups v l = .ok gs) ↔ 1 ≤ v ∧ v ≤ 40 := by
  constructor
  · rintro ⟨gs, h⟩
    obtain ⟨h1, r, hr, -⟩ := rsGroups_ok.1 h
    have := (List.getElem?_eq_some_iff.1 hr).1
    rw [rsTable_length] at this
    omega
  · rintro ⟨h1, h2⟩
    have hlt : v - 1 < rsTable.length := by rw [rsTable_length]; omega
    exact ⟨_, rsGroups_ok.2 ⟨h1, _, List.getElem?_eq_getElem hlt, rfl⟩⟩

theorem rsGroups_error {v : Nat} {l : BitVec 2} {f : Failure} :
    rsGroups v l = .error f ↔ (v < 1 ∨ 40 < v) ∧ f = ⟨.invalidTable, v⟩ := by
  unfold rsGroups
  by_cases h : v < 1
  · simp [h, raise, eq_comm]
  · simp only [h, if_false]
    by_cases h2 : 40 < v
    · rw [List.getElem?_eq_none (by rw [rsTable_length]; omega)]
      simp [raise, h2, eq_comm]
    · rw [List.getElem?_eq_getElem (by rw [rsTable_length]; omega)]
      simp [h2]

theorem rsBlocks_ok {v : Nat} {l : BitVec 2} {bs : List Block} :
    rsBlocks v l = .ok bs ↔ ∃ gs, rsGroups v l = .ok gs ∧ bs = blocksOf gs := by
  unfold rsBlocks
  rw [bind_eq_ok]
  simp [eq_comm]

theorem rsBlocks_error {v : Nat} {l : BitVec 2} {f : Failure} :
    rsBlocks v l = .error f ↔ (v < 1 ∨ 40 < v) ∧ f = ⟨.invalidTable, v⟩ := by
  unfold rsBlocks
  rw [bind_eq_error]
  simp [rsGroups_error]

theorem segAdmit_ok {v len total : Nat} {l : BitVec 2} : segAdmit v l len = .ok total ↔
    ∃ bs, rsBlocks v l = .ok bs ∧ total = totalData bs ∧ segBits v len ≤ 8 * total := by
  unfold segAdmit
  rw [bind_eq_ok]
  constructor
  · rintro ⟨bs, hb, h⟩
    split at h
    · simp [raise] at h
    · rename_i hc
      cases h
      exact ⟨bs, hb, rfl, by omega⟩
  · rintro ⟨bs, hb, rfl, hc⟩
    exact ⟨bs, hb, by rw [if_neg (by omega)]⟩

theorem segAdmit_error {v len : Nat} {l : BitVec 2} {f : Failure} : segAdmit v l len = .error f ↔
    ((v < 1 ∨ 40 < v) ∧ f = ⟨.invalidTable, v⟩)
      ∨ ∃ bs, rsBlocks v l = .ok bs ∧ 8 * totalData bs < segBits v len
          ∧ f = ⟨.inputCapacityExceeded, segBits v len⟩ := by
  unfold segAdmit
  rw [bind_eq_error, rsBlocks_error]
  apply or_congr Iff.rfl
  constructor
  · rintro ⟨bs, hb, h⟩
    split at h
    · rename_i hc
      simp only [raise, Except.error.injEq] at h
      exact ⟨bs, hb, hc, h.symm⟩
    · cases h
  · rintro ⟨bs, hb, hc, rfl⟩
    exact ⟨bs, hb, by rw [if_pos (by omega)]; rfl⟩

end Sys2Proof.Machine
end

