-- ==== Sys2Proof/Laws/Bus.lean ====
section
/-! SUPPORT. What one host event can do, once and for all, and that it keeps buffer memory canonical. -/

namespace Sys2Proof.Machine

variable {s : State}

/-! ## A register write touches the RW registers only (10_state.md R22) -/

@[simp] theorem State.writeReg_cmd (off : Nat) (v : Word) : (s.writeReg off v).cmd = s.cmd := by
  unfold State.writeReg; repeat' split
  all_goals rfl
@[simp] theorem State.writeReg_seq (off : Nat) (v : Word) : (s.writeReg off v).seq = s.seq := by
  unfold State.writeReg; repeat' split
  all_goals rfl
@[simp] theorem State.writeReg_wait (off : Nat) (v : Word) : (s.writeReg off v).wait = s.wait := by
  unfold State.writeReg; repeat' split
  all_goals rfl
@[simp] theorem State.writeReg_done (off : Nat) (v : Word) : (s.writeReg off v).done = s.done := by
  unfold State.writeReg; repeat' split
  all_goals rfl
@[simp] theorem State.writeReg_err (off : Nat) (v : Word) : (s.writeReg off v).err = s.err := by
  unfold State.writeReg; repeat' split
  all_goals rfl
@[simp] theorem State.writeReg_overrun (off : Nat) (v : Word) : (s.writeReg off v).overrun = s.overrun := by
  unfold State.writeReg; repeat' split
  all_goals rfl
@[simp] theorem State.writeReg_errcode (off : Nat) (v : Word) : (s.writeReg off v).errcode = s.errcode := by
  unfold State.writeReg; repeat' split
  all_goals rfl
@[simp] theorem State.writeReg_errinfo (off : Nat) (v : Word) : (s.writeReg off v).errinfo = s.errinfo := by
  unfold State.writeReg; repeat' split
  all_goals rfl
@[simp] theorem State.writeReg_lr (off : Nat) (v : Word) : (s.writeReg off v).lr = s.lr := by
  unfold State.writeReg; repeat' split
  all_goals rfl
@[simp] theorem State.writeReg_res (off : Nat) (v : Word) : (s.writeReg off v).res = s.res := by
  unfold State.writeReg; repeat' split
  all_goals rfl
@[simp] theorem State.writeReg_seg (off : Nat) (v : Word) : (s.writeReg off v).seg = s.seg := by
  unfold State.writeReg; repeat' split
  all_goals rfl
@[simp] theorem State.writeReg_cw (off : Nat) (v : Word) : (s.writeReg off v).cw = s.cw := by
  unfold State.writeReg; repeat' split
  all_goals rfl
@[simp] theorem State.writeReg_sel (off : Nat) (v : Word) : (s.writeReg off v).sel = s.sel := by
  unfold State.writeReg; repeat' split
  all_goals rfl
@[simp] theorem State.writeReg_sym (off : Nat) (v : Word) : (s.writeReg off v).sym = s.sym := by
  unfold State.writeReg; repeat' split
  all_goals rfl
@[simp] theorem State.writeReg_mem (off : Nat) (v : Word) : (s.writeReg off v).mem = s.mem := by
  unfold State.writeReg; repeat' split
  all_goals rfl
@[simp] theorem State.writeReg_ramDraw (off : Nat) (v : Word) : (s.writeReg off v).ramDraw = s.ramDraw := by
  unfold State.writeReg; repeat' split
  all_goals rfl
@[simp] theorem State.writeReg_mat (off : Nat) (v : Word) : (s.writeReg off v).mat = s.mat := by
  unfold State.writeReg; repeat' split
  all_goals rfl
@[simp] theorem State.writeReg_matDraw (off : Nat) (v : Word) : (s.writeReg off v).matDraw = s.matDraw := by
  unfold State.writeReg; repeat' split
  all_goals rfl
@[simp] theorem State.writeReg_draws (off : Nat) (v : Word) : (s.writeReg off v).draws = s.draws := by
  unfold State.writeReg; repeat' split
  all_goals rfl
@[simp] theorem State.writeReg_hostQ (off : Nat) (v : Word) : (s.writeReg off v).hostQ = s.hostQ := by
  unfold State.writeReg; repeat' split
  all_goals rfl
@[simp] theorem State.writeReg_replies (off : Nat) (v : Word) : (s.writeReg off v).replies = s.replies := by
  unfold State.writeReg; repeat' split
  all_goals rfl

/-! ## Writes -/

/-- All a host write can do (20_memory.md R66). -/
theorem State.hostWrite_cases (a : Nat) (n : AccessSize) (v : Word) (s : State) :
    s.hostWrite a n v = s ∨ (s.seq = .busy ∧ s.hostWrite a n v = s.dropWrite)
      ∨ s.hostWrite a n v = { s with overrun := false }
      ∨ (s.seq = .idle ∧ s.hostWrite a n v = s.accept v)
      ∨ (s.seq = .idle ∧ s.hostWrite a n v = s.writeReg a v)
      ∨ (s.seq = .idle ∧ ∃ r, regionOf a = some r ∧ r.hostWritable = true ∧ a % n.bytes = 0
          ∧ s.hostWrite a n v = { s with mem := s.mem.write a (bytesOfWord v n.bytes) }) := by
  have hidle : ¬ s.seq = .busy → s.seq = .idle := by cases s.seq <;> simp
  unfold State.hostWrite
  split
  · rename_i hadm
    split
    · unfold State.writeStatus
      split
      · exact .inr (.inr (.inl rfl))
      · exact .inl rfl
    · split
      · rename_i hb; exact .inr (.inl ⟨hb, rfl⟩)
      · rename_i hb
        split
        · exact .inr (.inr (.inr (.inl ⟨hidle hb, rfl⟩)))
        · split
          · exact .inr (.inr (.inr (.inr (.inl ⟨hidle hb, rfl⟩))))
          · rename_i hw
            unfold State.writeBytes
            split
            · exact .inl rfl
            · rename_i r hr
              split
              · rename_i hwr
                refine .inr (.inr (.inr (.inr (.inr ⟨hidle hb, r, hr, hwr, ?_, rfl⟩))))
                unfold admitted at hadm
                rw [if_neg hw, hr] at hadm
                simpa using hadm
              · exact .inl rfl
  · unfold State.rejectWrite
    split
    · rename_i h; exact .inr (.inl ⟨h.1, rfl⟩)
    · exact .inl rfl

/-- An aligned access that starts in a region lies in it (20_memory.md R64). -/
theorem regionOf_aligned {a k : Nat} {n : AccessSize} {r : Region} (hr : regionOf a = some r)
    (ha : a % n.bytes = 0) (hk : k < n.bytes) : regionOf (a + k) = some r := by
  rw [regionOf_eq_some_iff, Region.holds_iff] at hr ⊢
  cases n <;> cases r <;> simp only [AccessSize.bytes, Region.base, Region.size] at * <;> omega

theorem bytesOfWord_length (v : Word) (n : Nat) : (bytesOfWord v n).length = n := by simp [bytesOfWord]

/-- A host write keeps buffer memory canonical. -/
theorem State.hostWrite_memOk (a : Nat) (n : AccessSize) (v : Word) (h : s.MemOk) : (s.hostWrite a n v).MemOk := by
  rcases State.hostWrite_cases a n v s with e | ⟨-, e⟩ | e | ⟨-, e⟩ | ⟨-, e⟩ | ⟨-, r, hr, -, ha, e⟩ <;> rw [e]
  · exact h
  · exact h
  · exact h
  · exact h
  · unfold State.MemOk; rw [State.writeReg_mem]; exact h
  · exact Memory.wf_write h fun k hk => by
      rw [bytesOfWord_length] at hk
      rw [regionOf_aligned hr ha hk]; rfl

/-! ## Reads -/

/-- All a host read can do: return a value, and take a draw if the value is unspecified; no other side
effect (20_memory.md R67). -/
theorem State.hostRead_cases (a : Nat) (n : AccessSize) (s : State) :
    s.hostRead a n = s.reply (s.memRead a n)
      ∨ (s.seq = .busy ∧ s.hostRead a n = { s.reply (Config.busyRead s.draws) with draws := s.draws + 1 }) := by
  unfold State.hostRead
  split
  · exact .inl rfl
  · rename_i h
    refine .inr ⟨?_, rfl⟩
    cases hs : s.seq with
    | idle => exact absurd (.inl hs) h
    | busy => rfl

/-! ## The host's turn -/

/-- All a host turn can do. -/
theorem State.hostTurn_cases (s : State) :
    (s.hostQ = [] ∧ s.hostTurn = s)
      ∨ (∃ a n q, s.hostQ = .read a n :: q ∧ s.hostTurn = State.hostRead a.toNat n { s with hostQ := q })
      ∨ (∃ a n v q, s.hostQ = .write a n v :: q ∧ s.hostTurn = State.hostWrite a.toNat n v { s with hostQ := q })
      ∨ (∃ q, s.hostQ = .reset :: q ∧ s.hostTurn = State.pulseReset { s with hostQ := q }) := by
  unfold State.hostTurn
  split
  · rename_i h; exact .inl ⟨h, rfl⟩
  · rename_i e q h
    cases e with
    | read a n => exact .inr (.inl ⟨a, n, q, h, rfl⟩)
    | write a n v => exact .inr (.inr (.inl ⟨a, n, v, q, h, rfl⟩))
    | reset => exact .inr (.inr (.inr ⟨q, h, rfl⟩))

/-! ## One step -/

/-- All a step can do: a host turn while IDLE, a host turn while BUSY, the completion of the decoded
command, or of an illegal word. -/
theorem step_cases {t : State} (h : step s = .next t) :
    (s.seq = .idle ∧ t = s.hostTurn)
      ∨ (∃ k, s.seq = .busy ∧ s.wait = k + 1 ∧ t = State.hostTurn { s with wait := k })
      ∨ (∃ i, s.seq = .busy ∧ s.wait = 0 ∧ decode s.cmd = .ok i ∧ exec i s = .next t)
      ∨ (∃ e, s.seq = .busy ∧ s.wait = 0 ∧ decode s.cmd = .error e ∧ t = completeIllegal s) := by
  unfold step at h
  split at h
  · rename_i hs; cases h; exact .inl ⟨hs, rfl⟩
  · rename_i hs
    split at h
    · rename_i hw
      split at h
      · rename_i i hd; exact .inr (.inr (.inl ⟨i, hs, hw, hd, h⟩))
      · rename_i e hd; cases h; exact .inr (.inr (.inr ⟨e, hs, hw, hd, rfl⟩))
    · rename_i k hw; cases h; exact .inr (.inl ⟨k, hs, hw, rfl⟩)

end Sys2Proof.Machine
end

