-- ==== Sys2Proof/Laws/Commands.lean ====
section
/-! SUPPORT. What each command's pseudocode can do, once and for all: if it ends without raising, these
are its writes. Later proofs cite these lemmas and do not unfold a body. -/

namespace Sys2Proof.Machine

variable {s t : State}

theorem gfLogBody_ok : gfLogBody s = .ok t ↔ ∃ x, gfLog s.arg0Signed = .ok x ∧ t = s.setRes 0 x := by
  simp [gfLogBody, bind_eq_ok, eq_comm (a := t)]

theorem gfLogBody_error {f : Failure} : gfLogBody s = .error f ↔ gfLog s.arg0Signed = .error f := by
  simp [gfLogBody, bind_eq_error]

theorem polyMulBody_ok : polyMulBody s = .ok t ↔ s.la.toNat ≤ 256 ∧ s.lb.toNat ≤ 256
    ∧ admitProduct (canonical s.rawA 0) (canonical s.rawB 0) = .ok ()
    ∧ ∃ r, multiply (canonical s.rawA 0) (canonical s.rawB 0) = .ok r ∧ t = s.writePoly r := by
  simp only [polyMulBody, bind_eq_ok, admitOperands_ok, pure_eq_ok, Except.ok.injEq, eq_comm (a := t)]
  exact ⟨fun ⟨_, ⟨ha, hb⟩, _, hp, r, hr, ht⟩ => ⟨ha, hb, hp, r, hr, ht⟩,
    fun ⟨ha, hb, hp, r, hr, ht⟩ => ⟨(), ⟨ha, hb⟩, (), hp, r, hr, ht⟩⟩

theorem polyModBody_ok {sh : Nat} : polyModBody sh s = .ok t ↔ s.la.toNat ≤ 256 ∧ s.lb.toNat ≤ 256
    ∧ ∃ r, polyMod (canonical s.rawA sh) (canonical s.rawB 0) = .ok r ∧ t = s.writePoly r := by
  simp [polyModBody, bind_eq_ok, admitOperands_ok, eq_comm (a := t), and_assoc]

theorem polyGenBody_ok {k : Nat} : polyGenBody k s = .ok t ↔
    ∃ g, gen k = .ok g ∧ t = { s.writeBuffer .pr g with lr := BitVec.ofNat 9 (k + 1) } := by
  simp [polyGenBody, bind_eq_ok, eq_comm (a := t)]

theorem rsLookupBody_ok : rsLookupBody s = .ok t ↔ ∃ gs, rsGroups s.version s.cfgLevel = .ok gs
    ∧ t = ((((((s.setRes 0 (groupWordAt gs 0)).setRes 1 (groupWordAt gs 1)).setRes 2
      (totalData (blocksOf gs))).setRes 3 (totalCodewords (blocksOf gs))).setRes 4
      (blocksOf gs).length).setRes 5 (groupsEc gs)) := by
  simp [rsLookupBody, bind_eq_ok, eq_comm (a := t)]

theorem rsEccBody_ok {k : Nat} : rsEccBody k s = .ok t ↔ s.la.toNat ≤ 256
    ∧ ∃ ec, rsEcc s.rawA k = .ok ec ∧ t = { s.writeBuffer .pr ec with lr := BitVec.ofNat 9 k } := by
  simp [rsEccBody, bind_eq_ok, admitA_ok, eq_comm (a := t)]

/-- The state SEG.ENCODE commits for a capacity of `total` data codewords (41_rs_codec.md R164). -/
theorem segEncodeBody_ok : segEncodeBody s = .ok t ↔ ∃ total,
    segAdmit s.version s.cfgLevel s.payloadLen = .ok total
    ∧ t = (({ s.writeBuffer .dbuf (segCodewords s.version total (s.payload s.payloadLen)) with
          seg := some ⟨BitVec.ofNat 12 total, s.cfgVersion, s.cfgLevel⟩, cw := none, sel := none, sym := none }
        ).setRes 0 (segBits s.version s.payloadLen)).setRes 1 total := by
  simp [segEncodeBody, bind_eq_ok, eq_comm (a := t), State.invalidate]

theorem segEncodeBody_error {f : Failure} :
    segEncodeBody s = .error f ↔ segAdmit s.version s.cfgLevel s.payloadLen = .error f := by
  simp [segEncodeBody, bind_eq_error]

theorem cwBuildBody_ok : cwBuildBody s = .ok t ↔ ∃ i cw, s.seg = some i
    ∧ cwBuild (s.dataCodewords i) i.version.toNat i.level = .ok cw
    ∧ t = ({ s.writeBuffer .cwbuf cw with
        cw := some ⟨BitVec.ofNat 12 cw.length, i.version, i.level⟩, sel := none, sym := none }
      ).setRes 0 cw.length := by
  simp [cwBuildBody, bind_eq_ok, requireStage_ok, eq_comm (a := t), State.invalidate]

theorem maskEvalBody_ok {m : Nat} : maskEvalBody m s = .ok t ↔ m ≤ 7
    ∧ t = s.setRes 0 (maskfn (BitVec.ofNat 3 m) (s.arg0Low 8) (s.arg1Low 8)).toNat := by
  simp only [maskEvalBody, bind_eq_ok, maskOperand_ok, pure_eq_ok, Except.ok.injEq]
  constructor
  · rintro ⟨k, ⟨h, rfl⟩, rfl⟩; exact ⟨h, rfl⟩
  · rintro ⟨h, rfl⟩; exact ⟨_, ⟨h, rfl⟩, rfl⟩

theorem matBuildBody_ok {m : Nat} {tr : Bool} : matBuildBody m tr s = .ok t ↔ m ≤ 7
    ∧ ∃ i, s.cw = some i ∧ t = s.buildMatrix i (BitVec.ofNat 3 m) tr := by
  simp only [matBuildBody, bind_eq_ok, requireStage_ok, maskOperand_ok, pure_eq_ok, Except.ok.injEq]
  constructor
  · rintro ⟨i, hi, k, ⟨h, rfl⟩, rfl⟩; exact ⟨h, i, hi, rfl⟩
  · rintro ⟨h, i, hi, rfl⟩; exact ⟨i, hi, _, ⟨h, rfl⟩, rfl⟩

theorem matScoreBody_ok : matScoreBody s = .ok t ↔ ∃ i, s.sym = some i
    ∧ t = s.setAllRes [penalty (s.matrix i.n) i.n, penalty1 (s.matrix i.n) i.n, penalty2 (s.matrix i.n) i.n,
        penalty3 (s.matrix i.n) i.n, penalty4 (s.matrix i.n) i.n, darkCount (s.matrix i.n) i.n, 0, 0] := by
  simp [matScoreBody, bind_eq_ok, requireStage_ok, eq_comm (a := t)]

theorem maskSelectBody_ok : maskSelectBody s = .ok t ↔ ∃ i, s.cw = some i
    ∧ t = { (s.setAllRes (trialPenalties (s.codewords i) i.version.toNat i.level)).scrambleMat with
        sel := some (BitVec.ofNat 3 (bestMask (trialPenalties (s.codewords i) i.version.toNat i.level))),
        sym := none } := by
  simp [maskSelectBody, bind_eq_ok, requireStage_ok, eq_comm (a := t), State.invalidate]

theorem symFinalBody_ok : symFinalBody s = .ok t ↔ ∃ m, s.sel = some m ∧ t = s.buildMatrix s.cinfo m false := by
  simp [symFinalBody, bind_eq_ok, requireStage_ok, eq_comm (a := t)]

theorem symEncodeBody_ok : symEncodeBody s = .ok t ↔ ∃ s1 s2 s3, segEncodeBody s = .ok s1
    ∧ cwBuildBody s1 = .ok s2 ∧ maskSelectBody s2 = .ok s3 ∧ symFinalBody s3 = .ok t := by
  simp only [symEncodeBody, bind_eq_ok]
  constructor
  · rintro ⟨s1, h1, s2, h2, s3, h3, h4⟩; exact ⟨s1, s2, s3, h1, h2, h3, h4⟩
  · rintro ⟨s1, s2, s3, h1, h2, h3, h4⟩; exact ⟨s1, h1, s2, h2, s3, h3, h4⟩

theorem symQueryBody_ok : symQueryBody s = .ok t ↔ ∃ i, s.sym = some i
    ∧ (0 ≤ s.arg0Signed ∧ s.arg0Signed < i.n ∧ 0 ≤ s.arg1Signed ∧ s.arg1Signed < i.n)
    ∧ t = s.setRes 0 (decide (s.matCell s.arg0Signed.toNat s.arg1Signed.toNat = .dark)).toNat := by
  simp [symQueryBody, bind_eq_ok, requireStage_ok, admitQuery_ok, eq_comm (a := t)]

end Sys2Proof.Machine
end

