-- ==== Sys2Proof/Laws/Poly.lean ====
section
/-! SUPPORT. One spec lemma for each function of the field and of the polynomials: when it raises, and
the shape of what it answers (40_gf_poly.md R122 to R129). -/

namespace Sys2Proof.Machine

/-! ## The field -/

theorem gfExp_ne_zero (n : Int) : gfExp n ≠ 0#8 := by
  have all : ∀ i : Fin 255, expAt i.val ≠ 0#8 := by decide +kernel
  have h0 := Int.emod_nonneg n (show (255 : Int) ≠ 0 by decide)
  have h1 := Int.emod_lt_of_pos n (show (0 : Int) < 255 by decide)
  exact all ⟨(n % 255).toNat, by omega⟩

theorem logByte_zero : logByte 0#8 = .error ⟨.mathDomainError, 0⟩ := by decide

/-- `log` of a nonzero element answers an exponent below 255 of it (40_gf_poly.md R122). -/
theorem logByte_ok {x : Byte} (h : x ≠ 0#8) : ∃ e : Nat, e < 255 ∧ logByte x = .ok e ∧ gfExp e = x := by
  have all : ∀ x : BitVec 8, x ≠ 0#8 →
      logAt x.toNat < 255 ∧ logByte x = .ok (logAt x.toNat) ∧ gfExp (logAt x.toNat) = x := by
    decide +kernel
  exact ⟨_, all x h⟩

/-- A product of nonzero elements is answered and nonzero. -/
theorem mulByte_ok {x y : Byte} (hx : x ≠ 0#8) (hy : y ≠ 0#8) : ∃ z, mulByte x y = .ok z ∧ z ≠ 0#8 := by
  obtain ⟨a, -, ha, -⟩ := logByte_ok hx
  obtain ⟨b, -, hb, -⟩ := logByte_ok hy
  exact ⟨gfExp (a + b), by simp [mulByte, ha, hb], gfExp_ne_zero _⟩

/-! ## Mapping what can fail over a list -/

theorem mapM_nil {α β : Type} (f : α → Except Failure β) : ([] : List α).mapM f = .ok [] := rfl

theorem mapM_cons {α β : Type} (f : α → Except Failure β) (x : α) (xs : List α) :
    (x :: xs).mapM f = (f x >>= fun y => xs.mapM f >>= fun ys => .ok (y :: ys)) := by
  rw [List.mapM_cons]; rfl

theorem mapM_ok_iff {α β : Type} {f : α → Except Failure β} {xs : List α} {ys : List β} :
    xs.mapM f = .ok ys ↔ List.Forall₂ (fun x y => f x = .ok y) xs ys := by
  induction xs generalizing ys with
  | nil => rw [mapM_nil]; constructor
           · intro h; cases h; exact .nil
           · intro h; cases h; rfl
  | cons x xs ih =>
    rw [mapM_cons, bind_eq_ok]
    constructor
    · rintro ⟨y, hy, h⟩
      obtain ⟨zs, hz, h⟩ := bind_eq_ok.1 h
      cases h
      exact .cons hy (ih.1 hz)
    · intro h
      cases h with
      | cons hy hz => exact ⟨_, hy, by rw [ih.2 hz]; rfl⟩

theorem mapM_length {α β : Type} {f : α → Except Failure β} {xs : List α} {ys : List β}
    (h : xs.mapM f = .ok ys) : ys.length = xs.length := ((mapM_ok_iff.1 h).length_eq).symm

theorem mapM_ok_of_forall {α β : Type} {f : α → Except Failure β} {xs : List α}
    (h : ∀ x ∈ xs, ∃ y, f x = .ok y) : ∃ ys, xs.mapM f = .ok ys := by
  induction xs with
  | nil => exact ⟨[], mapM_nil f⟩
  | cons x xs ih =>
    obtain ⟨y, hy⟩ := h x (by simp)
    obtain ⟨ys, hys⟩ := ih fun z hz => h z (by simp [hz])
    exact ⟨y :: ys, by rw [mapM_cons, hy, hys]; rfl⟩

/-! ## Coefficient sequences -/

theorem xorInto_length (xs ys : List Byte) : (xorInto xs ys).length = ys.length := by
  induction xs generalizing ys with
  | nil => rfl
  | cons x xs ih => cases ys with
    | nil => rfl
    | cons y ys => simp [xorInto, ih]

theorem xorAt_length (i : Nat) (row ys : List Byte) : (xorAt i row ys).length = ys.length := by
  induction i generalizing ys with
  | zero => exact xorInto_length row ys
  | succ i ih => cases ys with
    | nil => rfl
    | cons y ys => simp [xorAt, ih]

theorem canonical_canonical (raw : List Byte) (sh : Nat) : Canonical (canonical raw sh) := by
  unfold canonical
  split
  · exact .inl rfl
  · rename_i x s h
    refine .inr ⟨x, _, rfl, ?_⟩
    have := List.head?_dropWhile_not (fun x : Byte => x == 0#8) raw
    rw [h] at this
    simpa using this

theorem canonical_length_le (raw : List Byte) (sh : Nat) : (canonical raw sh).length ≤ raw.length + sh := by
  unfold canonical
  split
  · simp
  · rename_i x s h
    have := List.length_dropWhile_le (fun x : Byte => x == 0#8) raw
    rw [h] at this
    simp only [List.length_append, List.length_replicate]
    omega

theorem canonical_of_ne {x : Byte} (xs : List Byte) (sh : Nat) (h : x ≠ 0#8) :
    canonical (x :: xs) sh = (x :: xs) ++ List.replicate sh 0#8 := by
  unfold canonical
  rw [List.dropWhile_cons_of_neg (by simpa using h)]

theorem canonical_zero_cons (xs : List Byte) (sh : Nat) : canonical (0#8 :: xs) sh = canonical xs sh := by
  unfold canonical
  rw [List.dropWhile_cons_of_pos (by rfl)]

/-! ## multiply -/

theorem multiplyRows_length {b : Poly} {i : Nat} {a out r : List Byte}
    (h : multiplyRows b i a out = .ok r) : r.length = out.length := by
  induction a generalizing i out with
  | nil => cases h; rfl
  | cons x a ih =>
    rw [multiplyRows] at h
    obtain ⟨row, -, h⟩ := bind_eq_ok.1 h
    rw [ih h, xorAt_length]

theorem multiply_length_le {a b r : Poly} (h : multiply a b = .ok r) : r.length ≤ a.length + b.length - 1 := by
  unfold multiply at h
  obtain ⟨out, ho, h⟩ := bind_eq_ok.1 h
  cases h
  have h1 := canonical_length_le out 0
  have h2 := multiplyRows_length ho
  rw [List.length_replicate] at h2
  omega

theorem multiply_canonical {a b r : Poly} (h : multiply a b = .ok r) : Canonical r := by
  unfold multiply at h
  obtain ⟨out, -, h⟩ := bind_eq_ok.1 h
  cases h
  exact canonical_canonical out 0

/-! ## mod -/

theorem modPass_cons {x y : Byte} (xs ys : List Byte) (hx : x ≠ 0#8) (hy : y ≠ 0#8)
    (hb : ∀ z ∈ ys, z ≠ 0#8) : ∃ row : List Byte, row.length = ys.length
      ∧ modPass (x :: xs) (y :: ys) = .ok (canonical (xorInto row xs) 0) := by
  obtain ⟨la, -, hla, hea⟩ := logByte_ok hx
  obtain ⟨lb, -, hlb, heb⟩ := logByte_ok hy
  have hrow : ∃ row, ys.mapM (fun z => logByte z >>= fun lz =>
      (Except.ok (gfExp (lz + ((la : Int) - lb))) : Except Failure Byte)) = .ok row :=
    mapM_ok_of_forall fun z hz => by
      obtain ⟨lz, -, hlz, -⟩ := logByte_ok (hb z hz)
      exact ⟨_, by rw [hlz]; rfl⟩
  obtain ⟨row, hrow⟩ := hrow
  refine ⟨row, mapM_length hrow, ?_⟩
  unfold modPass
  simp only [List.headD_cons, hla, hlb, ok_bind, pure_eq_ok]
  rw [mapM_cons, hlb, ok_bind, ok_bind, hrow]
  simp only [ok_bind, xorInto]
  rw [show (lb : Int) + ((la : Int) - lb) = la by omega, hea, BitVec.xor_self, canonical_zero_cons]

/-- Division by a polynomial without zero coefficients never raises, and its remainder is canonical and
shorter than the divisor (40_gf_poly.md R129). -/
theorem polyMod_ok {a b : Poly} (hbn : b ≠ []) (hb : ∀ z ∈ b, z ≠ 0#8) (ha : Canonical a) :
    ∃ r, polyMod a b = .ok r ∧ r.length < b.length ∧ Canonical r := by
  obtain ⟨y, ys, rfl⟩ := List.exists_cons_of_ne_nil hbn
  have loop : ∀ (fuel : Nat) (a : Poly), Canonical a → a.length ≤ fuel →
      ∃ r, modLoop (y :: ys) fuel a = .ok r ∧ r.length < (y :: ys).length ∧ Canonical r := by
    intro fuel
    induction fuel with
    | zero =>
      intro a ha hle
      exact ⟨a, rfl, by simp only [List.length_cons]; omega, ha⟩
    | succ fuel ih =>
      intro a ha hle
      rw [modLoop]
      by_cases hlt : a.length < (y :: ys).length
      · exact ⟨a, by rw [if_pos hlt], hlt, ha⟩
      · rw [if_neg hlt]
        rcases ha with rfl | ⟨x, xs, rfl, hx⟩
        · simp at hlt
        · obtain ⟨row, -, hp⟩ := modPass_cons xs ys hx (hb y (by simp)) (fun z hz => hb z (by simp [hz]))
          rw [hp, ok_bind]
          refine ih _ (canonical_canonical _ _) ?_
          have := canonical_length_le (xorInto row xs) 0
          rw [xorInto_length] at this
          simp only [List.length_cons] at hle
          omega
  exact loop a.length a ha (Nat.le_refl _)

/-- A remainder is shorter than the divisor, whenever `mod` answers. -/
theorem modLoop_length {b : Poly} (hb : b ≠ []) {fuel : Nat} {a r : Poly} (hle : a.length ≤ fuel)
    (h : modLoop b fuel a = .ok r)
    (hshort : ∀ a' a'' : Poly, b.length ≤ a'.length → modPass a' b = .ok a'' → a''.length < a'.length) :
    r.length < b.length := by
  have hpos : 0 < b.length := List.length_pos_iff.2 hb
  induction fuel generalizing a with
  | zero => cases h; omega
  | succ fuel ih =>
    rw [modLoop] at h
    split at h
    · cases h; assumption
    · rename_i hn
      obtain ⟨a', ha', h⟩ := bind_eq_ok.1 h
      exact ih (by have := hshort a a' (by omega) ha'; omega) h

theorem modPass_shorter {a b a' : Poly} (hb : b ≠ []) (hle : b.length ≤ a.length)
    (h : modPass a b = .ok a') : a'.length < a.length := by
  obtain ⟨y, ys, rfl⟩ := List.exists_cons_of_ne_nil hb
  have hane : a ≠ [] := by rintro rfl; simp at hle
  obtain ⟨x, xs, rfl⟩ := List.exists_cons_of_ne_nil hane
  unfold modPass at h
  obtain ⟨la, hla, h⟩ := bind_eq_ok.1 h
  obtain ⟨lb, hlb, h⟩ := bind_eq_ok.1 h
  obtain ⟨row, hrow, h⟩ := bind_eq_ok.1 h
  simp only [List.headD_cons] at hla hlb
  have hx : x ≠ 0#8 := by rintro rfl; rw [logByte_zero] at hla; cases hla
  have hy : y ≠ 0#8 := by rintro rfl; rw [logByte_zero] at hlb; cases hlb
  obtain ⟨ea, -, hea, hxa⟩ := logByte_ok hx
  obtain ⟨eb, -, heb, hyb⟩ := logByte_ok hy
  rw [hea] at hla; cases hla
  rw [heb] at hlb; cases hlb
  rw [mapM_cons, heb] at hrow
  obtain ⟨z, hz, hrow⟩ := bind_eq_ok.1 hrow
  obtain ⟨zs, -, hrow⟩ := bind_eq_ok.1 hrow
  cases hz
  cases hrow
  cases h
  rw [show (lb : Int) + ((la : Int) - lb) = la by omega, hxa, xorInto, BitVec.xor_self, canonical_zero_cons]
  have := canonical_length_le (xorInto zs xs) 0
  rw [xorInto_length] at this
  simp only [List.length_cons]
  omega

/-- Whenever `mod` answers, the remainder is shorter than the divisor (40_gf_poly.md R129). -/
theorem polyMod_length {a b r : Poly} (h : polyMod a b = .ok r) : r.length < b.length := by
  cases b with
  | nil => cases h
  | cons y ys =>
    exact modLoop_length (by simp) (Nat.le_refl _) h fun a' a'' hl hp => modPass_shorter (by simp) hl hp

end Sys2Proof.Machine
end

