-- ==== Sys2Proof/Laws/Gen.lean ====
section
/-! SUPPORT. The generator polynomial in closed form (40_gf_poly.md R130): every coefficient of gen(k) is
a power of 2, for k up to 254, and gen(255) is 1, 254 zeros, 1. The logarithms are those of the Gaussian
binomial coefficients, written with `zech m`, the logarithm of 1 + 2^m. -/

namespace Sys2Proof.Machine

/-! ## Powers of 2 -/

theorem gfExp_mod (n : Int) : gfExp (n % 255) = gfExp n := by
  unfold gfExp; rw [Int.emod_emod_of_dvd n (by decide)]

theorem gfExp_add_255 (n : Int) : gfExp (n + 255) = gfExp n := by
  unfold gfExp; rw [Int.add_emod_right]

theorem gfExp_congr {m n : Int} (h : m % 255 = n % 255) : gfExp m = gfExp n := by
  unfold gfExp; rw [h]

/-- Multiplication by 2 in the field. -/
def double (x : Byte) : Byte := (x <<< 1) ^^^ (if x.msb then 0x1D#8 else 0#8)

theorem double_xor (x y : Byte) : double (x ^^^ y) = double x ^^^ double y := by
  have hm : (x ^^^ y).msb = xor x.msb y.msb := by simp
  unfold double
  rw [hm]
  cases x.msb <;> cases y.msb <;> ext i hi <;> simp <;> grind

theorem gfExp_succ (n : Int) : gfExp (n + 1) = double (gfExp n) := by
  have all : ∀ i : Fin 255, gfExp (i.val + 1) = double (gfExp i.val) := by decide +kernel
  have h0 := Int.emod_nonneg n (show (255 : Int) ≠ 0 by decide)
  have h1 := Int.emod_lt_of_pos n (show (0 : Int) < 255 by decide)
  have := all ⟨(n % 255).toNat, by omega⟩
  simp only [Int.toNat_of_nonneg h0] at this
  rw [gfExp_mod] at this
  rw [← this]
  exact gfExp_congr (by omega)

/-- A sum of two powers of 2, and each term, may be multiplied by the same power of 2. -/
theorem gfExp_xor_shift {u v : Int} {z : Byte} (h : gfExp u ^^^ gfExp v = z) (w : Nat) :
    gfExp (u + w) ^^^ gfExp (v + w) = double^[w] z := by
  induction w with
  | zero => simpa using h
  | succ w ih =>
    rw [Function.iterate_succ_apply', ← ih, double_xor, ← gfExp_succ, ← gfExp_succ]
    push_cast
    rw [add_assoc, add_assoc]

theorem gfExp_iterate (x : Int) (w : Nat) : double^[w] (gfExp x) = gfExp (x + w) := by
  induction w with
  | zero => simp
  | succ w ih => rw [Function.iterate_succ_apply', ih, ← gfExp_succ]; push_cast; rw [add_assoc]

theorem gfExp_xor_add {u v x : Int} (h : gfExp u ^^^ gfExp v = gfExp x) (w : Int) :
    gfExp (u + w) ^^^ gfExp (v + w) = gfExp (x + w) := by
  have h0 := Int.emod_nonneg w (show (255 : Int) ≠ 0 by decide)
  have e : ∀ y : Int, gfExp (y + w) = gfExp (y + (w % 255).toNat) := fun y =>
    gfExp_congr (by rw [Int.toNat_of_nonneg h0]; omega)
  rw [e, e, e, gfExp_xor_shift h, gfExp_iterate]

theorem logByte_gfExp (n : Int) : ∃ e : Nat, logByte (gfExp n) = .ok e ∧ (e : Int) = n % 255 := by
  have all : ∀ i : Fin 255, logByte (gfExp i.val) = .ok i.val := by decide +kernel
  have h0 := Int.emod_nonneg n (show (255 : Int) ≠ 0 by decide)
  have h1 := Int.emod_lt_of_pos n (show (0 : Int) < 255 by decide)
  have := all ⟨(n % 255).toNat, by omega⟩
  simp only [Int.toNat_of_nonneg h0] at this
  rw [gfExp_mod] at this
  exact ⟨_, this, by omega⟩

theorem mulByte_gfExp (m n : Int) : mulByte (gfExp m) (gfExp n) = .ok (gfExp (m + n)) := by
  obtain ⟨a, ha, ha'⟩ := logByte_gfExp m
  obtain ⟨b, hb, hb'⟩ := logByte_gfExp n
  simp only [mulByte, ha, hb, ok_bind, pure_eq_ok, Except.ok.injEq]
  exact gfExp_congr (by omega)

/-! ## The logarithms of the coefficients -/

/-- The logarithm of 1 + 2^m. -/
def zech (m : Nat) : Nat := logAt (1#8 ^^^ gfExp m).toNat

theorem gfExp_zech {m : Nat} (h1 : 1 ≤ m) (h2 : m ≤ 254) : gfExp (zech m) = gfExp 0 ^^^ gfExp m := by
  have all : ∀ i : Fin 254, gfExp (zech (i.val + 1)) = gfExp 0 ^^^ gfExp (i.val + 1 : Nat) := by decide +kernel
  have := all ⟨m - 1, by omega⟩
  simp only [Nat.sub_add_cancel h1] at this
  exact this

/-- The logarithm of coefficient j of gen(k). -/
def genLog (k : Nat) : Nat → Int
  | 0 => 0
  | j + 1 => genLog k j + j + zech (k - j) - zech (j + 1)

theorem genLog_succ (k j : Nat) : genLog (k + 1) (j + 1) = genLog k j + j + zech (k + 1) - zech (j + 1) := by
  induction j with
  | zero => simp [genLog]
  | succ j ih =>
    rw [genLog, ih, genLog]
    have : k + 1 - (j + 1) = k - j := by omega
    rw [this]
    push_cast
    ring

/-- The Gaussian binomial recurrence, for an inner coefficient. -/
theorem genLog_step {k j : Nat} (hj : j < k) (hk : k < 254) :
    gfExp (genLog k j + k) ^^^ gfExp (genLog k (j + 1)) = gfExp (genLog (k + 1) (j + 1)) := by
  have hp := gfExp_zech (m := k - j) (by omega) (by omega)
  have hq := gfExp_zech (m := j + 1) (by omega) (by omega)
  have hr := gfExp_zech (m := k + 1) (by omega) (by omega)
  have hq' := gfExp_xor_add hq.symm (k - j : Nat)
  have key : gfExp (zech (j + 1) + (k - j : Nat)) ^^^ gfExp (zech (k - j)) = gfExp (zech (k + 1)) := by
    rw [← hq', hp, hr]
    have e1 : ((j + 1 : Nat) : Int) + (k - j : Nat) = (k + 1 : Nat) := by omega
    have e2 : (0 : Int) + (k - j : Nat) = (k - j : Nat) := by omega
    rw [e1, e2]
    generalize gfExp (k - j : Nat) = x
    generalize gfExp (k + 1 : Nat) = y
    generalize gfExp 0 = z
    rw [BitVec.xor_comm x y, BitVec.xor_comm z x, ← BitVec.xor_assoc, BitVec.xor_assoc y x x, BitVec.xor_self,
      BitVec.xor_zero, BitVec.xor_comm]
  have := gfExp_xor_add key (genLog k j + j - zech (j + 1))
  rw [genLog_succ, genLog]
  convert this using 2
  · congr 1; push_cast [Nat.cast_sub hj.le]; ring
  · congr 1; ring
  · ring

/-! ## Multiplying by a monic linear factor -/

/-- XOR of a row into a sequence after `pre`. -/
theorem xorAt_append (pre row ys : List Byte) : xorAt pre.length row (pre ++ ys) = pre ++ xorInto row ys := by
  induction pre with
  | nil => rfl
  | cons x pre ih => simp [xorAt, ih]

/-- The coefficients of (y, xs) times the factor of root e, the first still lacking y. -/
def addScaled (e : Int) : Byte → List Byte → List Byte
  | y, [] => [y]
  | y, x :: xs => (x ^^^ y) :: addScaled e (gfTimes x (gfExp e)) xs

theorem gfTimes_gfExp (m n : Int) : gfTimes (gfExp m) (gfExp n) = gfExp (m + n) := by
  have log : ∀ i : Int, (logAt (gfExp i).toNat : Int) % 255 = i % 255 := by
    have all : ∀ i : Fin 255, logAt (gfExp i.val).toNat = i.val := by decide +kernel
    intro i
    have h0 := Int.emod_nonneg i (show (255 : Int) ≠ 0 by decide)
    have h1 := Int.emod_lt_of_pos i (show (0 : Int) < 255 by decide)
    have := all ⟨(i % 255).toNat, by omega⟩
    simp only [Int.toNat_of_nonneg h0] at this
    rw [gfExp_mod] at this
    rw [this]; omega
  unfold gfTimes
  rw [if_neg (by simp [gfExp_ne_zero])]
  have hm := log m
  have hn := log n
  exact gfExp_congr (by omega)

theorem multiplyRows_linear (e : Int) (xs : List Byte) : ∀ (pre : List Byte) (y : Byte), (∀ x ∈ xs, x ≠ 0#8) →
    multiplyRows [1#8, gfExp e] pre.length xs (pre ++ y :: List.replicate xs.length 0#8)
      = .ok (pre ++ addScaled e y xs) := by
  induction xs with
  | nil => intro pre y _; rfl
  | cons x xs ih =>
    intro pre y h
    obtain ⟨a, -, -, ha⟩ := logByte_ok (h x (by simp))
    have one : (1#8 : Byte) = gfExp 0 := by decide
    have h1 : mulByte x 1#8 = .ok x := by rw [← ha, one, mulByte_gfExp, add_zero]
    have h2 : mulByte x (gfExp e) = .ok (gfTimes x (gfExp e)) := by rw [← ha, mulByte_gfExp, gfTimes_gfExp]
    have := ih (pre ++ [x ^^^ y]) (gfTimes x (gfExp e)) (fun z hz => h z (by simp [hz]))
    simp only [List.length_append, List.length_singleton, List.append_assoc, List.singleton_append] at this
    simp only [multiplyRows, mapM_cons, mapM_nil, h1, h2, ok_bind, xorAt_append, List.length_cons,
      List.replicate_succ, xorInto, addScaled, BitVec.xor_zero]
    exact this

theorem multiply_linear (e : Int) {x : Byte} {xs : List Byte} (h : ∀ z ∈ x :: xs, z ≠ 0#8) :
    multiply (x :: xs) [1#8, gfExp e] = .ok (addScaled e 0#8 (x :: xs)) := by
  have hx := h x (by simp)
  have := multiplyRows_linear e (x :: xs) [] 0#8 h
  simp only [List.length_nil, List.nil_append] at this
  have hl : (x :: xs).length + [1#8, gfExp e].length - 1 = xs.length + 2 := by simp
  simp only [multiply, hl, List.replicate_succ]
  rw [List.length_cons, List.replicate_succ] at this
  rw [this]
  simp only [ok_bind, pure_eq_ok, addScaled, BitVec.xor_zero, canonical_of_ne _ _ hx, List.replicate_zero,
    List.append_nil]

theorem addScaled_length (e : Int) (xs : List Byte) (y : Byte) : (addScaled e y xs).length = xs.length + 1 := by
  induction xs generalizing y with
  | nil => rfl
  | cons x xs ih => simp [addScaled, ih]

theorem addScaled_getElem? (e : Int) (xs : List Byte) (y : Byte) (j : Nat) :
    (addScaled e y xs)[j]? = if j ≤ xs.length then
      some (xs.getD j 0#8 ^^^ (if j = 0 then y else gfTimes (xs.getD (j - 1) 0#8) (gfExp e))) else none := by
  induction xs generalizing y j with
  | nil => cases j <;> simp [addScaled]
  | cons x xs ih =>
    cases j with
    | zero => simp [addScaled]
    | succ j =>
      simp only [addScaled, List.getElem?_cons_succ, ih, List.length_cons, Nat.add_le_add_iff_right]
      cases j <;> simp

/-! ## The closed form -/

/-- The coefficients of gen(k), k up to 254. -/
def genCoeffs (k : Nat) : Poly := (List.range (k + 1)).map (fun j => gfExp (genLog k j))

theorem genCoeffs_length (k : Nat) : (genCoeffs k).length = k + 1 := by simp [genCoeffs]

theorem genCoeffs_getD {k j : Nat} (h : j ≤ k) : (genCoeffs k).getD j 0#8 = gfExp (genLog k j) := by
  simp [genCoeffs, List.getD, Nat.lt_succ_of_le h]

theorem genCoeffs_getD_above {k j : Nat} (h : k < j) : (genCoeffs k).getD j 0#8 = 0#8 := by
  rw [List.getD_eq_default _ _ (by rw [genCoeffs_length]; omega)]

theorem genCoeffs_ne_zero (k : Nat) : NoZero (genCoeffs k) := by
  intro x hx
  simp only [genCoeffs, List.mem_map] at hx
  obtain ⟨j, -, rfl⟩ := hx
  exact gfExp_ne_zero _

theorem genCoeffs_multiply (k : Nat) :
    multiply (genCoeffs k) [1#8, gfExp k] = .ok (addScaled k 0#8 (genCoeffs k)) := by
  have hz := genCoeffs_ne_zero k
  have hl := genCoeffs_length k
  cases hg : genCoeffs k with
  | nil => rw [hg] at hl; simp at hl
  | cons x xs => rw [hg] at hz; exact multiply_linear k hz

theorem genCoeffs_succ {k : Nat} (hk : k < 254) : addScaled k 0#8 (genCoeffs k) = genCoeffs (k + 1) := by
  apply List.ext_getElem?
  intro j
  rw [addScaled_getElem?, genCoeffs_length]
  by_cases hj : j ≤ k + 1
  · rw [if_pos hj]
    have : (genCoeffs (k + 1))[j]? = some (gfExp (genLog (k + 1) j)) := by
      simp [genCoeffs, Nat.lt_succ_of_le hj]
    rw [this]
    congr 1
    cases j with
    | zero => rw [genCoeffs_getD (Nat.zero_le k), if_pos rfl, BitVec.xor_zero]; rfl
    | succ j =>
      rw [if_neg (by omega), Nat.add_sub_cancel, genCoeffs_getD (by omega : j ≤ k), gfTimes_gfExp]
      by_cases hjk : j < k
      · rw [genCoeffs_getD (by omega), BitVec.xor_comm]; exact genLog_step hjk hk
      · have : j = k := by omega
        subst this
        rw [genCoeffs_getD_above (by omega), BitVec.zero_xor, genLog_succ]
        congr 1; ring
  · rw [if_neg hj, List.getElem?_eq_none (by rw [genCoeffs_length]; omega)]

theorem genFrom_genCoeffs (n i : Nat) (h : i + n ≤ 254) : genFrom n i (genCoeffs i) = .ok (genCoeffs (i + n)) := by
  induction n generalizing i with
  | zero => rfl
  | succ n ih =>
    rw [genFrom, genCoeffs_multiply, ok_bind, genCoeffs_succ (by omega), ih (i + 1) (by omega)]
    congr 2; omega

/-- gen(k) answers k + 1 nonzero coefficients, for k up to 254. -/
theorem gen_eq {k : Nat} (h : k ≤ 254) : gen k = .ok (genCoeffs k) := by
  have := genFrom_genCoeffs k 0 (by omega)
  rw [Nat.zero_add] at this
  rw [gen, ← this]
  congr 1

theorem genFrom_add (m n i : Nat) (g : Poly) :
    genFrom (m + n) i g = (genFrom m i g >>= fun g' => genFrom n (i + m) g') := by
  induction m generalizing i g with
  | zero => simp [genFrom]
  | succ m ih =>
    rw [Nat.succ_add, genFrom, genFrom]
    cases multiply g [1#8, gfExp i] with
    | error f => rfl
    | ok g' => simp only [ok_bind, ih]; congr 1; funext x; congr 1; omega

/-- gen(255) is 1, 254 zeros, 1. -/
theorem gen_255 : gen 255 = .ok (1#8 :: (List.replicate 254 0#8 ++ [1#8])) := by
  have e : gen 255 = .ok (addScaled 254 0#8 (genCoeffs 254)) := by
    have h := genFrom_add 254 1 0 [1#8]
    have h' : genFrom 254 0 [1#8] = .ok (genCoeffs 254) := gen_eq (Nat.le_refl 254)
    rw [h', ok_bind] at h
    rw [gen, h, genFrom]
    have := genCoeffs_multiply 254
    rw [show ((0 + 254 : Nat) : Int) = (254 : Nat) by decide, this]
    rfl
  rw [e]
  decide +kernel

end Sys2Proof.Machine
end

