-- ==== Sys2Proof/Laws/Layout.lean ====
section
/-! SUPPORT. Spec lemmas of the matrix layout engine: what a write of one cell changes, that each
placement keeps the grid's shape and the cells already set, what data placement does to a cell, and
which cells the zig-zag visits (43_matrix.md R191 to R211). -/

namespace Sys2Proof.Machine

variable {g : Grid} {n : Nat}

theorem Grid.Square.row_length (h : g.Square n) {r : Nat} (hr : r < n) : (g.getD r []).length = n := by
  have hlt : r < g.length := by rw [h.1]; exact hr
  rw [List.getD_eq_getElem?_getD, List.getElem?_eq_getElem hlt]
  exact h.2 _ (List.getElem_mem hlt)

theorem Grid.blank_square (n : Nat) : (Grid.blank n).Square n := by
  refine ⟨by simp [Grid.blank], fun row hrow => ?_⟩
  rw [Grid.blank, List.mem_replicate] at hrow
  simp [hrow.2]

theorem Grid.blank_get (n r c : Nat) : (Grid.blank n).get r c = .unset := by
  unfold Grid.get Grid.blank
  by_cases hr : r < n
  · rw [List.getD_eq_getElem?_getD (l := List.replicate n _), List.getElem?_replicate, if_pos hr]
    by_cases hc : c < n
    · simp [List.getD_eq_getElem?_getD, hc]
    · simp [List.getD_eq_getElem?_getD, hc]
  · rw [List.getD_eq_getElem?_getD (l := List.replicate n _), List.getElem?_replicate, if_neg hr]
    simp

theorem Grid.set_square (h : g.Square n) (r c : Nat) (x : Colour) : (g.set r c x).Square n := by
  refine ⟨by rw [Grid.set, List.length_modify]; exact h.1, fun row hrow => ?_⟩
  rw [Grid.set] at hrow
  obtain ⟨k, hk, rfl⟩ := List.mem_iff_getElem.1 hrow
  rw [List.getElem_modify]
  have hk' : k < g.length := by simpa using hk
  split
  · rw [List.length_set]; exact h.2 _ (List.getElem_mem hk')
  · exact h.2 _ (List.getElem_mem hk')

/-- What a write of one cell of an n by n grid does to every cell. -/
theorem Grid.get_set (h : g.Square n) (r c : Nat) (x : Colour) (i j : Nat) :
    (g.set r c x).get i j = if i = r ∧ j = c ∧ r < n ∧ c < n then x else g.get i j := by
  unfold Grid.get Grid.set
  rw [List.getD_eq_getElem?_getD (l := g.modify r _), List.getElem?_modify,
    List.getD_eq_getElem?_getD (l := g), Option.map_eq_map]
  by_cases hi : i < n
  · have hg : i < g.length := by rw [h.1]; exact hi
    have hlen : g[i].length = n := h.2 _ (List.getElem_mem hg)
    rw [List.getElem?_eq_getElem hg]
    by_cases hir : r = i
    · subst hir
      simp only [if_true, Option.map_some, Option.getD_some]
      rw [List.getD_eq_getElem?_getD, List.getElem?_set, List.getD_eq_getElem?_getD]
      by_cases hjc : c = j
      · subst hjc
        rw [if_pos rfl]
        by_cases hcn : c < n
        · rw [if_pos (by rw [hlen]; exact hcn), if_pos ⟨trivial, rfl, hi, hcn⟩]; rfl
        · rw [if_neg (by rw [hlen]; exact hcn), if_neg (by tauto),
            List.getElem?_eq_none (by rw [hlen]; omega)]
      · rw [if_neg hjc, if_neg (by rintro ⟨-, e, -⟩; exact hjc e.symm)]
    · rw [Option.map_some, if_neg hir, if_neg (by rintro ⟨e, -⟩; exact hir e.symm)]
  · have hg : g.length ≤ i := by rw [h.1]; omega
    rw [List.getElem?_eq_none hg, if_neg (by rintro ⟨e, -, hr, -⟩; omega)]
    simp

/-! ## Painting -/

theorem paint_square (h : g.Square n) (ws : List CellWrite) : (paint ws g).Square n := by
  induction ws generalizing g with
  | nil => exact h
  | cons w ws ih => exact ih (Grid.set_square h _ _ _)

/-- Cells no write names keep their value. -/
theorem paint_get_other (h : g.Square n) (ws : List CellWrite) {i j : Nat}
    (hn : ∀ w ∈ ws, ¬ (w.row = i ∧ w.col = j)) : (paint ws g).get i j = g.get i j := by
  induction ws generalizing g with
  | nil => rfl
  | cons w ws ih =>
    show (paint ws (g.put w)).get i j = _
    rw [ih (g := g.put w) (Grid.set_square h _ _ _) fun w' hw' => hn w' (by simp [hw'])]
    rw [Grid.put, Grid.get_set h, if_neg]
    rintro ⟨e1, e2, -⟩
    exact hn w (by simp) ⟨e1.symm, e2.symm⟩

/-- A cell of the grid that some write names takes the colour of one of the writes that name it. -/
theorem paint_get_mem (h : g.Square n) (ws : List CellWrite) {i j : Nat} (hi : i < n) (hj : j < n)
    (hm : ∃ w ∈ ws, w.row = i ∧ w.col = j) :
    ∃ w ∈ ws, w.row = i ∧ w.col = j ∧ (paint ws g).get i j = w.colour := by
  induction ws generalizing g with
  | nil => obtain ⟨w, hw, -⟩ := hm; simp at hw
  | cons w ws ih =>
    by_cases hrest : ∃ w' ∈ ws, w'.row = i ∧ w'.col = j
    · obtain ⟨w', hw', h1, h2, h3⟩ := ih (g := g.put w) (Grid.set_square h _ _ _) hrest
      exact ⟨w', by simp [hw'], h1, h2, h3⟩
    · obtain ⟨w', hw', h1, h2⟩ := hm
      rcases List.mem_cons.1 hw' with rfl | hw'
      · refine ⟨w', by simp, h1, h2, ?_⟩
        show (paint ws (g.put w')).get i j = _
        rw [paint_get_other (g := g.put w') (Grid.set_square h _ _ _) ws fun w'' hw'' e => hrest ⟨w'', hw'', e⟩,
          Grid.put, Grid.get_set h, if_pos ⟨h1.symm, h2.symm, by omega, by omega⟩]
      · exact absurd ⟨w', hw', h1, h2⟩ hrest

/-- Painting colours that are not Unset never unsets a cell. -/
theorem paint_keeps_set (h : g.Square n) (ws : List CellWrite) (hc : ∀ w ∈ ws, w.colour ≠ .unset)
    {i j : Nat} (hg : g.get i j ≠ .unset) : (paint ws g).get i j ≠ .unset := by
  induction ws generalizing g with
  | nil => exact hg
  | cons w ws ih =>
    refine ih (g := g.put w) (Grid.set_square h _ _ _) (fun w' hw' => hc w' (by simp [hw'])) ?_
    rw [Grid.put, Grid.get_set h]
    split
    · exact hc w (by simp)
    · exact hg

theorem darkIf_ne_unset (b : Bool) : darkIf b ≠ .unset := by cases b <;> decide

theorem putIfUnset_square (h : g.Square n) (w : CellWrite) : (g.putIfUnset w).Square n := by
  unfold Grid.putIfUnset
  split
  · exact Grid.set_square h _ _ _
  · exact h

theorem paintUnset_square (h : g.Square n) (ws : List CellWrite) : (paintUnset ws g).Square n := by
  induction ws generalizing g with
  | nil => exact h
  | cons w ws ih => exact ih (g := g.putIfUnset w) (putIfUnset_square h w)

/-- Writes to still-Unset cells leave every set cell as it is. -/
theorem paintUnset_get_of_set (h : g.Square n) (ws : List CellWrite) {i j : Nat} (hg : g.get i j ≠ .unset) :
    (paintUnset ws g).get i j = g.get i j := by
  induction ws generalizing g with
  | nil => rfl
  | cons w ws ih =>
    have h1 : (g.putIfUnset w).get i j = g.get i j := by
      unfold Grid.putIfUnset
      split
      · rename_i hu
        rw [Grid.put, Grid.get_set h, if_neg]
        rintro ⟨rfl, rfl, -⟩
        exact hg hu
      · rfl
    show (paintUnset ws (g.putIfUnset w)).get i j = _
    rw [ih (putIfUnset_square h w) (by rw [h1]; exact hg), h1]

/-- A cell that some write to a still-Unset cell names is set afterwards. -/
theorem paintUnset_sets (h : g.Square n) (ws : List CellWrite) (hc : ∀ w ∈ ws, w.colour ≠ .unset)
    {i j : Nat} (hi : i < n) (hj : j < n) (hm : ∃ w ∈ ws, w.row = i ∧ w.col = j) :
    (paintUnset ws g).get i j ≠ .unset := by
  induction ws generalizing g with
  | nil => obtain ⟨w, hw, -⟩ := hm; simp at hw
  | cons w ws ih =>
    show (paintUnset ws (g.putIfUnset w)).get i j ≠ _
    by_cases hset : (g.putIfUnset w).get i j = .unset
    · refine ih (putIfUnset_square h w) (fun w' hw' => hc w' (by simp [hw'])) ?_
      obtain ⟨w', hw', h1, h2⟩ := hm
      rcases List.mem_cons.1 hw' with rfl | hw'
      · exfalso
        unfold Grid.putIfUnset at hset
        split at hset
        · rw [Grid.put, Grid.get_set h, if_pos ⟨h1.symm, h2.symm, by omega, by omega⟩] at hset
          exact hc w' (by simp) hset
        · rename_i hu; rw [h1, h2] at hu; exact hu hset
      · exact ⟨w', hw', h1, h2⟩
    · rw [paintUnset_get_of_set (putIfUnset_square h w) ws hset]; exact hset

/-! ## Data placement -/

theorem placeBits_square (h : g.Square n) (m : BitVec 3) (ps : List (Nat × Nat)) (bits : List Bool) :
    (placeBits m ps bits g).Square n := by
  induction ps generalizing g bits with
  | nil => exact h
  | cons p ps ih =>
    rw [placeBits]
    split
    · exact ih (Grid.set_square h _ _ _) _
    · exact ih h _

/-- Data placement never touches a cell already set (43_matrix.md R211). -/
theorem placeBits_get_of_set (h : g.Square n) (m : BitVec 3) (ps : List (Nat × Nat)) (bits : List Bool)
    {i j : Nat} (hg : g.get i j ≠ .unset) : (placeBits m ps bits g).get i j = g.get i j := by
  induction ps generalizing g bits with
  | nil => rfl
  | cons p ps ih =>
    rw [placeBits]
    split
    · rename_i hu
      have h1 : (g.set p.1 p.2 (darkIf (xor (bits.headD false) (maskfn m p.1 p.2)))).get i j = g.get i j := by
        rw [Grid.get_set h, if_neg]
        rintro ⟨rfl, rfl, -⟩
        exact hg hu
      rw [ih (Grid.set_square h _ _ _) _ (by rw [h1]; exact hg), h1]
    · exact ih h _ hg

/-- Data placement sets every cell it visits (43_matrix.md R211, R216). -/
theorem placeBits_sets (h : g.Square n) (m : BitVec 3) (ps : List (Nat × Nat)) (bits : List Bool)
    {i j : Nat} (hi : i < n) (hj : j < n) (hm : (i, j) ∈ ps) :
    (placeBits m ps bits g).get i j ≠ .unset := by
  induction ps generalizing g bits with
  | nil => simp at hm
  | cons p ps ih =>
    rw [placeBits]
    split
    · by_cases hp : p = (i, j)
      · subst hp
        have h1 : (g.set i j (darkIf (xor (bits.headD false) (maskfn m i j)))).get i j ≠ .unset := by
          rw [Grid.get_set h, if_pos ⟨rfl, rfl, hi, hj⟩]
          exact darkIf_ne_unset _
        rw [placeBits_get_of_set (Grid.set_square h _ _ _) m ps _ h1]
        exact h1
      · rcases List.mem_cons.1 hm with e | hm
        · exact absurd e.symm hp
        · exact ih (Grid.set_square h _ _ _) _ hm
    · rename_i hs
      by_cases hp : p = (i, j)
      · subst hp
        rw [placeBits_get_of_set h m ps _ hs]
        exact hs
      · rcases List.mem_cons.1 hm with e | hm
        · exact absurd e.symm hp
        · exact ih h _ hm

/-! ## The zig-zag -/

theorem mem_sweepPair (n : Nat) (up : Bool) (right r c : Nat) :
    (r, c) ∈ sweepPair n up right ↔ r < n ∧ (c = right ∨ c = right - 1) := by
  have h : (∃ a < n, r = a ∧ c = right ∨ r = a ∧ c = right - 1) ↔ r < n ∧ (c = right ∨ c = right - 1) :=
    ⟨fun ⟨a, ha, e⟩ => by omega, fun ⟨hr, e⟩ => ⟨r, hr, by omega⟩⟩
  cases up <;> simpa [sweepPair, sweepRows] using h

theorem mem_zigzagFrom (n : Nat) (up : Bool) (cols : List Nat) (r c : Nat) :
    (r, c) ∈ zigzagFrom n up cols ↔ r < n ∧ ∃ right ∈ cols, c = right ∨ c = right - 1 := by
  induction cols generalizing up with
  | nil => simp [zigzagFrom]
  | cons right cols ih =>
    rw [zigzagFrom, List.mem_append, mem_sweepPair, ih]
    simp only [List.mem_cons, exists_eq_or_imp]
    exact and_or_left.symm

/-- The right columns from an even column on: the even columns above 6, then 5, 3 and 1. -/
theorem mem_pairColumns (k : Nat) : ∀ fuel col : Nat, col = 2 * k → k + 1 ≤ fuel → ∀ x : Nat,
    x ∈ pairColumns fuel col ↔ (x % 2 = 0 ∧ 6 < x ∧ x ≤ col) ∨ (6 ≤ col ∧ (x = 5 ∨ x = 3 ∨ x = 1))
      ∨ (col < 6 ∧ x % 2 = 0 ∧ 0 < x ∧ x ≤ col) := by
  induction k with
  | zero =>
    intro fuel col hc hf x
    obtain ⟨f, rfl⟩ := Nat.exists_eq_add_of_le' hf
    subst hc
    simp [pairColumns]
    omega
  | succ k ih =>
    intro fuel col hc hf x
    obtain ⟨f, rfl⟩ := Nat.exists_eq_add_of_le' (show 1 ≤ fuel by omega)
    rw [pairColumns, if_neg (by omega)]
    by_cases h6 : col = 6
    · subst h6
      obtain ⟨f', rfl⟩ := Nat.exists_eq_add_of_le' (show 3 ≤ f by omega)
      simp [pairColumns]
    · simp only [if_neg h6, List.mem_cons]
      rw [ih f (col - 2) (by omega) (by omega) x]
      omega

/-- The zig-zag of an odd grid visits exactly the cells outside column 6 (43_matrix.md R211). -/
theorem mem_zigzag {n : Nat} (hodd : n % 2 = 1) (hn : 9 ≤ n) (r c : Nat) :
    (r, c) ∈ zigzag n ↔ r < n ∧ c < n ∧ c ≠ 6 := by
  unfold zigzag
  rw [mem_zigzagFrom]
  have hcol := mem_pairColumns ((n - 1) / 2) n (n - 1) (by omega) (by omega)
  constructor
  · rintro ⟨hr, right, hright, hc⟩
    have := (hcol right).1 hright
    exact ⟨hr, by omega, by omega⟩
  · rintro ⟨hr, hc, h6⟩
    refine ⟨hr, ?_⟩
    by_cases h : 6 < c
    · by_cases he : c % 2 = 0
      · exact ⟨c, (hcol c).2 (by omega), .inl rfl⟩
      · exact ⟨c + 1, (hcol (c + 1)).2 (by omega), .inr (by omega)⟩
    · by_cases he : c % 2 = 1
      · exact ⟨c, (hcol c).2 (by omega), .inl rfl⟩
      · exact ⟨c + 1, (hcol (c + 1)).2 (by omega), .inr (by omega)⟩

/-! ## The store -/

/-- A cell of the corner just written is the build's (10_state.md R39). -/
theorem overlay_cell? {new old : Grid} {r c : Nat} (hr : r < new.length)
    (hc : c < (new.getD r []).length) : Grid.cell? (new.overlay old) r c = Grid.cell? new r c := by
  induction new generalizing old r with
  | nil => simp at hr
  | cons x new ih =>
    cases old with
    | nil =>
      rw [Grid.overlay]
      cases r with
      | zero => rfl
      | succ r => exact ih (old := []) (by simpa using hr) (by simpa using hc)
    | cons o old =>
      rw [Grid.overlay]
      cases r with
      | zero =>
        simp only [List.getD_cons_zero] at hc
        simp [Grid.cell?, List.getElem?_append_left hc]
      | succ r => exact ih (old := old) (by simpa using hr) (by simpa using hc)

/-- A square grid lists each of its cells. -/
theorem Grid.cell?_eq_get (h : g.Square n) {r c : Nat} (hr : r < n) (hc : c < n) :
    Grid.cell? g r c = some (g.get r c) := by
  have hg : r < g.length := by rw [h.1]; exact hr
  have hl : c < g[r].length := by rw [h.2 _ (List.getElem_mem hg)]; exact hc
  unfold Grid.cell? Grid.get
  rw [List.getElem?_eq_getElem hg, Option.bind_some, List.getElem?_eq_getElem hl,
    List.getD_eq_getElem?_getD (l := g), List.getElem?_eq_getElem hg, Option.getD_some,
    List.getD_eq_getElem?_getD, List.getElem?_eq_getElem hl, Option.getD_some]

end Sys2Proof.Machine
end

