-- ==== Sys2Proof/Laws/PerInstr.lean ====
section
/-! SUPPORT. A statement made for every command, one lemma a constructor: a command's word matches the
row of the opcode map that is the command's own. -/

namespace Sys2Proof.Laws.RowMatch

/-- A well-formed command's word has its opcode in the bits its format fixes and zeros in the format's
must-be-zero bits (30_encoding.md R91, R95). -/
def Statement (i : Instr) : Prop := i.WellFormed → encode i &&& i.format.mask = i.opcode.setWidth 32

theorem nop : Statement .nop := fun _ => by decide
theorem gfLog : Statement .gfLog := fun _ => by decide
theorem gfExp : Statement .gfExp := fun _ => by decide
theorem polyMul : Statement .polyMul := fun _ => by decide
theorem rsLookup : Statement .rsLookup := fun _ => by decide
theorem segEncode : Statement .segEncode := fun _ => by decide
theorem cwBuild : Statement .cwBuild := fun _ => by decide
theorem bchFmt : Statement .bchFmt := fun _ => by decide
theorem bchVer : Statement .bchVer := fun _ => by decide
theorem matScore : Statement .matScore := fun _ => by decide
theorem maskSelect : Statement .maskSelect := fun _ => by decide
theorem symFinal : Statement .symFinal := fun _ => by decide
theorem symEncode : Statement .symEncode := fun _ => by decide
theorem symQuery : Statement .symQuery := fun _ => by decide

theorem polyMod (k : Nat) : Statement (.polyMod k) := fun h => by
  have h256 : k < 256 := by simpa [Instr.WellFormed, Instr.wellFormed] using h
  have all : ∀ j : Fin 256, encode (.polyMod j.val) &&& Format.fa.mask = (Instr.polyMod 0).opcode.setWidth 32 := by
    decide +kernel
  exact all ⟨k, h256⟩

theorem polyGen (k : Nat) : Statement (.polyGen k) := fun h => by
  have h256 : k < 256 := by simpa [Instr.WellFormed, Instr.wellFormed] using h
  have all : ∀ j : Fin 256, encode (.polyGen j.val) &&& Format.fa.mask = (Instr.polyGen 0).opcode.setWidth 32 := by
    decide +kernel
  exact all ⟨k, h256⟩

theorem rsEcc (k : Nat) : Statement (.rsEcc k) := fun h => by
  have h256 : k < 256 := by simpa [Instr.WellFormed, Instr.wellFormed] using h
  have all : ∀ j : Fin 256, encode (.rsEcc j.val) &&& Format.fa.mask = (Instr.rsEcc 0).opcode.setWidth 32 := by
    decide +kernel
  exact all ⟨k, h256⟩

theorem maskEval (k : Nat) : Statement (.maskEval k) := fun h => by
  have h256 : k < 256 := by simpa [Instr.WellFormed, Instr.wellFormed] using h
  have all : ∀ j : Fin 256, encode (.maskEval j.val) &&& Format.fa.mask = (Instr.maskEval 0).opcode.setWidth 32 := by
    decide +kernel
  exact all ⟨k, h256⟩

theorem matBuild (m : Nat) (t : Bool) : Statement (.matBuild m t) := fun h => by
  have h256 : m < 256 := by simpa [Instr.WellFormed, Instr.wellFormed] using h
  have all : ∀ (j : Fin 256) (b : Bool),
      encode (.matBuild j.val b) &&& Format.fab.mask = (Instr.matBuild 0 false).opcode.setWidth 32 := by
    decide +kernel
  exact all ⟨m, h256⟩ t

end Sys2Proof.Laws.RowMatch
end

