-- ==== Sys2Proof/Tests/Slice0.lean ====
section
/-! SUPPORT. The model's own tests: the well-formedness smoke test, one word written out from the spec's
encoding for every command, at most two single-step tests a command (expected values from
95_test_vectors.md), and a witness for the hypotheses of every obligation that has some. -/

namespace Sys2Proof.Tests

open Sys2Proof Sys2Proof.Machine

-- One declaration at a time: the kernel evaluations below would otherwise hold a thread each.
set_option Elab.async false

/-! ## Helpers -/

/-- The step answered a next state, and the property holds of it. -/
def after (o : Host.Outcome State Fault Refusal) (p : State → Bool) : Bool :=
  match o with
  | .next t => p t
  | .fault f => nomatch f
  | .refused _ => false

/-- One step with the word placed as the next command. -/
def run (s : State) (w : Nat) (p : State → Bool) : Bool := after (step (s.withFetchWord 32 w)) p

/-- The command failed with this ERRCODE and ERRINFO. -/
def failedWith (code : BitVec 4) (info : Word) (t : State) : Bool :=
  t.err && t.done && t.errcode == code && t.errinfo == info && t.seq == .idle

/-- The bytes from an address on that a write since reset has set. -/
def bytesAt (t : State) (a n : Nat) : List (Option Byte) := (List.range n).map (fun k => t.mem.read? (a + k))

/-- A state with polynomials in PA and PB. -/
def polys (a b : List Byte) : State :=
  { State.reset with
    mem := Memory.write 0x2100 b (Memory.write 0x2000 a []),
    la := BitVec.ofNat 9 a.length, lb := BitVec.ofNat 9 b.length }

/-- A state with one argument register set. -/
def arg (x : Word) : State := { State.reset with arg0 := x }

/-- A state with a payload, a version and a level. -/
def payload (p : List Byte) (v l : Nat) : State :=
  { State.reset with
    mem := Memory.write 0x1000 p [], plen := BitVec.ofNat 16 p.length,
    cfgVersion := BitVec.ofNat 6 v, cfgLevel := BitVec.ofNat 2 l }

/-- The data codewords of `QRC` at 1-M (95_test_vectors.md 2.7). -/
def dataQrc : List Byte := [64, 53, 21, 36, 48, 236, 17, 236, 17, 236, 17, 236, 17, 236, 17, 236]

/-- The codewords of `QRC` at 1-M (95_test_vectors.md 2.7). -/
def wordsQrc : List Byte := dataQrc ++ [55, 125, 161, 162, 72, 15, 151, 226, 218, 196]

/-- Stage SEG valid with the data codewords of `QRC`. -/
def segQrc : State :=
  { State.reset with mem := Memory.write 0x3000 dataQrc [], cfgVersion := 1#6, seg := some ⟨16#12, 1#6, 0#2⟩ }

/-- Stages SEG and CW valid with the codewords of `QRC`. -/
def cwQrc : State :=
  { segQrc with mem := Memory.write 0x4000 wordsQrc segQrc.mem, cw := some ⟨26#12, 1#6, 0#2⟩ }

/-- Stages SEG, CW and SEL valid, mask 4. -/
def selQrc : State := { cwQrc with sel := some 4#3 }

/-- A version 1 symbol, all cells Light. -/
def lightSymbol : State :=
  { cwQrc with mat := List.replicate 21 (List.replicate 21 .light), sym := some ⟨1#6, 0#2, 0#3, false⟩ }

/-- A command in progress with k host turns left. -/
def busy (w : Word) (k : Nat) : State := { State.reset with cmd := w, seq := .busy, wait := k }

/-! ## Well-formedness: the check refuses an operand beyond its field -/

theorem test_wf_polyMod : (Instr.polyMod 255).wellFormed = true ∧ (Instr.polyMod 256).wellFormed = false := by decide
theorem test_wf_polyGen : (Instr.polyGen 255).wellFormed = true ∧ (Instr.polyGen 256).wellFormed = false := by decide
theorem test_wf_rsEcc : (Instr.rsEcc 255).wellFormed = true ∧ (Instr.rsEcc 256).wellFormed = false := by decide
theorem test_wf_maskEval : (Instr.maskEval 255).wellFormed = true ∧ (Instr.maskEval 256).wellFormed = false := by decide
theorem test_wf_matBuild :
    (Instr.matBuild 255 true).wellFormed = true ∧ (Instr.matBuild 256 true).wellFormed = false := by decide

/-! ## Decoding: a word for every command, bits 31..24 reserved, 23..16 FB, 15..8 FA, 7..0 OP
(30_encoding.md R91, R94) -/

theorem test_decode_nop : decode 0b00000000_00000000_00000000_00000000#32 = .ok .nop := by decide
theorem test_decode_gfLog : decode 0b00000000_00000000_00000000_00010000#32 = .ok .gfLog := by decide
theorem test_decode_gfExp : decode 0b00000000_00000000_00000000_00010001#32 = .ok .gfExp := by decide
theorem test_decode_polyMul : decode 0b00000000_00000000_00000000_00011000#32 = .ok .polyMul := by decide
theorem test_decode_polyMod : decode 0b00000000_00000000_11110001_00011001#32 = .ok (.polyMod 0xF1) := by decide
theorem test_decode_polyGen : decode 0b00000000_00000000_00001010_00011010#32 = .ok (.polyGen 10) := by decide
theorem test_decode_rsLookup : decode 0b00000000_00000000_00000000_00100000#32 = .ok .rsLookup := by decide
theorem test_decode_rsEcc : decode 0b00000000_00000000_00011110_00100001#32 = .ok (.rsEcc 30) := by decide
theorem test_decode_segEncode : decode 0b00000000_00000000_00000000_00100010#32 = .ok .segEncode := by decide
theorem test_decode_cwBuild : decode 0b00000000_00000000_00000000_00100011#32 = .ok .cwBuild := by decide
theorem test_decode_bchFmt : decode 0b00000000_00000000_00000000_00110000#32 = .ok .bchFmt := by decide
theorem test_decode_bchVer : decode 0b00000000_00000000_00000000_00110001#32 = .ok .bchVer := by decide
theorem test_decode_maskEval : decode 0b00000000_00000000_10000001_01000000#32 = .ok (.maskEval 0x81) := by decide
theorem test_decode_matBuild : decode 0b00000000_00000001_00000011_01000001#32 = .ok (.matBuild 3 true) := by decide
theorem test_decode_matScore : decode 0b00000000_00000000_00000000_01000010#32 = .ok .matScore := by decide
theorem test_decode_maskSelect : decode 0b00000000_00000000_00000000_01000011#32 = .ok .maskSelect := by decide
theorem test_decode_symFinal : decode 0b00000000_00000000_00000000_01000100#32 = .ok .symFinal := by decide
theorem test_decode_symEncode : decode 0b00000000_00000000_00000000_01010000#32 = .ok .symEncode := by decide
theorem test_decode_symQuery : decode 0b00000000_00000000_00000000_01010001#32 = .ok .symQuery := by decide

/-- FB = 2 in MAT.BUILD's word is a nonzero reserved bit (95_test_vectors.md 2.5); so is FA in NOP's. -/
theorem test_decode_reserved :
    decode 0x00020341#32 = .error (.nonzeroReserved 0x41#8) ∧ decode 0x00000100#32 = .error (.nonzeroReserved 0x00#8) := by
  decide

theorem test_encode_matBuild : encode (.matBuild 3 true) = 0x00010341#32 := by decide

/-! ## One step a command (expected values: 95_test_vectors.md) -/

/-- An illegal word: IllegalCommand, ERRINFO the opcode byte (2.5, 2.8). -/
theorem test_illegal : run State.reset 0x00020341 (failedWith 6#4 0x00000041#32) = true := by decide
theorem test_nop : run (arg 5#32) 0x00000000 (fun t => t.statusWord == 0x00000002#32 && t.arg0 == 5#32) = true := by decide
theorem test_gfLog : run (arg 3#32) 0x00000010 (fun t => t.res[0] == 25#32) = true := by decide
theorem test_gfLog_256 : run (arg 256#32) 0x00000010 (failedWith 4#4 0x00000010#32) = true := by decide
theorem test_gfExp_wraps : run (arg 0x0000012C#32) 0x00000011 (fun t => t.res[0] == 193#32) = true := by decide
theorem test_gfExp_negative : run (arg 0x80000000#32) 0x00000011 (fun t => t.res[0] == 204#32) = true := by decide
theorem test_polyMul : run (polys [0, 0, 1, 1] [0, 1, 2]) 0x00000018
    (fun t => bytesAt t 0x2200 4 == [some 1, some 3, some 2, some 0] && t.lr == 3#9) = true := by decide +kernel
theorem test_polyMul_zero : run (polys [1, 0, 1] [1]) 0x00000018 (failedWith 4#4 0x00000018#32) = true := by decide +kernel
theorem test_polyMod_shift : run (polys [5] [1, 2, 3]) 0x00000219
    (fun t => bytesAt t 0x2200 3 == [some 10, some 15, some 0] && t.lr == 2#9) = true := by decide +kernel
theorem test_polyMod_zero : run (polys [1, 2] []) 0x00000019 (failedWith 4#4 0x00000019#32) = true := by decide +kernel
theorem test_polyGen : run State.reset 0x0000071A
    (fun t => bytesAt t 0x2200 9 ==
      [some 1, some 127, some 122, some 154, some 164, some 11, some 68, some 117, some 0] && t.lr == 8#9) = true := by
  decide +kernel
theorem test_rsLookup : run (payload [] 5 3) 0x00000020 (fun t => t.res.toList ==
    [0x000F2102#32, 0x00102202#32, 62#32, 134#32, 4#32, 18#32, 0#32, 0#32]) = true := by decide +kernel
theorem test_rsLookup_version : run (payload [] 41 0) 0x00000020 (failedWith 3#4 0x00002920#32) = true := by decide +kernel
theorem test_rsEcc : run (polys [0x10, 0x20, 0x0C, 0x56, 0x61, 0x80, 0xEC, 0x11, 0xEC, 0x11, 0xEC, 0x11, 0xEC, 0x11,
      0xEC, 0x11] []) 0x00000A21
    (fun t => bytesAt t 0x2200 11 == [some 0xA5, some 0x24, some 0xD4, some 0xC1, some 0xED, some 0x36, some 0xC7,
      some 0x87, some 0x2C, some 0x55, some 0] && t.lr == 10#9) = true := by decide +kernel
theorem test_rsEcc_length : run { State.reset with la := 300#9 } 0x00000A21 (failedWith 8#4 0x00012C21#32) = true := by
  decide +kernel
theorem test_segEncode : run (payload [0x51, 0x52, 0x43] 1 0) 0x00000022
    (fun t => bytesAt t 0x3000 17 == dataQrc.map some ++ [some 0] && t.res[0] == 36#32 && t.res[1] == 16#32
      && t.dinfoWord == 0x00010010#32) = true := by decide +kernel
theorem test_segEncode_capacity : run { payload [] 1 2 with plen := 8#16 } 0x00000022
    (fun t => failedWith 1#4 0x00004C22#32 t && t.seg == none) = true := by decide +kernel
theorem test_cwBuild : run segQrc 0x00000023
    (fun t => bytesAt t 0x4000 27 == wordsQrc.map some ++ [some 0] && t.res[0] == 26#32
      && t.cinfoWord == 0x0001001A#32) = true := by decide +kernel
theorem test_cwBuild_notReady : run State.reset 0x00000023 (failedWith 7#4 0x00000023#32) = true := by decide
theorem test_bchFmt : run (arg 0xFFFFFFE8#32) 0x00000030 (fun t => t.res[0] == 0x77C4#32) = true := by decide +kernel
theorem test_bchVer : run (arg 7#32) 0x00000031 (fun t => t.res[0] == 0x07C94#32) = true := by decide +kernel
theorem test_maskEval : run { arg 0x100#32 with arg1 := 0x203#32 } 0x00000040 (fun t => t.res[0] == 0#32) = true := by
  decide +kernel
theorem test_maskEval_8 : run State.reset 0x00000840 (failedWith 5#4 0x00000840#32) = true := by decide +kernel
/-- The cell (0, 8) of the final matrix of `QRC` is Dark, (8, 1) Light, and SYMINFO describes it (2.7). -/
theorem test_matBuild : run cwQrc 0x00000441
    (fun t => t.matCell 0 8 == .dark && t.matCell 8 1 == .light && t.syminfoWord == 0x00154001#32) = true := by
  decide +kernel
theorem test_matBuild_8 : run cwQrc 0x00010841
    (fun t => failedWith 5#4 0x00000841#32 t && t.sym == none) = true := by decide +kernel
/-- 21 by 21 all Light (2.6). -/
theorem test_matScore : run lightSymbol 0x00000042
    (fun t => t.res.toList == [3466#32, 2166#32, 1200#32, 0#32, 100#32, 0#32, 0#32, 0#32]) = true := by decide +kernel
/-- SVALID set, MSTATE EMPTY after MASK.SELECT (44_mask_symbol.md R241). -/
theorem test_maskSelect : run { cwQrc with sym := some ⟨1#6, 0#2, 0#3, false⟩ } 0x00000043
    (fun t => t.sel.isSome && t.sym == none && t.done && !t.err) = true := by decide +kernel
/-- The trial penalties of `Hello World!` and of `QRC` select masks 2 and 4 (1.9, 2.7). -/
theorem test_bestMask : bestMask [2152, 2139, 1908, 2031, 2032, 2026, 2130, 1961] = 2
    ∧ bestMask [1321, 1523, 1171, 1189, 1131, 1312, 1346, 1254] = 4 ∧ bestMask [5, 3, 3, 9] = 1 := by decide
/-- Row 20 of the final matrix of `QRC`, columns 12 to 20 (2.7): `###...#.#`. -/
theorem test_symFinal : run selQrc 0x00000044
    (fun t => (List.range 9).map (fun k => t.matCell 20 (12 + k)) ==
        [.dark, .dark, .dark, .light, .light, .light, .dark, .light, .dark]
      && t.statusWord == 0x00270002#32) = true := by decide +kernel
theorem test_symFinal_notReady : run cwQrc 0x00000044 (failedWith 7#4 0x00000044#32) = true := by decide +kernel
theorem test_symEncode : run (payload [0x51, 0x52, 0x43] 1 0) 0x00000050
    (fun t => bytesAt t 0x4000 26 == wordsQrc.map some && t.sel.isSome
      && t.sym.any (fun i => i.version == 1#6 && !i.trial)) = true := by decide +kernel
theorem test_symEncode_version : run State.reset 0x00000050 (failedWith 3#4 0x00000050#32) = true := by decide
/-- A query below the top row (1.7). -/
theorem test_symQuery_out : run { lightSymbol with arg0 := 0xFFFFFFFF#32 } 0x00000051
    (fun t => failedWith 2#4 0x00000051#32 t && t.sym.isSome) = true := by decide
theorem test_symQuery : run { lightSymbol with arg0 := 20#32, arg1 := 20#32, res := Vector.replicate 8 7#32 } 0x00000051
    (fun t => t.res[0] == 0#32 && t.res[1] == 7#32) = true := by decide

/-! ## The bus and the interleaver -/

/-- A write while BUSY sets OVERRUN, writing 1 to STATUS bit 3 clears it (20_memory.md R66). -/
theorem test_overrun : ((busy 0#32 1).hostWrite 0x018 .b4 5#32).overrun = true
    ∧ ((busy 0#32 1).hostWrite 0x018 .b4 5#32).arg0 = 0#32
    ∧ (((busy 0#32 1).hostWrite 0x018 .b4 5#32).hostWrite 0x008 .b4 8#32).overrun = false := by decide

/-- Every write while BUSY but to STATUS sets OVERRUN, one of the wrong size or alignment too
(70_reset_and_hazards.md R301). -/
theorem test_overrun_misaligned : ((busy 0#32 1).hostWrite 0x018 .b1 5#32).overrun = true
    ∧ ((busy 0#32 1).hostWrite 0x1001 .b4 5#32).overrun = true
    ∧ (State.reset.hostWrite 0x1001 .b4 5#32) = State.reset := by decide

/-- A halfword written to PBUF reads back byte by byte, low byte first (20_memory.md R62). -/
theorem test_little_endian : (State.reset.hostWrite 0x1002 .b2 0xBEEF#32).memRead 0x1002 .b1 = 0xEF#32
    ∧ (State.reset.hostWrite 0x1002 .b2 0xBEEF#32).memRead 0x1003 .b1 = 0xBE#32 := by decide

/-- The first cells of data placement go up the two rightmost columns, right cell first (43_matrix.md R211). -/
theorem test_zigzag : (zigzag 21).take 4 = [(20, 20), (20, 19), (19, 20), (19, 19)] := by decide +kernel

/-- A short block is skipped where it has no codeword (90_conflicts.md C7). -/
theorem test_interleave : interleave [[1, 2], [3, 4, 5]] = [1, 3, 2, 4, 5] := by decide

/-! ## Witnesses: the hypotheses of every obligation are met together -/

/-- The access is one the map admits, as HostWriteRule and HostReadRule assume. -/
abbrev Admits (a : Nat) (n : AccessSize) : Prop :=
  (a < 0x100 → n = .b4 ∧ a % 4 = 0) ∧ ((regionOf a).isSome = true → a % n.bytes = 0)

theorem witness_DecodeEncode : (Instr.matBuild 7 true).WellFormed ∧ (Instr.polyMod 255).WellFormed := by decide
theorem witness_DecodeByRows : opcodeTable.any (fun r => r.selects 0x0000FF19#32) = true
    ∧ opcodeTable.any (fun r => r.selects 0x00010341#32) = true := by decide
theorem witness_EncodeDecode : decode 0x00010341#32 = .ok (.matBuild 3 true) := by decide
theorem witness_IllegalWordFails : (busy 0x24#32 0).seq = .busy ∧ (busy 0x24#32 0).wait = 0
    ∧ decode (busy 0x24#32 0).cmd = .error (.unassignedOpcode 0x24#8) := by decide
theorem witness_StepRunsDecoded : (busy 0x10#32 0).seq = .busy ∧ (busy 0x10#32 0).wait = 0
    ∧ decode (busy 0x10#32 0).cmd = .ok .gfLog ∧ State.reset.seq = .idle
    ∧ (busy 0x10#32 3).seq = .busy ∧ (busy 0x10#32 3).wait = 2 + 1 := by decide
theorem witness_FetchWordRuns : decodeTableWord 32 0x51 = some .symQuery ∧ State.reset.seq = .idle := by decide
theorem witness_HostWriteRule : State.reset.seq = .idle ∧ (busy 0#32 1).seq = .busy
    ∧ (∀ a ∈ [0x000, 0x004, 0x008, 0x010, 0x014, 0x018, 0x01C, 0x020, 0x024, 0x0FC], Admits a .b4)
    ∧ (∀ a ∈ [0x100, 0x1000, 0x1FFF, 0x2000, 0x21FF, 0x2200, 0x4FFF, 0x5000], Admits a .b1)
    ∧ (∀ a ∈ [0x1000, 0x1FFC, 0x21FC, 0x2200, 0x4FFC, 0x5001, 0xFFFF], Admits a .b4) := by decide
theorem witness_HostReadRule : State.reset.seq = .idle ∧ (busy 0#32 1).seq = .busy
    ∧ (∀ a ∈ [0x000, 0x004, 0x008, 0x00C, 0x010, 0x014, 0x018, 0x01C, 0x020, 0x024, 0x028, 0x02C, 0x030, 0x034,
        0x038, 0x03C, 0x040, 0x05C, 0x060, 0x0FC], Admits a .b4)
    ∧ 0x040 = 0x040 + 4 * (0 : Fin 8).val ∧ 0x05C = 0x040 + 4 * (7 : Fin 8).val
    ∧ Admits 0x1000 .b1 ∧ (regionOf 0x1000).isSome = true ∧ Admits 0x4FFF .b1 ∧ (regionOf 0x4FFF).isSome = true
    ∧ Admits 0x0FFD .b4 ∧ regionOf 0x0FFD = none ∧ regionOf 0x100 = none := by decide
theorem witness_UnadmittedAccess : (0x000 < 0x100 ∧ ¬ (AccessSize.b1 = .b4 ∧ 0x000 % 4 = 0))
    ∧ (0x0FF < 0x100 ∧ ¬ (AccessSize.b4 = .b4 ∧ 0x0FF % 4 = 0))
    ∧ ((regionOf 0x1001).isSome = true ∧ 0x1001 % AccessSize.b2.bytes ≠ 0)
    ∧ ((regionOf 0x4FFE).isSome = true ∧ 0x4FFE % AccessSize.b4.bytes ≠ 0)
    ∧ (0x008 < 0x100 ∧ ¬ (AccessSize.b1 = .b4 ∧ 0x008 % 4 = 0))
    ∧ State.reset.seq = .idle ∧ (busy 0#32 1).seq = .busy := by decide
theorem witness_WritesReadBack : State.reset.seq = .idle ∧ regionOf 0x1000 = some .pbuf ∧ regionOf 0x1FFC = some .pbuf
    ∧ regionOf 0x20FF = some .pa ∧ regionOf 0x21FE = some .pb ∧ Region.pb.hostWritable = true
    ∧ 0x1FFC % AccessSize.b4.bytes = 0 ∧ 0x21FE % AccessSize.b2.bytes = 0 := by decide
theorem witness_StatusWordLayout : 0 < 32 ∧ 31 < 32 := by decide
theorem witness_InfoWordsLayout : State.reset.seg = none ∧ State.reset.cw = none ∧ State.reset.sel = none
    ∧ State.reset.sym = none ∧ selQrc.sel = some 4#3 ∧ selQrc.seg = some ⟨16#12, 1#6, 0#2⟩
    ∧ selQrc.cw = some ⟨26#12, 1#6, 0#2⟩ ∧ lightSymbol.sym = some ⟨1#6, 0#2, 0#3, false⟩
    ∧ LegalVersion 1#6 ∧ LegalVersion 40#6 := by
  simp only [LegalVersion]; decide
theorem witness_ResetValues : 0 < 0x100 ∧ 0 % 4 = 0 ∧ 0x0FC < 0x100 ∧ 0x0FC % 4 = 0 := by decide
theorem witness_ResetTakesItsTurn : ({ busy 0x50#32 1 with hostQ := [.reset] } : State).hostQ = .reset :: []
    ∧ ({ busy 0x50#32 1 with hostQ := [.reset] } : State).wait ≠ 0
    ∧ ({ State.reset with hostQ := [.reset] } : State).seq = .idle
    ∧ ({ busy 0x50#32 0 with hostQ := [.reset] } : State).seq = .busy
    ∧ ({ busy 0x50#32 0 with hostQ := [.reset] } : State).wait = 0 := by decide
theorem witness_ExpLogTables : 7 < 8 ∧ 8 ≤ 255 ∧ 255 < 256 ∧ 254 < 255 := by decide
theorem witness_FieldLaws : (1 : Int) ≤ 255 ∧ (255 : Int) ≤ 255 := by decide
theorem witness_NopEffect : (0x100#32).toNat % 2 ^ 8 = 0 ∧ 0x100#32 ≠ 0#32 ∧ State.reset.seq = .idle := by decide
theorem witness_GfLogEffect : (arg 1#32).arg0.toInt = 1 ∧ (arg 255#32).arg0.toInt = 255 ∧ (arg 0#32).arg0.toInt = 0
    ∧ (arg 256#32).arg0.toInt = 256 ∧ (arg 0xFFFFFFFF#32).arg0.toInt = -1 := by decide
theorem witness_PolyMulCompletes : (polys [1, 2] [3]).la.toNat ≤ 256 ∧ (polys [1, 2] [3]).lb.toNat ≤ 256
    ∧ canonical (polys [1, 2] [3]).rawA 0 = [1, 2] ∧ canonical (polys [1, 2] [3]).rawB 0 = [3]
    ∧ NoZero [1, 2] ∧ NoZero [3] ∧ [1, 2].length + [3].length ≤ 257
    ∧ canonical (polys [0] [1, 0, 1]).rawA 0 = [] := by
  simp only [NoZero]; decide +kernel
theorem witness_PolyModCompletes : (polys [5] [1, 2]).la.toNat ≤ 256 ∧ (polys [5] [1, 2]).lb.toNat ≤ 256
    ∧ canonical (polys [5] [1, 2]).rawA 3 = [5, 0, 0, 0] ∧ canonical (polys [5] [1, 2]).rawB 0 = [1, 2]
    ∧ [1, 2] ≠ ([] : Poly) ∧ NoZero [1, 2]
    ∧ (canonical (polys [5] [1, 0, 2]).rawA 0).length < (canonical (polys [5] [1, 0, 2]).rawB 0).length := by
  simp only [NoZero]; decide +kernel
theorem witness_ModIsRemainder : Canonical [1, 0, 0] ∧ Canonical [1, 1] ∧ polyMod [1, 0, 0] [1, 1] = .ok [1] :=
  ⟨.inr ⟨1, [0, 0], rfl, by decide⟩, .inr ⟨1, [1], rfl, by decide⟩, by decide +kernel⟩
theorem witness_PolyGenCompletes : 0 < 256 ∧ 254 < 256 ∧ 255 < 256 ∧ 0 < 255 ∧ 254 < 255 := by decide
theorem witness_PolyOperandsRefused : 256 < ({ State.reset with la := 257#9 } : State).la.toNat
    ∧ ({ State.reset with la := 256#9, lb := 257#9 } : State).la.toNat ≤ 256
    ∧ 256 < ({ State.reset with la := 256#9, lb := 257#9 } : State).lb.toNat
    ∧ canonical (polys (List.replicate 130 1) (List.replicate 128 1)).rawA 0 ≠ []
    ∧ canonical (polys (List.replicate 130 1) (List.replicate 128 1)).rawB 0 ≠ []
    ∧ 257 < (canonical (polys (List.replicate 130 1) (List.replicate 128 1)).rawA 0).length
        + (canonical (polys (List.replicate 130 1) (List.replicate 128 1)).rawB 0).length
    ∧ canonical (polys [1] [1, 0, 1]).rawA 0 = [1] ∧ canonical (polys [1] [1, 0, 1]).rawB 0 = [1, 0, 1]
    ∧ ¬ NoZero [1, 0, 1] ∧ [1].length + [1, 0, 1].length ≤ 257
    ∧ canonical (polys [1, 2] [0]).rawB 0 = []
    ∧ [1, 0, 1].length ≤ (canonical (polys [1] [1, 0, 1]).rawA 2).length := by
  simp only [NoZero]; decide +kernel
theorem witness_RsLookupEffect : (payload [] 1 0).cfgVersion.toNat = 1 ∧ (payload [] 40 3).cfgVersion.toNat = 40
    ∧ (payload [] 0 0).cfgVersion.toNat = 0 ∧ (payload [] 41 0).cfgVersion.toNat = 41 := by decide
theorem witness_RsTableSound : rsGroups 1 0#2 = .ok [⟨1, 26, 16⟩] ∧ rsGroups 40 1#2 = .ok [⟨19, 148, 118⟩, ⟨6, 149, 119⟩] := by
  decide
theorem witness_RsEccEffect : ({ State.reset with la := 256#9 } : State).la.toNat ≤ 256 ∧ 254 ≤ 254
    ∧ (polys [0, 0] []).la.toNat ≤ 256 ∧ (∀ x ∈ (polys [0, 0] []).rawA, x = 0#8)
    ∧ 256 < ({ State.reset with la := 257#9 } : State).la.toNat
    ∧ (polys [1] []).la.toNat ≤ 256 ∧ ∃ x ∈ (polys [1] []).rawA, x ≠ 0#8 := by decide +kernel
theorem witness_RsEccSystematic : 2 ≤ 254 ∧ rsEcc [1] 2 = .ok [3, 2] := by decide +kernel
theorem witness_SegEncodeCompletes : rsBlocks (payload [] 1 2).version (payload [] 1 2).cfgLevel = .ok [⟨26, 9⟩]
    ∧ segBits ({ payload [] 1 2 with plen := 7#16 } : State).version 7 ≤ 8 * totalData [⟨26, 9⟩] := by decide
theorem witness_SegCodewordsClosedForm : segBits 1 ([65, 66, 67, 68, 69, 70, 71] : List Byte).length ≤ 8 * 9
    ∧ segBits 10 ([] : List Byte).length ≤ 8 * 3 := by decide
theorem witness_SegmentRefused : ¬ (1 ≤ State.reset.version ∧ State.reset.version ≤ 40)
    ∧ ¬ (1 ≤ (payload [] 41 0).version ∧ (payload [] 41 0).version ≤ 40)
    ∧ rsBlocks ({ payload [] 1 2 with plen := 8#16 } : State).version 2#2 = .ok [⟨26, 9⟩]
    ∧ 8 * totalData [⟨26, 9⟩] < segBits ({ payload [] 1 2 with plen := 8#16 } : State).version 8 := by decide
theorem witness_CwBuildCompletes : segQrc.seg = some ⟨16#12, 1#6, 0#2⟩ ∧ rsBlocks 1 0#2 = .ok [⟨26, 16⟩]
    ∧ (16#12).toNat = totalData [⟨26, 16⟩] ∧ ([⟨26, 16⟩] : List Block)[0]? = some ⟨26, 16⟩ := by decide
theorem witness_InterleaveOrder : ([[1, 2], [3, 4, 5]] : List (List Byte))[1]? = some [3, 4, 5]
    ∧ ([3, 4, 5] : List Byte)[2]? = some 5 ∧ ([[1, 2], [3, 4]] : List (List Byte)) ≠ []
    ∧ (∀ col ∈ ([[1, 2], [3, 4]] : List (List Byte)), col.length = 2)
    ∧ 3 < ([[1, 2], [3, 4]] : List (List Byte)).length * 2 := by decide
theorem witness_BchCodesSound : 0 < 32 ∧ 31 < 32 ∧ encodeFormatInfo 31 = encodeFormatInfo 31 ∧ 63 < 64 := by decide
theorem witness_MaskEvalEffect : 7 < 256 ∧ 7 ≤ 7 ∧ 8 < 256 ∧ 7 < 8 ∧ 255 < 256 := by decide
theorem witness_MatBuildEffect : cwQrc.cw = some ⟨26#12, 1#6, 0#2⟩ ∧ 7 ≤ 7 ∧ 7 < 8 ∧ 8 < 256
    ∧ 20 < 4 * (1#6).toNat + 17 ∧ ¬ (21 < 4 * (1#6).toNat + 17) := by decide
theorem witness_BuildLeavesNoUnset : 1 ≤ 40 ∧ 40 ≤ 40 ∧ 176 < 4 * 40 + 17 := by decide
theorem witness_FixedCellDark : 1 ≤ 1 ∧ 1 ≤ 40 := by decide
theorem witness_FunctionPatterns : 1 ≤ 1 ∧ 1 ≤ 40 ∧ 40 ≤ 40 ∧ 6 < 7 ∧ 7 < 8
    ∧ 18 ∈ alignmentList 2 ∧ ¬ (18 = 6 ∧ 18 = 6) ∧ ¬ (18 = 6 ∧ 18 = 4 * 2 + 17 - 7) ∧ 4 < 5
    ∧ 6 ∈ alignmentList 7 ∧ 22 ∈ alignmentList 7 ∧ 22 ≠ 6 ∧ 22 ≠ 4 * 7 + 17 - 7
    ∧ 8 ≤ 8 ∧ 8 ≤ 4 * 1 + 17 - 8 ∧ 8 ≤ 4 * 1 + 17 - 8 := by decide
theorem witness_MetadataCells : FormatCellOf (4 * 1 + 17) 0 0 8 ∧ FormatCellOf (4 * 1 + 17) 14 20 8
    ∧ FormatCellOf (4 * 1 + 17) 8 8 7 ∧ VersionCellOf (4 * 7 + 17) 0 0 34 ∧ VersionCellOf (4 * 7 + 17) 17 36 5 := by
  simp only [FormatCellOf, VersionCellOf]; decide
theorem witness_TrialChangesOnlyMetadata : (∀ i, ¬ FormatCellOf (4 * 7 + 17) i 20 20)
    ∧ ∀ i, ¬ VersionCellOf (4 * 7 + 17) i 20 20 := by
  simp only [FormatCellOf, VersionCellOf]; exact ⟨by omega, by omega⟩
theorem witness_DataPlacementOrder : (Grid.blank 9).Square 9 ∧ 9 % 2 = 1
    ∧ (((List.range (9 * (9 - 1))).map (visitedCell 9)).filter
        (fun q => decide ((Grid.blank 9).get q.1 q.2 = .unset)))[0]? = some (8, 8)
    ∧ ((Grid.blank 9).set 0 0 .dark).get 0 0 ≠ .unset := by
  simp only [Grid.Square]; decide +kernel
theorem witness_MatScoreEffect : lightSymbol.sym = some ⟨1#6, 0#2, 0#3, false⟩ ∧ State.reset.sym = none := by decide
theorem witness_PenaltyRules : 0 < 177 ∧ 177 ≤ 177 := by decide
theorem witness_MaskSelectCompletes : cwQrc.cw = some ⟨26#12, 1#6, 0#2⟩ := by decide
theorem witness_SymFinalCompletes : selQrc.sel = some 4#3 ∧ selQrc.cw = some ⟨26#12, 1#6, 0#2⟩ := by decide
theorem witness_SymEncodeIsFourCommands :
    rsBlocks (payload [0x51, 0x52, 0x43] 1 0).version (payload [0x51, 0x52, 0x43] 1 0).cfgLevel = .ok [⟨26, 16⟩]
    ∧ segBits (payload [0x51, 0x52, 0x43] 1 0).version (payload [0x51, 0x52, 0x43] 1 0).payloadLen
      ≤ 8 * totalData [⟨26, 16⟩] := by decide
theorem witness_SymQueryEffect : lightSymbol.sym = some ⟨1#6, 0#2, 0#3, false⟩ ∧ lightSymbol.arg0.toInt = 0
    ∧ (arg 20#32).arg0.toInt = 20 ∧ (20 : Int) < (4 * (1#6).toNat + 17 : Nat) ∧ ¬ ((21 : Int) < (4 * (1#6).toNat + 17 : Nat))
    ∧ ¬ (0 ≤ (arg 0xFFFFFFFF#32).arg0.toInt) ∧ State.reset.sym = none := by decide
theorem witness_StageRequired : State.reset.seg = none ∧ State.reset.cw = none ∧ State.reset.sel = none
    ∧ State.reset.sym = none := by decide
theorem witness_CommandFrame : exec .nop State.reset = .next State.reset.onSuccess := rfl
theorem witness_FailureDiscardsWrites : exec .gfLog State.reset = .next (State.reset.asFailed 0x10 4#4)
    ∧ (State.reset.asFailed 0x10 4#4).err = true := ⟨by rfl, rfl⟩

/-- A symbol's state meets every invariant, and steps. -/
theorem witness_StagesKept : lightSymbol.StagesOk ∧ step lightSymbol = .next lightSymbol.hostTurn := by
  refine ⟨⟨fun _ => rfl, ?_, fun _ => rfl, ?_, ?_, ?_⟩, rfl⟩
  · intro h; cases h
  all_goals (intro i h; cases h; simp only [LegalVersion]; decide)
theorem witness_CountsKept : lightSymbol.CountsOk ∧ step lightSymbol = .next lightSymbol.hostTurn := by
  refine ⟨⟨?_, ?_⟩, rfl⟩
  all_goals (intro i h; cases h; exact ⟨[⟨26, 16⟩], by decide, by decide⟩)
theorem witness_RecordKept : (busy 0#32 0).StatusOk ∧ (busy 0#32 0).LrOk ∧ step (busy 0#32 0) = exec .nop (busy 0#32 0) := by
  refine ⟨⟨fun _ => ⟨rfl, rfl⟩, fun _ => ⟨rfl, rfl⟩, ?_⟩, ?_, by rfl⟩
  · intro h; cases h
  · simp only [State.LrOk]; decide
theorem witness_MemoryKept : segQrc.MemOk ∧ step segQrc = .next segQrc.hostTurn := by
  refine ⟨?_, rfl⟩
  simp only [State.MemOk, Memory.wf]; decide
theorem witness_MatrixKept : lightSymbol.StagesOk ∧ lightSymbol.MatOk ∧ lightSymbol.MatSquare
    ∧ step lightSymbol = .next lightSymbol.hostTurn := by
  refine ⟨witness_StagesKept.1, ?_, ?_, rfl⟩
  · intro i h
    cases h
    have all : ∀ r < 21, ∀ k < 21, Grid.cell? lightSymbol.mat r k = some .light := by decide
    exact fun r k hr hk => .inl (all r hr k hk)
  · simp only [State.MatSquare]; decide

end Sys2Proof.Tests
end

/-! SUPPORT. The proofs of the statements about the state (10_state.md): what each command leaves unchanged,
what every step keeps, and what the host reads. -/

namespace Sys2Proof.Machine

/-! ## One operation for every command -/

/-- The pseudocode of each command, as its `exec` arm runs it (30_encoding.md R94). -/
def bodyOf : Instr → State → Except Failure State
  | .nop => fun s => .ok s
  | .gfLog => gfLogBody
  | .gfExp => gfExpBody
  | .polyMul => polyMulBody
  | .polyMod sh => polyModBody sh
  | .polyGen k => polyGenBody k
  | .rsLookup => rsLookupBody
  | .rsEcc k => rsEccBody k
  | .segEncode => segEncodeBody
  | .cwBuild => cwBuildBody
  | .bchFmt => bchFmtBody
  | .bchVer => bchVerBody
  | .maskEval m => maskEvalBody m
  | .matBuild m t => matBuildBody m t
  | .matScore => matScoreBody
  | .maskSelect => maskSelectBody
  | .symFinal => symFinalBody
  | .symEncode => symEncodeBody
  | .symQuery => symQueryBody

/-- Every command runs its pseudocode under its own opcode and stage. -/
theorem exec_eq_runCommand (i : Instr) (s : State) :
    exec i s = runCommand i.opcode (stageOf i) (bodyOf i) s := by
  cases i <;> rfl

/-- All a command can do: commit what its pseudocode wrote, or fail and invalidate its stage. -/
theorem exec_cases {i : Instr} {s t : State} (h : exec i s = .next t) :
    (∃ u, bodyOf i s = .ok u ∧ t = u.onSuccess)
      ∨ ∃ f, bodyOf i s = .error f ∧ t = s.onFailure i.opcode (stageOf i) f :=
  runCommand_cases ((exec_eq_runCommand i s).symm.trans h)

/-! ## The frame of a command's pseudocode -/

/-- The fields no command's pseudocode writes: CMD, the failure record's ERRINFO, the host's registers, and
the model's own fields of the host's side. -/
structure SameHost (s t : State) : Prop where
  cmd : t.cmd = s.cmd
  errinfo : t.errinfo = s.errinfo
  overrun : t.overrun = s.overrun
  cfgVersion : t.cfgVersion = s.cfgVersion
  cfgLevel : t.cfgLevel = s.cfgLevel
  plen : t.plen = s.plen
  arg0 : t.arg0 = s.arg0
  arg1 : t.arg1 = s.arg1
  la : t.la = s.la
  lb : t.lb = s.lb
  wait : t.wait = s.wait
  hostQ : t.hostQ = s.hostQ
  replies : t.replies = s.replies
  ramDraw : t.ramDraw = s.ramDraw

theorem SameHost.trans {s t u : State} (h : SameHost s t) (h' : SameHost t u) : SameHost s u := by
  cases h; cases h'; constructor <;> simp_all only

/-- What the pseudocode of command `i` leaves unchanged between `s` and `t`. -/
structure Framed (i : Instr) (s t : State) : Prop where
  host : SameHost s t
  bytes : ∀ a, (∀ r ∈ storesTo i, ¬ (r.base ≤ a ∧ a < r.base + r.size)) → t.byteAt a = s.byteAt a
  res : ∀ k : Fin 8, writesResBelow i ≤ k.val → t.res[k.val] = s.res[k.val]
  lr : storesTo i ≠ [.pr] → t.lr = s.lr
  stages : stageOf i = none → t.seg = s.seg ∧ t.cw = s.cw ∧ t.sel = s.sel ∧ t.sym = s.sym
  mat : writesMat i = false → t.mat = s.mat ∧ t.matDraw = s.matDraw ∧ t.draws = s.draws

namespace Framed

variable {i : Instr} {s t u : State}

theorem refl : Framed i s s where
  host := by constructor <;> rfl
  bytes _ _ := rfl
  res _ _ := rfl
  lr _ := rfl
  stages _ := ⟨rfl, rfl, rfl, rfl⟩
  mat _ := ⟨rfl, rfl, rfl⟩

theorem trans (h : Framed i s t) (h' : Framed i t u) : Framed i s u where
  host := h.host.trans h'.host
  bytes a ha := (h'.bytes a ha).trans (h.bytes a ha)
  res k hk := (h'.res k hk).trans (h.res k hk)
  lr hl := (h'.lr hl).trans (h.lr hl)
  stages hi := by
    obtain ⟨hseg, hcw, hsel, hsym⟩ := h.stages hi
    obtain ⟨hseg', hcw', hsel', hsym'⟩ := h'.stages hi
    exact ⟨hseg'.trans hseg, hcw'.trans hcw, hsel'.trans hsel, hsym'.trans hsym⟩
  mat hi := by
    obtain ⟨hmat, hdraw, hdraws⟩ := h.mat hi
    obtain ⟨hmat', hdraw', hdraws'⟩ := h'.mat hi
    exact ⟨hmat'.trans hmat, hdraw'.trans hdraw, hdraws'.trans hdraws⟩

/-- SYM.ENCODE may change whatever a pipeline command may change that stores to DBUF and CWBUF only
(44_mask_symbol.md R253). -/
theorem symEncode_of (hb : storesTo i ⊆ [.dbuf, .cwbuf]) (hr : writesResBelow i ≤ 8) (h : Framed i s t) :
    Framed .symEncode s t where
  host := h.host
  bytes a ha := h.bytes a fun r hr => ha r (hb hr)
  res k hk := h.res k (Nat.le_trans hr hk)
  lr _ := h.lr fun e => by
    rw [e] at hb
    exact absurd (hb (List.mem_singleton_self Region.pr)) (by decide)
  stages hi := nomatch hi
  mat hi := nomatch hi

theorem setRes {k : Fin 8} {v : Nat} (hk : k.val < writesResBelow i) : Framed i s (s.setRes k v) where
  host := by constructor <;> rfl
  bytes _ _ := rfl
  res k' hk' := by rw [State.setRes_res, Vector.getElem_set_ne _ _ (by omega)]
  lr _ := rfl
  stages _ := ⟨rfl, rfl, rfl, rfl⟩
  mat _ := ⟨rfl, rfl, rfl⟩

theorem setAllRes {vs : List Nat} (hk : 8 ≤ writesResBelow i) : Framed i s (s.setAllRes vs) where
  host := by constructor <;> rfl
  bytes _ _ := rfl
  res k hk' := absurd k.isLt (by omega)
  lr _ := rfl
  stages _ := ⟨rfl, rfl, rfl, rfl⟩
  mat _ := ⟨rfl, rfl, rfl⟩

theorem writeBuffer {r : Region} {bs : List Byte} (hr : r ∈ storesTo i) :
    Framed i s (s.writeBuffer r bs) where
  host := by constructor <;> rfl
  bytes a ha := by rw [State.writeBuffer_byteAt, if_neg fun hh => ha r hr ((r.holds_iff a).1 hh)]
  res _ _ := rfl
  lr _ := rfl
  stages _ := ⟨rfl, rfl, rfl, rfl⟩
  mat _ := ⟨rfl, rfl, rfl⟩

theorem setLr {x : BitVec 9} (hi : storesTo i = [.pr]) : Framed i s { s with lr := x } where
  host := by constructor <;> rfl
  bytes _ _ := rfl
  res _ _ := rfl
  lr hl := absurd hi hl
  stages _ := ⟨rfl, rfl, rfl, rfl⟩
  mat _ := ⟨rfl, rfl, rfl⟩

/-- The two writes of a polynomial command: PR, and LR. -/
theorem writePr {bs : List Byte} {x : BitVec 9} (hi : storesTo i = [.pr]) :
    Framed i s { s.writeBuffer .pr bs with lr := x } :=
  (writeBuffer (by rw [hi]; exact List.mem_singleton_self _)).trans (setLr hi)

theorem setStages {seg : Option SegInfo} {cw : Option CwInfo} {sel : Option (BitVec 3)}
    {sym : Option SymInfo} (hi : stageOf i ≠ none) :
    Framed i s { s with seg := seg, cw := cw, sel := sel, sym := sym } where
  host := by constructor <;> rfl
  bytes _ _ := rfl
  res _ _ := rfl
  lr _ := rfl
  stages hn := absurd hn hi
  mat _ := ⟨rfl, rfl, rfl⟩

theorem writeMat {g : Grid} (hi : writesMat i = true) : Framed i s (s.writeMat g) where
  host := by constructor <;> rfl
  bytes _ _ := rfl
  res _ _ := rfl
  lr _ := rfl
  stages _ := ⟨rfl, rfl, rfl, rfl⟩
  mat hn := absurd hi (by simp [hn])

theorem scrambleMat (hi : writesMat i = true) : Framed i s s.scrambleMat where
  host := by constructor <;> rfl
  bytes _ _ := rfl
  res _ _ := rfl
  lr _ := rfl
  stages _ := ⟨rfl, rfl, rfl, rfl⟩
  mat hn := absurd hi (by simp [hn])

theorem buildMatrix {c : CwInfo} {m : BitVec 3} {tr : Bool} (hi : stageOf i ≠ none)
    (hm : writesMat i = true) : Framed i s (s.buildMatrix c m tr) :=
  (writeMat hm).trans (setStages hi)

end Framed

theorem segEncodeBody_framed {s t : State} (h : segEncodeBody s = .ok t) : Framed .segEncode s t := by
  obtain ⟨total, -, rfl⟩ := segEncodeBody_ok.1 h
  exact (((Framed.writeBuffer (by decide)).trans (Framed.setStages (by decide))).trans
    (Framed.setRes (by decide))).trans (Framed.setRes (by decide))

theorem cwBuildBody_framed {s t : State} (h : cwBuildBody s = .ok t) : Framed .cwBuild s t := by
  obtain ⟨i, cw, -, -, rfl⟩ := cwBuildBody_ok.1 h
  exact ((Framed.writeBuffer (by decide)).trans (Framed.setStages (by decide))).trans
    (Framed.setRes (by decide))

theorem maskSelectBody_framed {s t : State} (h : maskSelectBody s = .ok t) : Framed .maskSelect s t := by
  obtain ⟨i, -, rfl⟩ := maskSelectBody_ok.1 h
  exact ((Framed.setAllRes (by decide)).trans (Framed.scrambleMat rfl)).trans (Framed.setStages (by decide))

theorem symFinalBody_framed {s t : State} (h : symFinalBody s = .ok t) : Framed .symFinal s t := by
  obtain ⟨m, -, rfl⟩ := symFinalBody_ok.1 h
  exact Framed.buildMatrix (by decide) rfl

/-- What the pseudocode of a command that does not raise leaves unchanged. -/
theorem bodyOf_framed {i : Instr} {s t : State} (h : bodyOf i s = .ok t) : Framed i s t := by
  cases i with
  | nop => cases h; exact .refl
  | gfLog => obtain ⟨x, -, rfl⟩ := gfLogBody_ok.1 h; exact .setRes (by decide)
  | gfExp => cases h; exact .setRes (by decide)
  | polyMul => obtain ⟨-, -, -, r, -, rfl⟩ := polyMulBody_ok.1 h; exact .writePr rfl
  | polyMod sh => obtain ⟨-, -, r, -, rfl⟩ := polyModBody_ok.1 h; exact .writePr rfl
  | polyGen k => obtain ⟨g, -, rfl⟩ := polyGenBody_ok.1 h; exact .writePr rfl
  | rsLookup =>
    obtain ⟨gs, -, rfl⟩ := rsLookupBody_ok.1 h
    exact (((((Framed.setRes (by decide)).trans (.setRes (by decide))).trans (.setRes (by decide))).trans
      (.setRes (by decide))).trans (.setRes (by decide))).trans (.setRes (by decide))
  | rsEcc k => obtain ⟨-, ec, -, rfl⟩ := rsEccBody_ok.1 h; exact .writePr rfl
  | segEncode => exact segEncodeBody_framed h
  | cwBuild => exact cwBuildBody_framed h
  | bchFmt => cases h; exact .setRes (by decide)
  | bchVer => cases h; exact .setRes (by decide)
  | maskEval m => obtain ⟨-, rfl⟩ := maskEvalBody_ok.1 h; exact .setRes Nat.zero_lt_one
  | matBuild m tr => obtain ⟨-, i, -, rfl⟩ := matBuildBody_ok.1 h; exact .buildMatrix nofun rfl
  | matScore => obtain ⟨i, -, rfl⟩ := matScoreBody_ok.1 h; exact .setAllRes (by decide)
  | maskSelect => exact maskSelectBody_framed h
  | symFinal => exact symFinalBody_framed h
  | symEncode =>
    obtain ⟨s1, s2, s3, h1, h2, h3, h4⟩ := symEncodeBody_ok.1 h
    exact (((Framed.symEncode_of (by decide) (by decide) (segEncodeBody_framed h1)).trans
      (.symEncode_of (by decide) (by decide) (cwBuildBody_framed h2))).trans
      (.symEncode_of (by decide) (by decide) (maskSelectBody_framed h3))).trans
      (.symEncode_of (by decide) (by decide) (symFinalBody_framed h4))
  | symQuery => obtain ⟨i, -, -, rfl⟩ := symQueryBody_ok.1 h; exact .setRes (by decide)

/-- Settles O53: a success commits what the pseudocode's frame allows, a failure changes the failure record
and the command's own stages only. -/
theorem commandFrame : Obligations.CommandFrame := by
  intro i s t h
  rcases exec_cases h with ⟨u, hu, rfl⟩ | ⟨f, -, rfl⟩
  · obtain ⟨host, bytes, res, lr, stages, mat⟩ := bodyOf_framed hu
    exact ⟨⟨host.cmd, host.overrun, host.cfgVersion, host.cfgLevel, host.plen, host.arg0, host.arg1, host.la,
      host.lb, host.wait, host.hostQ, host.replies, host.ramDraw⟩, bytes, res, lr, stages, mat⟩
  · refine ⟨by simp, by simp, by simp, by simp, fun hi => ?_, by simp⟩
    rw [hi]
    exact ⟨rfl, rfl, rfl, rfl⟩

/-! ## Invariants of the pipeline -/

/-- The stages and MAT are the same. -/
structure SamePipeline (s t : State) : Prop where
  seg : t.seg = s.seg
  cw : t.cw = s.cw
  sel : t.sel = s.sel
  sym : t.sym = s.sym
  mat : t.mat = s.mat

/-- A property of the stages and of MAT alone that reset meets, that invalidation keeps, and that the
pseudocode of every single-stage pipeline command keeps. -/
structure PipelineInvariant (P : State → Prop) : Prop where
  congr : ∀ {s t}, SamePipeline s t → P s → P t
  reset : P State.reset
  invalidate : ∀ st {s}, P s → P (s.invalidate st)
  segEncode : ∀ {s t}, P s → segEncodeBody s = .ok t → P t
  cwBuild : ∀ {s t}, P s → cwBuildBody s = .ok t → P t
  matBuild : ∀ {m tr s t}, P s → matBuildBody m tr s = .ok t → P t
  maskSelect : ∀ {s t}, P s → maskSelectBody s = .ok t → P t
  symFinal : ∀ {s t}, P s → symFinalBody s = .ok t → P t

theorem writesMat_of_stageOf {i : Instr} (h : stageOf i = none) : writesMat i = false := by
  cases i <;> trivial

/-- A host write leaves the stages, MAT and LR. -/
theorem State.hostWrite_samePipeline (a : Nat) (n : AccessSize) (v : Word) (s : State) :
    SamePipeline s (s.hostWrite a n v) ∧ (s.hostWrite a n v).lr = s.lr := by
  rcases State.hostWrite_cases a n v s with e | ⟨-, e⟩ | e | ⟨-, e⟩ | ⟨-, e⟩ | ⟨-, r, -, -, -, e⟩ <;> rw [e]
  case inr.inr.inr.inr.inl => exact ⟨by constructor <;> simp, by simp⟩
  all_goals exact ⟨by constructor <;> rfl, rfl⟩

/-- A host turn leaves the stages, MAT and LR, or it is the reset input's. -/
theorem State.hostTurn_samePipeline (s : State) :
    (SamePipeline s s.hostTurn ∧ s.hostTurn.lr = s.lr)
      ∨ ∃ q, s.hostTurn = State.pulseReset { s with hostQ := q } := by
  rcases State.hostTurn_cases s with ⟨-, e⟩ | ⟨a, n, q, -, e⟩ | ⟨a, n, v, q, -, e⟩ | ⟨q, -, e⟩
  · rw [e]; exact .inl ⟨by constructor <;> rfl, rfl⟩
  · left
    rw [e]
    rcases State.hostRead_cases a.toNat n { s with hostQ := q } with e' | ⟨-, e'⟩ <;> rw [e'] <;>
      exact ⟨by constructor <;> rfl, rfl⟩
  · left
    rw [e]
    obtain ⟨⟨hseg, hcw, hsel, hsym, hmat⟩, hlr⟩ :=
      State.hostWrite_samePipeline a.toNat n v { s with hostQ := q }
    exact ⟨⟨hseg, hcw, hsel, hsym, hmat⟩, hlr⟩
  · exact .inr ⟨q, e⟩

namespace PipelineInvariant

variable {P : State → Prop} (hP : PipelineInvariant P) {s t : State}

include hP

/-- The pseudocode of every command keeps a pipeline invariant. -/
theorem body {i : Instr} (hs : P s) (h : bodyOf i s = .ok t) : P t := by
  cases hi : stageOf i with
  | none =>
    have frame := bodyOf_framed h
    obtain ⟨hseg, hcw, hsel, hsym⟩ := frame.stages hi
    exact hP.congr ⟨hseg, hcw, hsel, hsym, (frame.mat (writesMat_of_stageOf hi)).1⟩ hs
  | some st =>
    cases i with
    | segEncode => exact hP.segEncode hs h
    | cwBuild => exact hP.cwBuild hs h
    | matBuild => exact hP.matBuild hs h
    | maskSelect => exact hP.maskSelect hs h
    | symFinal => exact hP.symFinal hs h
    | symEncode =>
      obtain ⟨s1, s2, s3, h1, h2, h3, h4⟩ := symEncodeBody_ok.1 h
      exact hP.symFinal (hP.maskSelect (hP.cwBuild (hP.segEncode hs h1) h2) h3) h4
    | _ => cases hi

theorem onFailure {op : Byte} {st : Option Stage} {f : Failure} (hs : P s) : P (s.onFailure op st f) := by
  have hinv : P (s.invalidateFor st) := by
    cases st with
    | none => exact hs
    | some st => exact hP.invalidate st hs
  exact hP.congr (by constructor <;> rfl) hinv

theorem hostTurn (hs : P s) : P s.hostTurn := by
  rcases State.hostTurn_samePipeline s with ⟨hsame, -⟩ | ⟨q, e⟩
  · exact hP.congr hsame hs
  · rw [e]; exact hP.congr (by constructor <;> rfl) hP.reset

/-- Every step keeps a pipeline invariant: the host's turn, the completion of a command, and that of an
illegal word. -/
theorem step (hs : P s) (h : step s = .next t) : P t := by
  rcases step_cases h with ⟨-, rfl⟩ | ⟨k, -, -, rfl⟩ | ⟨i, -, -, -, he⟩ | ⟨e, -, -, -, rfl⟩
  · exact hP.hostTurn hs
  · exact hP.hostTurn (hP.congr (by constructor <;> rfl) hs)
  · rcases exec_cases he with ⟨u, hu, rfl⟩ | ⟨f, -, rfl⟩
    · exact hP.congr (by constructor <;> rfl) (hP.body hs hu)
    · exact hP.onFailure hs
  · exact hP.onFailure hs

end PipelineInvariant

/-! ## The stages (10_state.md R41) -/

theorem legalVersion_of_rsBlocks {v : BitVec 6} {l : BitVec 2} {bs : List Block}
    (h : rsBlocks v.toNat l = .ok bs) : LegalVersion v := by
  obtain ⟨gs, hgs, -⟩ := rsBlocks_ok.1 h
  exact rsGroups_isOk.1 ⟨gs, hgs⟩

theorem State.reset_stagesOk : State.reset.StagesOk := ⟨nofun, nofun, nofun, nofun, nofun, nofun⟩

theorem State.StagesOk.congr {s t : State} (hst : SamePipeline s t) (h : s.StagesOk) : t.StagesOk := by
  unfold State.StagesOk
  rw [hst.seg, hst.cw, hst.sel, hst.sym]
  exact h

theorem State.StagesOk.invalidate {s : State} (st : Stage) (h : s.StagesOk) : (s.invalidate st).StagesOk := by
  obtain ⟨hcs, hsc, hmc, hseg, hcw, hsym⟩ := h
  cases st
  · exact ⟨nofun, nofun, nofun, nofun, nofun, nofun⟩
  · exact ⟨nofun, nofun, nofun, hseg, nofun, nofun⟩
  · exact ⟨hcs, nofun, nofun, hseg, hcw, nofun⟩
  · exact ⟨hcs, hsc, nofun, hseg, hcw, nofun⟩

/-- A build from a valid stage CW latches CW's version. -/
theorem State.StagesOk.buildMatrix {s : State} {i : CwInfo} (h : s.StagesOk) (hi : s.cw = some i)
    (m : BitVec 3) (tr : Bool) : (s.buildMatrix i m tr).StagesOk := by
  obtain ⟨hcs, hsc, -, hseg, hcw, -⟩ := h
  unfold State.StagesOk
  simp only [State.buildMatrix_seg, State.buildMatrix_cw, State.buildMatrix_sel, State.buildMatrix_sym]
  exact ⟨hcs, hsc, fun _ => by simp [hi], hseg, hcw, fun j hj => by cases hj; exact hcw i hi⟩

/-- With SVALID the CINFO that SYM.FINAL reads is a valid stage's. -/
theorem State.StagesOk.cw_eq_cinfo {s : State} {m : BitVec 3} (h : s.StagesOk) (hm : s.sel = some m) :
    s.cw = some s.cinfo := by
  obtain ⟨-, hsc, -⟩ := h
  obtain ⟨i, hi⟩ := Option.isSome_iff_exists.1 (hsc (by rw [hm]; rfl))
  rw [State.cinfo, hi]
  rfl

theorem stagesOk_invariant : PipelineInvariant State.StagesOk where
  congr := State.StagesOk.congr
  reset := State.reset_stagesOk
  invalidate st _ h := h.invalidate st
  segEncode {s t} _ h := by
    obtain ⟨total, hadmit, rfl⟩ := segEncodeBody_ok.1 h
    obtain ⟨bs, hbs, -⟩ := segAdmit_ok.1 hadmit
    exact ⟨nofun, nofun, nofun, fun j hj => by cases hj; exact legalVersion_of_rsBlocks hbs, nofun, nofun⟩
  cwBuild {s t} hs h := by
    obtain ⟨-, -, -, hseg, -, -⟩ := hs
    obtain ⟨i, cw, hi, -, rfl⟩ := cwBuildBody_ok.1 h
    exact ⟨fun _ => by simp [hi], nofun, nofun, hseg, fun j hj => by cases hj; exact hseg i hi, nofun⟩
  matBuild {m tr s t} hs h := by
    obtain ⟨-, i, hi, rfl⟩ := matBuildBody_ok.1 h
    exact hs.buildMatrix hi _ _
  maskSelect {s t} hs h := by
    obtain ⟨hcs, -, -, hseg, hcw, -⟩ := hs
    obtain ⟨i, hi, rfl⟩ := maskSelectBody_ok.1 h
    exact ⟨hcs, fun _ => by simp [hi], nofun, hseg, hcw, nofun⟩
  symFinal {s t} hs h := by
    obtain ⟨m, hm, rfl⟩ := symFinalBody_ok.1 h
    exact hs.buildMatrix (hs.cw_eq_cinfo hm) _ _

/-- Settles O55: the stage invariants speak of the pipeline alone. -/
theorem stagesKept : Obligations.StagesKept := fun _ _ hs h => stagesOk_invariant.step hs h

/-! ## The counts NDATA and NCW (10_state.md R32, R33) -/

theorem le_foldl_max_length (cols : List (List Byte)) (n : Nat) :
    n ≤ cols.foldl (fun n c => max n c.length) n
      ∧ ∀ c ∈ cols, c.length ≤ cols.foldl (fun n c => max n c.length) n := by
  induction cols generalizing n with
  | nil => simp
  | cons d cols ih =>
    obtain ⟨hn, hcols⟩ := ih (max n d.length)
    simp only [List.foldl_cons, List.forall_mem_cons]
    exact ⟨by omega, by omega, hcols⟩

theorem length_le_maxLength {cols : List (List Byte)} : ∀ c ∈ cols, c.length ≤ maxLength cols :=
  (le_foldl_max_length cols 0).2

theorem sum_range_indicator (m n : Nat) :
    ((List.range m).map (fun i => if i < n then 1 else 0)).sum = min m n := by
  induction m with
  | zero => simp
  | succ m ih =>
    rw [List.range_succ, List.map_append, List.sum_append, ih, List.map_singleton, List.sum_singleton]
    split <;> omega

/-- Over enough rounds every sequence contributes each of its entries once. -/
theorem interleaveRounds_length {cols : List (List Byte)} {m : Nat} (h : ∀ c ∈ cols, c.length ≤ m) :
    ((List.range m).flatMap (fun i => cols.filterMap (fun col => col[i]?))).length
      = (cols.map List.length).sum := by
  induction cols with
  | nil => simp
  | cons c cols ih =>
    obtain ⟨hc, hcols⟩ := List.forall_mem_cons.1 h
    have hround : ∀ i, ((c :: cols).filterMap (fun col => col[i]?)).length
        = (if i < c.length then 1 else 0) + (cols.filterMap (fun col => col[i]?)).length := by
      intro i
      by_cases hi : i < c.length <;> simp [hi, Nat.add_comm]
    rw [List.length_flatMap] at ih ⊢
    simp only [hround]
    rw [List.sum_map_add, sum_range_indicator, ih hcols, Nat.min_eq_right hc, List.map_cons, List.sum_cons]

theorem interleave_length (cols : List (List Byte)) :
    (interleave cols).length = (cols.map List.length).sum :=
  interleaveRounds_length length_le_maxLength

theorem genFrom_length_le {n i : Nat} {g g' : Poly} (h : genFrom n i g = .ok g') :
    g'.length ≤ g.length + n := by
  induction n generalizing i g with
  | zero => cases h; exact Nat.le_refl _
  | succ n ih =>
    obtain ⟨p, hp, h⟩ := bind_eq_ok.1 h
    have hmul := multiply_length_le hp
    have hrest := ih h
    simp only [List.length_cons, List.length_nil] at hmul
    omega

theorem gen_length_le {k : Nat} {g : Poly} (h : gen k = .ok g) : g.length ≤ k + 1 := by
  have := genFrom_length_le h
  rwa [List.length_singleton, Nat.add_comm] at this

/-- `rs_ecc(d, k)` answers k EC codewords (41_rs_codec.md R161). -/
theorem rsEcc_length {d ec : List Byte} {k : Nat} (h : rsEcc d k = .ok ec) : ec.length = k := by
  obtain ⟨g, hg, h⟩ := bind_eq_ok.1 h
  obtain ⟨r, hr, h⟩ := bind_eq_ok.1 h
  cases h
  have hlt := polyMod_length hr
  have hle := gen_length_le hg
  rw [List.length_append, List.length_replicate]
  omega

theorem splitBlocks_lengths {bs : List Block} {data : List Byte} (h : totalData bs ≤ data.length) :
    (splitBlocks bs data).map List.length = bs.map Block.data := by
  induction bs generalizing data with
  | nil => rfl
  | cons b bs ih =>
    have hsum : totalData (b :: bs) = b.data + totalData bs := List.sum_cons
    simp only [splitBlocks, List.map_cons, List.length_take]
    rw [ih (by rw [List.length_drop]; omega), Nat.min_eq_left (by omega)]

/-- What the codec reads off the block table (41_rs_codec.md R151, R153): every block has at most as many data
codewords as codewords, and T and C fit the 12-bit fields of DINFO and CINFO. -/
theorem rsBlocks_bounds {v : Nat} {l : BitVec 2} {bs : List Block} (h : rsBlocks v l = .ok bs) :
    (∀ b ∈ bs, b.data ≤ b.total) ∧ totalData bs < 4096 ∧ totalCodewords bs < 4096 := by
  have all : ∀ r ∈ rsTable, ∀ l : BitVec 2, (∀ b ∈ blocksOf (r.cell l), b.data ≤ b.total)
      ∧ totalData (blocksOf (r.cell l)) < 4096 ∧ totalCodewords (blocksOf (r.cell l)) < 4096 := by
    decide +kernel
  obtain ⟨gs, hgs, rfl⟩ := rsBlocks_ok.1 h
  obtain ⟨-, r, hr, rfl⟩ := rsGroups_ok.1 hgs
  exact all r (List.mem_of_getElem? hr) l

/-- The EC codewords of the blocks have the lengths the table gives them (41_rs_codec.md R162). -/
theorem ecBlocks_lengths {bs : List Block} {ds ecs : List (List Byte)} (hlen : ds.length = bs.length)
    (h : (bs.zip ds).mapM (fun p => rsEcc p.2 (p.1.total - p.1.data)) = .ok ecs) :
    ecs.map List.length = bs.map (fun b => b.total - b.data) := by
  calc ecs.map List.length
      = (bs.zip ds).map (fun p => p.1.total - p.1.data) := by
        rw [← List.forall₂_eq_eq_eq, List.forall₂_map_left_iff, List.forall₂_map_right_iff]
        exact (mapM_ok_iff.1 h).flip.imp fun ec p hec => rsEcc_length hec
    _ = ((bs.zip ds).map Prod.fst).map (fun b => b.total - b.data) := by rw [List.map_map]; rfl
    _ = bs.map (fun b => b.total - b.data) := by rw [List.map_fst_zip (by omega)]

theorem totalCodewords_eq {bs : List Block} (h : ∀ b ∈ bs, b.data ≤ b.total) :
    totalCodewords bs = totalData bs + (bs.map (fun b => b.total - b.data)).sum := by
  rw [totalCodewords, totalData, ← List.sum_map_add]
  congr 1
  exact List.map_congr_left fun b hb => (Nat.add_sub_cancel' (h b hb)).symm

/-- `cw_build` answers C codewords when it is given T data codewords (41_rs_codec.md R162). -/
theorem cwBuild_length {data cw : List Byte} {v : Nat} {l : BitVec 2} {bs : List Block}
    (hbs : rsBlocks v l = .ok bs) (hdata : data.length = totalData bs) (h : cwBuild data v l = .ok cw) :
    cw.length = totalCodewords bs := by
  unfold cwBuild at h
  rw [hbs, ok_bind] at h
  obtain ⟨ecs, hecs, h⟩ := bind_eq_ok.1 h
  cases h
  have hds := splitBlocks_lengths (bs := bs) (data := data) (by omega)
  have hlen : (splitBlocks bs data).length = bs.length := by simpa using congrArg List.length hds
  obtain ⟨hle, -, -⟩ := rsBlocks_bounds hbs
  rw [List.length_append, interleave_length, interleave_length, hds, ecBlocks_lengths hlen hecs,
    totalCodewords_eq hle, totalData]

theorem State.CountsOk.congr {s t : State} (hst : SamePipeline s t) (h : s.CountsOk) : t.CountsOk := by
  unfold State.CountsOk
  rw [hst.seg, hst.cw]
  exact h

theorem State.reset_countsOk : State.reset.CountsOk := ⟨nofun, nofun⟩

theorem State.CountsOk.invalidate {s : State} (st : Stage) (h : s.CountsOk) : (s.invalidate st).CountsOk := by
  obtain ⟨hseg, hcw⟩ := h
  cases st
  · exact ⟨nofun, nofun⟩
  · exact ⟨hseg, nofun⟩
  · exact ⟨hseg, hcw⟩
  · exact ⟨hseg, hcw⟩

theorem State.CountsOk.buildMatrix {s : State} (h : s.CountsOk) (i : CwInfo) (m : BitVec 3) (tr : Bool) :
    (s.buildMatrix i m tr).CountsOk := by
  unfold State.CountsOk
  rw [State.buildMatrix_seg, State.buildMatrix_cw]
  exact h

theorem countsOk_invariant : PipelineInvariant State.CountsOk where
  congr := State.CountsOk.congr
  reset := State.reset_countsOk
  invalidate st _ h := h.invalidate st
  segEncode {s t} _ h := by
    obtain ⟨total, hadmit, rfl⟩ := segEncodeBody_ok.1 h
    obtain ⟨bs, hbs, rfl, -⟩ := segAdmit_ok.1 hadmit
    refine ⟨fun j hj => ?_, nofun⟩
    cases hj
    obtain ⟨-, hfits, -⟩ := rsBlocks_bounds hbs
    exact ⟨bs, hbs, by rw [BitVec.toNat_ofNat, Nat.mod_eq_of_lt hfits]⟩
  cwBuild {s t} hs h := by
    obtain ⟨hseg, -⟩ := hs
    obtain ⟨i, cw, hi, hcw, rfl⟩ := cwBuildBody_ok.1 h
    obtain ⟨bs, hbs, hdata⟩ := hseg i hi
    have hlen : cw.length = totalCodewords bs :=
      cwBuild_length hbs (by rw [State.dataCodewords, State.bufferBytes_length, hdata]) hcw
    refine ⟨hseg, fun j hj => ?_⟩
    cases hj
    obtain ⟨-, -, hfits⟩ := rsBlocks_bounds hbs
    exact ⟨bs, hbs, by rw [BitVec.toNat_ofNat, hlen, Nat.mod_eq_of_lt hfits]⟩
  matBuild {m tr s t} hs h := by
    obtain ⟨-, i, -, rfl⟩ := matBuildBody_ok.1 h
    exact hs.buildMatrix _ _ _
  maskSelect {s t} hs h := by
    obtain ⟨i, -, rfl⟩ := maskSelectBody_ok.1 h
    exact hs
  symFinal {s t} hs h := by
    obtain ⟨m, -, rfl⟩ := symFinalBody_ok.1 h
    exact hs.buildMatrix _ _ _

/-- Settles O56: the counts speak of the stages alone, and `cw_build` answers C codewords for T. -/
theorem countsKept : Obligations.CountsKept := fun _ _ hs h => countsOk_invariant.step hs h

/-! ## The failure record and LR (10_state.md R24, R25, R30) -/

/-- The failure record and SEQ are the same. -/
structure SameRecord (s t : State) : Prop where
  seq : t.seq = s.seq
  done : t.done = s.done
  err : t.err = s.err
  errcode : t.errcode = s.errcode
  errinfo : t.errinfo = s.errinfo

theorem State.StatusOk.congr {s t : State} (hst : SameRecord s t) (h : s.StatusOk) : t.StatusOk := by
  unfold State.StatusOk
  rw [hst.seq, hst.done, hst.err, hst.errcode, hst.errinfo]
  exact h

theorem State.reset_statusOk : State.reset.StatusOk := ⟨nofun, fun _ => ⟨rfl, rfl⟩, nofun⟩

theorem State.accept_statusOk (v : Word) (s : State) : (s.accept v).StatusOk :=
  ⟨fun _ => ⟨rfl, rfl⟩, fun _ => ⟨rfl, rfl⟩, nofun⟩

theorem FailCode.code_bounds (c : FailCode) : 1 ≤ c.code.toNat ∧ c.code.toNat ≤ 8 := by
  cases c <;> decide

theorem State.onFailure_statusOk (op : Byte) (st : Option Stage) (f : Failure) (s : State) :
    (s.onFailure op st f).StatusOk :=
  ⟨nofun, nofun, fun _ => ⟨rfl, f.code.code_bounds⟩⟩

/-- A success keeps the record cleared: acceptance has cleared ERRINFO and no pseudocode writes it. -/
theorem State.onSuccess_statusOk {s : State} (h : s.errinfo = 0#32) : s.onSuccess.StatusOk :=
  ⟨nofun, fun _ => ⟨rfl, h⟩, nofun⟩

theorem State.hostWrite_statusOk {s : State} (a : Nat) (n : AccessSize) (v : Word) (h : s.StatusOk) :
    (s.hostWrite a n v).StatusOk := by
  rcases State.hostWrite_cases a n v s with e | ⟨-, e⟩ | e | ⟨-, e⟩ | ⟨-, e⟩ | ⟨-, r, -, -, -, e⟩ <;> rw [e]
  · exact h
  · exact h
  · exact h
  · exact s.accept_statusOk v
  · exact h.congr (by constructor <;> simp)
  · exact h

theorem State.hostTurn_statusOk {s : State} (h : s.StatusOk) : s.hostTurn.StatusOk := by
  rcases State.hostTurn_cases s with ⟨-, e⟩ | ⟨a, n, q, -, e⟩ | ⟨a, n, v, q, -, e⟩ | ⟨q, -, e⟩ <;> rw [e]
  · exact h
  · rcases State.hostRead_cases a.toNat n { s with hostQ := q } with e' | ⟨-, e'⟩ <;> rw [e'] <;> exact h
  · exact State.hostWrite_statusOk _ _ _ h
  · exact State.reset_statusOk

/-- A completion finds the record cleared, since it comes while BUSY. -/
theorem exec_statusOk {i : Instr} {s t : State} (h : s.StatusOk) (hb : s.seq = .busy)
    (he : exec i s = .next t) : t.StatusOk := by
  obtain ⟨hbusy, hclear, -⟩ := h
  rcases exec_cases he with ⟨u, hu, rfl⟩ | ⟨f, -, rfl⟩
  · exact State.onSuccess_statusOk ((bodyOf_framed hu).host.errinfo.trans (hclear (hbusy hb).2).2)
  · exact State.onFailure_statusOk _ _ _ _

theorem step_statusOk {s t : State} (h : s.StatusOk) (hstep : step s = .next t) : t.StatusOk := by
  rcases step_cases hstep with ⟨-, rfl⟩ | ⟨k, -, -, rfl⟩ | ⟨i, hb, -, -, he⟩ | ⟨e, -, -, -, rfl⟩
  · exact State.hostTurn_statusOk h
  · exact State.hostTurn_statusOk h
  · exact exec_statusOk h hb he
  · exact State.onFailure_statusOk _ _ _ _

/-- What decodes has its operand in 8 bits (30_encoding.md R90, R92). -/
theorem wellFormed_of_decode {w : Word} {i : Instr} (h : decode w = .ok i) : i.WellFormed := by
  have hfa : faField w < 256 := (w.extractLsb' 8 8).isLt
  have rows : ∀ r ∈ opcodeTable, (r.build (faField w) (tField w)).WellFormed := by
    simp [opcodeTable, Instr.WellFormed, Instr.wellFormed, hfa]
  unfold decode at h
  split at h
  · rename_i r hr
    cases h
    exact rows r (List.mem_of_find?_eq_some hr)
  · split at h <;> cases h

theorem State.reset_lrOk : State.reset.LrOk := Nat.zero_le _

theorem lrOk_of_length {s : State} {n : Nat} (h : n ≤ 256) (hlr : s.lr = BitVec.ofNat 9 n) : s.LrOk := by
  rw [State.LrOk, hlr, BitVec.toNat_ofNat]
  omega

/-- An admitted raw sequence makes a polynomial of at most 256 coefficients (40_gf_poly.md R127, R131). -/
theorem canonical_bufferBytes_length_le (s : State) (r : Region) {n : Nat} (h : n ≤ 256) :
    (canonical (s.bufferBytes r n) 0).length ≤ 256 := by
  have := canonical_length_le (s.bufferBytes r n) 0
  rw [State.bufferBytes_length] at this
  omega

/-- R132's check bounds the product: an empty factor makes an empty product. -/
theorem product_length_le {a b r : Poly} (ha : a.length ≤ 256) (hb : b.length ≤ 256)
    (hadmit : admitProduct a b = .ok ()) (h : multiply a b = .ok r) : r.length ≤ 256 := by
  have hle := multiply_length_le h
  unfold admitProduct at hadmit
  split at hadmit
  · cases hadmit
  · rename_i hn
    by_cases hempty : a = [] ∨ b = []
    · rcases hempty with rfl | rfl <;> simp only [List.length_nil] at hle <;> omega
    · obtain ⟨ha0, hb0⟩ := not_or.1 hempty
      have hfits : ¬ a.length + b.length - 1 > 256 := fun hgt => hn ⟨ha0, hb0, hgt⟩
      omega

/-- A polynomial command leaves a length of PR in LR; every other command leaves LR. -/
theorem bodyOf_lrOk {i : Instr} {s t : State} (hwf : i.WellFormed) (hs : s.LrOk) (h : bodyOf i s = .ok t) :
    t.LrOk := by
  by_cases hi : storesTo i = [.pr]
  · cases i with
    | polyMul =>
      obtain ⟨hla, hlb, hadmit, r, hr, rfl⟩ := polyMulBody_ok.1 h
      have ha := canonical_bufferBytes_length_le s .pa hla
      have hb := canonical_bufferBytes_length_le s .pb hlb
      exact lrOk_of_length (product_length_le ha hb hadmit hr) rfl
    | polyMod sh =>
      obtain ⟨-, hlb, r, hr, rfl⟩ := polyModBody_ok.1 h
      have hb := canonical_bufferBytes_length_le s .pb hlb
      exact lrOk_of_length ((polyMod_length hr).le.trans hb) rfl
    | polyGen k =>
      obtain ⟨g, -, rfl⟩ := polyGenBody_ok.1 h
      have hk : k < 256 := of_decide_eq_true hwf
      exact lrOk_of_length hk rfl
    | rsEcc k =>
      obtain ⟨-, ec, -, rfl⟩ := rsEccBody_ok.1 h
      have hk : k < 256 := of_decide_eq_true hwf
      exact lrOk_of_length hk.le rfl
    | _ => simp [storesTo] at hi
  · rw [State.LrOk, (bodyOf_framed h).lr hi]
    exact hs

theorem State.hostTurn_lrOk {s : State} (h : s.LrOk) : s.hostTurn.LrOk := by
  rcases State.hostTurn_samePipeline s with ⟨-, hlr⟩ | ⟨q, e⟩
  · rw [State.LrOk, hlr]; exact h
  · rw [e]; exact State.reset_lrOk

theorem State.onFailure_lrOk {s : State} (op : Byte) (st : Option Stage) (f : Failure) (h : s.LrOk) :
    (s.onFailure op st f).LrOk := by
  rw [State.LrOk, State.onFailure_lr]; exact h

theorem step_lrOk {s t : State} (h : s.LrOk) (hstep : step s = .next t) : t.LrOk := by
  rcases step_cases hstep with ⟨-, rfl⟩ | ⟨k, -, -, rfl⟩ | ⟨i, -, -, hd, he⟩ | ⟨e, -, -, -, rfl⟩
  · exact State.hostTurn_lrOk h
  · exact State.hostTurn_lrOk (s := { s with wait := k }) h
  · rcases exec_cases he with ⟨u, hu, rfl⟩ | ⟨f, -, rfl⟩
    · exact bodyOf_lrOk (t := u) (wellFormed_of_decode hd) h hu
    · exact State.onFailure_lrOk _ _ _ h
  · exact State.onFailure_lrOk _ _ _ h

/-- Settles O57: acceptance clears the record, a completion writes it, and only a polynomial command, whose
result fits PR, writes LR. -/
theorem recordKept : Obligations.RecordKept :=
  fun _ _ hstatus hlr h => ⟨step_statusOk hstatus h, step_lrOk hlr h⟩

/-! ## A build is square and leaves no cell Unset (43_matrix.md R216) -/

section Placements

variable {g : Grid} {n : Nat}

/-- `h` is n by n, and every cell set in `g` is set in `h`: what every placement of a build keeps. -/
structure GridExtends (n : Nat) (g h : Grid) : Prop where
  square : h.Square n
  keeps : ∀ r c, g.get r c ≠ .unset → h.get r c ≠ .unset

theorem GridExtends.refl (hg : g.Square n) : GridExtends n g g := ⟨hg, fun _ _ => id⟩

theorem GridExtends.trans {h k : Grid} (hgh : GridExtends n g h) (hhk : GridExtends n h k) : GridExtends n g k :=
  ⟨hhk.square, fun r c hs => hhk.keeps r c (hgh.keeps r c hs)⟩

theorem paint_extends (hg : g.Square n) {ws : List CellWrite} (hws : ∀ w ∈ ws, w.colour ≠ .unset) :
    GridExtends n g (paint ws g) :=
  ⟨paint_square hg ws, fun _ _ hs => paint_keeps_set hg ws hws hs⟩

theorem paintUnset_extends (hg : g.Square n) (ws : List CellWrite) : GridExtends n g (paintUnset ws g) :=
  ⟨paintUnset_square hg ws, fun _ _ hs => by rw [paintUnset_get_of_set hg ws hs]; exact hs⟩

theorem set_extends (hg : g.Square n) (r c : Nat) {x : Colour} (hx : x ≠ .unset) :
    GridExtends n g (g.set r c x) := by
  refine ⟨Grid.set_square hg r c x, fun i j hs => ?_⟩
  rw [Grid.get_set hg]
  split
  · exact hx
  · exact hs

theorem finderWrites_set (n R C : Nat) : ∀ w ∈ finderWrites n R C, w.colour ≠ .unset := by
  intro w hw
  obtain ⟨r, -, hw⟩ := List.mem_flatMap.1 hw
  obtain ⟨k, -, hw⟩ := List.mem_filterMap.1 hw
  split at hw
  · cases hw; exact darkIf_ne_unset _
  · cases hw

theorem finders_set (n : Nat) : ∀ w ∈ finderWrites n 0 0 ++ finderWrites n (n - 7) 0 ++ finderWrites n 0 (n - 7),
    w.colour ≠ .unset := by
  intro w hw
  simp only [List.mem_append] at hw
  rcases hw with (hw | hw) | hw <;> exact finderWrites_set _ _ _ w hw

theorem placeFinders_extends (hg : g.Square n) : GridExtends n g (placeFinders n g) :=
  paint_extends hg (finders_set n)

theorem alignmentWrites_set (row col : Nat) : ∀ w ∈ alignmentWrites row col, w.colour ≠ .unset := by
  intro w hw
  obtain ⟨r, -, hw⟩ := List.mem_flatMap.1 hw
  obtain ⟨k, -, rfl⟩ := List.mem_map.1 hw
  exact darkIf_ne_unset _

theorem placeAlignmentAt_extends (hg : g.Square n) (p : Nat × Nat) : GridExtends n g (placeAlignmentAt g p) := by
  unfold placeAlignmentAt
  split
  · exact paint_extends hg (alignmentWrites_set _ _)
  · exact .refl hg

theorem placeAlignment_extends (hg : g.Square n) (v : Nat) : GridExtends n g (placeAlignment v g) := by
  unfold placeAlignment
  induction pairsOf (alignmentList v) generalizing g with
  | nil => exact .refl hg
  | cons p ps ih =>
    have hp := placeAlignmentAt_extends hg p
    exact hp.trans (ih hp.square)

theorem formatWrites_set (n : Nat) (l : BitVec 2) (m : BitVec 3) (t : Bool) :
    ∀ w ∈ formatWrites n l m t, w.colour ≠ .unset := by
  intro w hw
  obtain ⟨i, -, hw⟩ := List.mem_flatMap.1 hw
  simp only [List.mem_cons, List.not_mem_nil, or_false] at hw
  rcases hw with rfl | rfl <;> exact darkIf_ne_unset _

theorem versionWrites_set (n v : Nat) (t : Bool) : ∀ w ∈ versionWrites n v t, w.colour ≠ .unset := by
  intro w hw
  obtain ⟨i, -, hw⟩ := List.mem_flatMap.1 hw
  simp only [List.mem_cons, List.not_mem_nil, or_false] at hw
  rcases hw with rfl | rfl <;> exact darkIf_ne_unset _

theorem placeVersion_extends (hg : g.Square n) (v : Nat) (t : Bool) : GridExtends n g (placeVersion n v t g) := by
  unfold placeVersion
  split
  · exact paint_extends hg (versionWrites_set _ _ _)
  · exact .refl hg

theorem placeMetadata_extends {v : Nat} (hg : g.Square (moduleCount v)) (l : BitVec 2) (m : BitVec 3)
    (t : Bool) : GridExtends (moduleCount v) g (placeMetadata v l m t g) := by
  have hformat := paint_extends hg (formatWrites_set (moduleCount v) l m t)
  have hdark := set_extends hformat.square (moduleCount v - 8) 8 (x := .dark) (by decide)
  exact (hformat.trans hdark).trans (placeVersion_extends hdark.square v t)

theorem placeData_extends (hg : g.Square n) (cw : List Byte) (m : BitVec 3) :
    GridExtends n g (placeData n cw m g) :=
  ⟨placeBits_square hg m _ _, fun _ _ hs => by rw [placeData, placeBits_get_of_set hg m _ _ hs]; exact hs⟩

theorem paint_sets (hg : g.Square n) {ws : List CellWrite} (hws : ∀ w ∈ ws, w.colour ≠ .unset) {r c : Nat}
    (hr : r < n) (hc : c < n) (hm : ∃ w ∈ ws, w.row = r ∧ w.col = c) : (paint ws g).get r c ≠ .unset := by
  obtain ⟨w, hw, -, -, hget⟩ := paint_get_mem hg ws hr hc hm
  rw [hget]
  exact hws w hw

/-- A finder with its separator covers the 9 by 9 cells around its corner (43_matrix.md R192). -/
theorem exists_finderWrite {n R C r c : Nat} (hr : r < n) (hc : c < n) (hrow : R ≤ r + 1 ∧ r ≤ R + 7)
    (hcol : C ≤ c + 1 ∧ c ≤ C + 7) : ∃ w ∈ finderWrites n R C, w.row = r ∧ w.col = c := by
  have offset : ∀ {a A : Nat}, A ≤ a + 1 ∧ a ≤ A + 7 → (a : Int) - A ∈ finderOffsets := by
    intro a A h
    simp only [finderOffsets, List.mem_cons, List.not_mem_nil, or_false]
    omega
  refine ⟨_, List.mem_flatMap.2 ⟨_, offset hrow, List.mem_filterMap.2 ⟨_, offset hcol, if_pos ?_⟩⟩, ?_, ?_⟩
  · omega
  all_goals dsimp only; omega

/-- The finders with their separators set the first and the last 8 rows of column 6. -/
theorem placeFinders_column6 (hg : g.Square n) (hn : 15 ≤ n) {r : Nat} (hr : r < n) (h : r < 8 ∨ n < r + 9) :
    (placeFinders n g).get r 6 ≠ .unset := by
  refine paint_sets hg (finders_set n) hr (by omega) ?_
  rcases h with h | h
  · obtain ⟨w, hw, hrc⟩ := exists_finderWrite (R := 0) (C := 0) hr (c := 6) (by omega) (by omega) (by omega)
    exact ⟨w, by simp [hw], hrc⟩
  · obtain ⟨w, hw, hrc⟩ := exists_finderWrite (R := n - 7) (C := 0) hr (c := 6) (by omega) (by omega) (by omega)
    exact ⟨w, by simp [hw], hrc⟩

theorem timingWrites_set (n : Nat) : ∀ w ∈ timingWrites n, w.colour ≠ .unset := by
  intro w hw
  obtain ⟨i, -, hw⟩ := List.mem_flatMap.1 hw
  simp only [List.mem_cons, List.not_mem_nil, or_false] at hw
  rcases hw with rfl | rfl <;> exact darkIf_ne_unset _

/-- The timing pattern sets column 6 between the finders (43_matrix.md R196). -/
theorem placeTiming_column6 (hg : g.Square n) {r : Nat} (h8 : 8 ≤ r) (hr : r + 8 ≤ n) :
    (placeTiming n g).get r 6 ≠ .unset := by
  refine paintUnset_sets hg _ (timingWrites_set n) (by omega) (by omega) ?_
  refine ⟨⟨r - 8 + 8, 6, _⟩, List.mem_flatMap.2 ⟨r - 8, List.mem_range.2 (by omega), List.mem_cons_self⟩, ?_, rfl⟩
  exact Nat.sub_add_cancel h8

/-- The function patterns are square and leave no cell of column 6, which data placement skips, Unset. -/
theorem placeFunctionPatterns_column6 (v : Nat) : (placeFunctionPatterns v).Square (moduleCount v)
    ∧ ∀ r, r < moduleCount v → (placeFunctionPatterns v).get r 6 ≠ .unset := by
  have hn : 15 ≤ moduleCount v := by unfold moduleCount; omega
  have hblank := Grid.blank_square (moduleCount v)
  have hfinders := placeFinders_extends hblank
  have halign := placeAlignment_extends hfinders.square v
  have htiming : GridExtends _ _ (placeFunctionPatterns v) := paintUnset_extends halign.square _
  refine ⟨htiming.square, fun r hr => ?_⟩
  by_cases hmid : 8 ≤ r ∧ r + 8 ≤ moduleCount v
  · exact placeTiming_column6 halign.square hmid.1 hmid.2
  · exact (halign.trans htiming).keeps r 6 (placeFinders_column6 hblank hn hr (by omega))

/-- R216: every build is N by N, and every cell is Light or Dark. -/
theorem build_coloured (cw : List Byte) (v : Nat) (l : BitVec 2) (m : BitVec 3) (t : Bool) :
    (build cw v l m t).Square (moduleCount v) ∧ (build cw v l m t).Coloured (moduleCount v) := by
  obtain ⟨hsquare, hcol6⟩ := placeFunctionPatterns_column6 v
  have hmeta := placeMetadata_extends hsquare l m t
  have hdata : GridExtends _ _ (build cw v l m t) := placeData_extends hmeta.square cw m
  refine ⟨hdata.square, fun r c hr hc => ?_⟩
  rw [Grid.cell?_eq_get hdata.square hr hc]
  have hset : (build cw v l m t).get r c ≠ .unset := by
    by_cases h6 : c = 6
    · subst h6
      exact (hmeta.trans hdata).keeps r 6 (hcol6 r hr)
    · have hmem := (mem_zigzag (n := moduleCount v) (by unfold moduleCount; omega)
        (by unfold moduleCount; omega) r c).2 ⟨hr, hc, h6⟩
      exact placeBits_sets hmeta.square m _ _ hr hc hmem
  cases hx : (build cw v l m t).get r c with
  | unset => exact absurd hx hset
  | light => exact .inl rfl
  | dark => exact .inr rfl

end Placements

/-! ## The store (10_state.md R39) -/

theorem overlay_length (new old : Grid) : (new.overlay old).length = max new.length old.length := by
  induction new generalizing old with
  | nil => simp [Grid.overlay]
  | cons n new ih =>
    cases old with
    | nil => simp [Grid.overlay, ih]
    | cons o old => simp [Grid.overlay, ih]

/-- Rows of one length a over rows of one length b make rows of length max a b, where the grid with more rows
is the wider one. -/
theorem overlay_row_length {a b : Nat} {new old : Grid} (hnew : ∀ row ∈ new, row.length = a)
    (hold : ∀ row ∈ old, row.length = b) (hab : new.length < old.length → a ≤ b)
    (hba : old.length < new.length → b ≤ a) : ∀ row ∈ new.overlay old, row.length = max a b := by
  induction new generalizing old with
  | nil =>
    intro row hrow
    rw [Grid.overlay] at hrow
    have := hab (List.length_pos_of_mem hrow)
    rw [hold row hrow, Nat.max_eq_right this]
  | cons n new ih =>
    obtain ⟨hn, hnew⟩ := List.forall_mem_cons.1 hnew
    cases old with
    | nil =>
      have := hba (by simp)
      rw [Grid.overlay, List.forall_mem_cons]
      exact ⟨by omega, ih hnew (by simp) (by simp) fun _ => this⟩
    | cons o old =>
      obtain ⟨ho, hold⟩ := List.forall_mem_cons.1 hold
      rw [Grid.overlay, List.forall_mem_cons]
      simp only [List.length_cons, Nat.add_lt_add_iff_right] at hab hba
      refine ⟨?_, ih hnew hold hab hba⟩
      rw [List.length_append, List.length_drop]
      omega

theorem State.writeMat_matSquare {s : State} {g : Grid} {n : Nat} (h : s.MatSquare) (hg : g.Square n)
    (hn : n ≤ 177) : (s.writeMat g).MatSquare := by
  obtain ⟨hlen, hrows⟩ := h
  obtain ⟨hglen, hgrows⟩ := hg
  unfold State.MatSquare
  rw [State.writeMat_mat, overlay_length, hglen]
  exact ⟨by omega, overlay_row_length hgrows hrows (by omega) (by omega)⟩

theorem overlay_coloured {new old : Grid} {n : Nat} (hsquare : new.Square n) (h : new.Coloured n) :
    (new.overlay old).Coloured n := by
  intro r c hr hc
  rw [overlay_cell? (by rw [hsquare.1]; exact hr) (by rw [hsquare.row_length hr]; exact hc)]
  exact h r c hr hc

/-- R39 and R216, with the stage invariants that bound the version of a build. -/
def State.MatrixOk (s : State) : Prop := s.StagesOk ∧ s.MatOk ∧ s.MatSquare

theorem State.MatrixOk.congr {s t : State} (hst : SamePipeline s t) (h : s.MatrixOk) : t.MatrixOk := by
  obtain ⟨hstages, hmat, hsquare⟩ := h
  refine ⟨hstages.congr hst, ?_, ?_⟩
  · unfold State.MatOk; rw [hst.sym, hst.mat]; exact hmat
  · unfold State.MatSquare; rw [hst.mat]; exact hsquare

theorem State.reset_matOk : State.reset.MatOk := nofun

theorem State.reset_matSquare : State.reset.MatSquare := ⟨Nat.zero_le _, nofun⟩

/-- With no symbol nothing is said of the cells. -/
theorem matOk_of_sym_eq_none {s : State} (h : s.sym = none) : s.MatOk := fun i hi => by rw [h] at hi; cases hi

theorem State.invalidate_sym (st : Stage) (s : State) : (s.invalidate st).sym = none := by cases st <;> rfl

theorem State.MatrixOk.buildMatrix {s : State} {i : CwInfo} (h : s.MatrixOk) (hi : s.cw = some i)
    (m : BitVec 3) (tr : Bool) : (s.buildMatrix i m tr).MatrixOk := by
  obtain ⟨hstages, -, hsquare⟩ := h
  obtain ⟨-, hv⟩ : LegalVersion i.version := by
    obtain ⟨-, -, -, -, hcw, -⟩ := hstages
    exact hcw i hi
  obtain ⟨hbuild, hcoloured⟩ := build_coloured (s.codewords i) i.version.toNat i.level m tr
  refine ⟨hstages.buildMatrix hi m tr, fun j hj => ?_, ?_⟩
  · rw [State.buildMatrix_sym, Option.some.injEq] at hj
    subst hj
    rw [State.buildMatrix_mat]
    exact overlay_coloured hbuild hcoloured
  · have := State.writeMat_matSquare hsquare hbuild (by unfold moduleCount; omega)
    unfold State.MatSquare at this ⊢
    rwa [State.buildMatrix_mat]

theorem matrixOk_invariant : PipelineInvariant State.MatrixOk where
  congr := State.MatrixOk.congr
  reset := ⟨State.reset_stagesOk, State.reset_matOk, State.reset_matSquare⟩
  invalidate st s h := by
    obtain ⟨hstages, -, hsquare⟩ := h
    refine ⟨hstages.invalidate st, matOk_of_sym_eq_none (s.invalidate_sym st), ?_⟩
    unfold State.MatSquare
    rw [State.invalidate_mat]
    exact hsquare
  segEncode {s t} hs h := by
    obtain ⟨hstages, -, hsquare⟩ := hs
    have hstages' := stagesOk_invariant.segEncode hstages h
    obtain ⟨total, -, rfl⟩ := segEncodeBody_ok.1 h
    exact ⟨hstages', matOk_of_sym_eq_none rfl, hsquare⟩
  cwBuild {s t} hs h := by
    obtain ⟨hstages, -, hsquare⟩ := hs
    have hstages' := stagesOk_invariant.cwBuild hstages h
    obtain ⟨i, cw, -, -, rfl⟩ := cwBuildBody_ok.1 h
    exact ⟨hstages', matOk_of_sym_eq_none rfl, hsquare⟩
  matBuild {m tr s t} hs h := by
    obtain ⟨-, i, hi, rfl⟩ := matBuildBody_ok.1 h
    exact hs.buildMatrix hi _ _
  maskSelect {s t} hs h := by
    obtain ⟨hstages, -, -⟩ := hs
    have hstages' := stagesOk_invariant.maskSelect hstages h
    obtain ⟨i, -, rfl⟩ := maskSelectBody_ok.1 h
    exact ⟨hstages', matOk_of_sym_eq_none rfl, State.reset_matSquare⟩
  symFinal {s t} hs h := by
    obtain ⟨m, hm, rfl⟩ := symFinalBody_ok.1 h
    exact hs.buildMatrix (hs.1.cw_eq_cinfo hm) _ _

/-- Settles O59: the stages bound the version of a build, and every build is a square without Unset cells. -/
theorem matrixKept : Obligations.MatrixKept := fun _ _ hstages hmat hsquare h =>
  (matrixOk_invariant.step ⟨hstages, hmat, hsquare⟩ h).2

/-- Settles O60: reset has no stage valid, an empty memory and an empty MAT, and the record cleared. -/
theorem resetInvariants : Obligations.ResetInvariants :=
  ⟨State.reset_stagesOk, State.reset_countsOk, State.reset_statusOk, State.reset_lrOk, State.reset_memOk,
    State.reset_matOk, State.reset_matSquare⟩

/-! ## Register words (10_state.md R24 to R34) -/

theorem fieldAt_getLsbD (v lo i : Nat) (hi : i < 32) :
    (fieldAt v lo).getLsbD i = (decide (lo ≤ i) && v.testBit (i - lo)) := by
  unfold fieldAt
  rw [BitVec.getLsbD_shiftLeft, BitVec.getLsbD_ofNat]
  by_cases h : lo ≤ i
  · simp [h, hi, not_lt.2 h, show i - lo < 32 by omega]
  · simp [h, not_le.1 h]

/-- A flag at a bit shows at that bit only. -/
theorem fieldAt_flag_getLsbD (b : Bool) (lo i : Nat) (hi : i < 32) :
    (fieldAt b.toNat lo).getLsbD i = (decide (i = lo) && b) := by
  rw [fieldAt_getLsbD _ _ _ hi, Nat.testBit_bool_toNat]
  by_cases h : i = lo
  · simp [h]
  · have : lo ≤ i → i - lo ≠ 0 := by omega
    simp [h]; omega

/-- MSTATE is two flags: bit 20 a trial matrix, bit 21 a final one. -/
theorem fieldAt_mstateCode (sym : Option SymInfo) : fieldAt (mstateCode sym) 20
    = fieldAt (sym.any (fun x => x.trial)).toNat 20 ||| fieldAt (sym.any (fun x => !x.trial)).toNat 21 := by
  cases sym with
  | none => rfl
  | some i => cases h : i.trial <;> simp [mstateCode, h] <;> rfl

theorem fieldAt_errcode_getLsbD (e : BitVec 4) (i : Nat) (hi : i < 32) :
    (fieldAt e.toNat 8).getLsbD i = (decide (8 ≤ i ∧ i ≤ 11) && e.getLsbD (i - 8)) := by
  rw [fieldAt_getLsbD _ _ _ hi, BitVec.testBit_toNat]
  by_cases h : i ≤ 11
  · simp [h]
  · rw [BitVec.getLsbD_of_ge e (i - 8) (by omega)]; simp

/-- Settles O13: each field of STATUS shows at its own bits only. -/
theorem statusWordLayout : Obligations.StatusWordLayout := by
  intro s i hi
  unfold State.statusWord
  simp only [BitVec.getLsbD_or, fieldAt_mstateCode, fieldAt_errcode_getLsbD _ _ hi,
    fieldAt_flag_getLsbD _ _ _ hi]
  interval_cases i <;> simp

theorem fieldAt_toNat {v lo w : Nat} (hv : v < 2 ^ w) (hw : lo + w ≤ 32) : (fieldAt v lo).toNat = v * 2 ^ lo := by
  have hfits : v * 2 ^ lo < 2 ^ 32 :=
    calc v * 2 ^ lo < 2 ^ w * 2 ^ lo := Nat.mul_lt_mul_of_pos_right hv (Nat.two_pow_pos lo)
      _ = 2 ^ (lo + w) := by rw [Nat.add_comm, Nat.pow_add]
      _ ≤ 2 ^ 32 := Nat.pow_le_pow_right (by decide) hw
  have hv32 : v < 2 ^ 32 := hv.trans_le (Nat.pow_le_pow_right (by decide) (by omega))
  rw [fieldAt, BitVec.toNat_shiftLeft, BitVec.toNat_ofNat, Nat.mod_eq_of_lt hv32, Nat.shiftLeft_eq,
    Nat.mod_eq_of_lt hfits]

/-- A field above the bits of a word adds to it. -/
theorem or_fieldAt_toNat {x : Word} {k v lo w : Nat} (hx : x.toNat = k) (hk : k < 2 ^ lo) (hv : v < 2 ^ w)
    (hw : lo + w ≤ 32) : (x ||| fieldAt v lo).toNat = k + 2 ^ lo * v := by
  rw [BitVec.toNat_or, hx, fieldAt_toNat hv hw, ← Nat.shiftLeft_eq, Nat.or_comm,
    ← Nat.shiftLeft_add_eq_or_of_lt hk, Nat.shiftLeft_eq, Nat.add_comm, Nat.mul_comm]

/-- The lowest field of a word is its value. -/
theorem bitVec_fieldAt_zero_toNat {w : Nat} (x : BitVec w) (hw : w ≤ 32) : (fieldAt x.toNat 0).toNat = x.toNat := by
  rw [fieldAt_toNat x.isLt (by omega), Nat.pow_zero, Nat.mul_one]

/-- The layout DINFO and CINFO share (10_state.md R32, R33). -/
theorem countInfoWord_toNat (count : BitVec 12) (v : BitVec 6) (l : BitVec 2) :
    (fieldAt count.toNat 0 ||| fieldAt v.toNat 16 ||| fieldAt l.toNat 24).toNat
      = count.toNat + 2 ^ 16 * v.toNat + 2 ^ 24 * l.toNat := by
  have hcount := count.isLt
  have hv := v.isLt
  exact or_fieldAt_toNat (or_fieldAt_toNat (bitVec_fieldAt_zero_toNat count (by decide)) (by omega) hv (by decide))
    (by omega) l.isLt (by decide)

theorem State.cfgWord_toNat (s : State) : s.cfgWord.toNat = s.cfgVersion.toNat + 2 ^ 8 * s.cfgLevel.toNat := by
  have hv := s.cfgVersion.isLt
  exact or_fieldAt_toNat (bitVec_fieldAt_zero_toNat s.cfgVersion (by decide)) (by omega) s.cfgLevel.isLt (by decide)

/-- Field N of SYMINFO holds the module count of every version up to 40 (10_state.md R34). -/
theorem State.syminfoWord_toNat {s : State} {i : SymInfo} (hi : s.sym = some i) (hv : LegalVersion i.version) :
    s.syminfoWord.toNat = i.version.toNat + 2 ^ 8 * i.level.toNat + 2 ^ 12 * i.mask.toNat
      + 2 ^ 15 * i.trial.toNat + 2 ^ 16 * (4 * i.version.toNat + 17) := by
  obtain ⟨-, hv40⟩ := hv
  have hl := i.level.isLt
  have hm := i.mask.isLt
  have ht : i.trial.toNat < 2 ^ 1 := i.trial.toNat_lt
  have hn : i.n % 256 = 4 * i.version.toNat + 17 := by rw [SymInfo.n, moduleCount]; omega
  rw [State.syminfoWord, hi]
  dsimp only
  rw [hn]
  exact or_fieldAt_toNat (w := 8)
    (or_fieldAt_toNat
      (or_fieldAt_toNat
        (or_fieldAt_toNat (bitVec_fieldAt_zero_toNat i.version (by decide)) (by omega) hl (by decide))
        (by omega) hm (by decide))
      (by omega) ht (by decide))
    (by omega) (by omega) (by decide)

/-- Settles O14: the fields of each word lie one above the other. -/
theorem infoWordsLayout : Obligations.InfoWordsLayout := by
  intro s
  refine ⟨s.cfgWord_toNat, ?_, ?_, ?_, ?_, ?_, ?_, ?_, fun i => State.syminfoWord_toNat⟩
  · intro h; rw [State.maskselWord, h]
  · intro m h; rw [State.maskselWord, h]; exact bitVec_fieldAt_zero_toNat m (by decide)
  · intro h; rw [State.dinfoWord, h]
  · intro i h; rw [State.dinfoWord, h]; exact countInfoWord_toNat _ _ _
  · intro h; rw [State.cinfoWord, h]
  · intro i h; rw [State.cinfoWord, h]; exact countInfoWord_toNat _ _ _
  · intro h; rw [State.syminfoWord, h]

/-! ## What the host reads (20_memory.md R60 to R67) -/

section Reads

variable {s : State} {a : Nat} {n : AccessSize}

/-- The buffers lie beyond the register window (20_memory.md R61). -/
theorem window_lt_of_regionOf (h : (regionOf a).isSome = true) : ¬ a < 0x100 := by
  obtain ⟨r, hr⟩ := Option.isSome_iff_exists.1 h
  rw [regionOf_eq_some_iff, Region.holds_iff] at hr
  have hbase : 0x1000 ≤ r.base := by cases r <;> decide
  omega

theorem State.hostRead_answers (h : s.seq = .idle ∨ a = 0x000 ∨ a = 0x008) :
    s.hostRead a n = s.reply (s.memRead a n) := if_pos h

/-- While BUSY only STATUS and ID answer (70_reset_and_hazards.md R302). -/
theorem State.hostRead_busy (h : s.seq = .busy) (h0 : a ≠ 0x000) (h8 : a ≠ 0x008) :
    s.hostRead a n = { s.reply (Config.busyRead s.draws) with draws := s.draws + 1 } :=
  if_neg (by simp [h, h0, h8])

theorem State.memRead_register (ha : a < 0x100) (h4 : a % 4 = 0) : s.memRead a .b4 = s.readReg a := by
  simp [State.memRead, admitted, inWindow, ha, h4]

theorem State.memRead_buffer (hr : (regionOf a).isSome = true) (hn : a % n.bytes = 0) :
    s.memRead a n = BitVec.ofNat 32 (littleEndian ((List.range n.bytes).map (fun k => s.byteAt (a + k)))) := by
  simp [State.memRead, admitted, inWindow, window_lt_of_regionOf hr, hr, hn]

theorem State.memRead_unmapped (ha : 0x100 ≤ a) (hr : regionOf a = none) : s.memRead a n = 0#32 := by
  simp [State.memRead, admitted, inWindow, not_lt.2 ha, hr]

theorem fieldAt_zero_eq_setWidth {w : Nat} (x : BitVec w) : fieldAt x.toNat 0 = x.setWidth 32 := by
  rw [fieldAt, BitVec.shiftLeft_zero, BitVec.ofNat_toNat]

theorem State.readReg_res (k : Fin 8) : s.readReg (0x040 + 4 * k.val) = s.res[k.val] := by
  have hk : (0x040 + 4 * k.val - 0x040) / 4 = k.val := by omega
  have hres : s.readReg (0x040 + 4 * k.val) = s.res.toList.getD ((0x040 + 4 * k.val - 0x040) / 4) 0#32 := by
    fin_cases k <;> rfl
  rw [hres, hk]
  simp

theorem State.readReg_reserved (h : a = 0x03C ∨ (0x060 ≤ a ∧ a < 0x100)) : s.readReg a = 0#32 := by
  unfold State.readReg
  repeat rw [if_neg (by omega)]

/-! ### Little-endian words (20_memory.md R62) -/

theorem littleEndian_append (bs : List Byte) (b : Byte) :
    littleEndian (bs ++ [b]) = littleEndian bs + 2 ^ (8 * bs.length) * b.toNat := by
  induction bs with
  | nil => simp [littleEndian]
  | cons c bs ih =>
    rw [List.cons_append, littleEndian, littleEndian, ih, List.length_cons, Nat.mul_succ, Nat.pow_add]
    ring

theorem littleEndian_range_succ (f : Nat → Byte) (k : Nat) : littleEndian ((List.range (k + 1)).map f)
    = littleEndian ((List.range k).map f) + 2 ^ (8 * k) * (f k).toNat := by
  rw [List.range_succ, List.map_append, List.map_singleton, littleEndian_append, List.length_map,
    List.length_range]

theorem littleEndian_eq_sum (f : Nat → Byte) (k : Nat) :
    littleEndian ((List.range k).map f) = ((List.range k).map (fun i => (f i).toNat <<< (8 * i))).sum := by
  induction k with
  | zero => rfl
  | succ k ih =>
    rw [littleEndian_range_succ, ih, List.range_succ, List.map_append, List.sum_append, List.map_singleton,
      List.sum_singleton, Nat.shiftLeft_eq, Nat.mul_comm]

theorem littleEndian_bytesOfWord (v : Word) (k : Nat) : littleEndian (bytesOfWord v k) = v.toNat % 2 ^ (8 * k) := by
  unfold bytesOfWord
  induction k with
  | zero => simp [littleEndian, Nat.mod_one]
  | succ k ih =>
    rw [littleEndian_range_succ, ih, BitVec.extractLsb'_toNat, Nat.shiftRight_eq_div_pow, Nat.mul_succ,
      Nat.pow_add, Nat.mod_mul]

end Reads

/-- Settles O10: an admitted read answers the register at its offset, or the little-endian word of a buffer. -/
theorem hostReadRule : Obligations.HostReadRule := by
  intro s a n hwindow hbuffer
  have register : ∀ off w, off < 0x100 → s.readReg off = w → s.seq = .idle ∨ off = 0x000 ∨ off = 0x008 →
      a = off → s.hostRead a n = s.reply w := by
    rintro off w hoff rfl hseq rfl
    obtain ⟨rfl, h4⟩ := hwindow hoff
    rw [State.hostRead_answers hseq, State.memRead_register hoff h4]
  constructor
  · intro hidle
    have answers : ∀ w, s.memRead a n = w → s.hostRead a n = s.reply w := by
      rintro w rfl
      exact State.hostRead_answers (.inl hidle)
    have named : ∀ off w, off < 0x100 → s.readReg off = w → a = off → s.hostRead a n = s.reply w :=
      fun off w hoff hw => register off w hoff hw (.inl hidle)
    refine ⟨named _ _ (by decide) rfl, named _ _ (by decide) rfl, named _ _ (by decide) rfl,
      named _ _ (by decide) rfl, named _ _ (by decide) rfl,
      named _ _ (by decide) (fieldAt_zero_eq_setWidth s.plen), named _ _ (by decide) rfl,
      named _ _ (by decide) rfl, named _ _ (by decide) (fieldAt_zero_eq_setWidth s.la),
      named _ _ (by decide) (fieldAt_zero_eq_setWidth s.lb),
      named _ _ (by decide) (fieldAt_zero_eq_setWidth s.lr), named _ _ (by decide) rfl,
      named _ _ (by decide) rfl, named _ _ (by decide) rfl, named _ _ (by decide) rfl, ?_, ?_, ?_, ?_⟩
    · exact fun k => named _ _ (by omega) (State.readReg_res k)
    · exact fun h => named a _ (by omega) (State.readReg_reserved h) rfl
    · intro hr
      rw [← littleEndian_eq_sum (fun k => s.byteAt (a + k))]
      exact answers _ (State.memRead_buffer hr (hbuffer hr))
    · exact fun ha hr => answers _ (State.memRead_unmapped ha hr)
  · intro hbusy
    exact ⟨register _ _ (by decide) rfl (.inr (.inl rfl)), register _ _ (by decide) rfl (.inr (.inr rfl)),
      fun h0 h8 => ⟨_, State.hostRead_busy hbusy h0 h8⟩⟩

/-! ## What the host's writes leave to read -/

section Writes

variable {s : State} {a : Nat} {n : AccessSize}

/-- A write of a register other than CMD and STATUS, while IDLE. -/
theorem State.hostWrite_register (v : Word) (hidle : s.seq = .idle) (ha : a < 0x100) (h4 : a % 4 = 0)
    (hcmd : a ≠ 0x004) (hstatus : a ≠ 0x008) : s.hostWrite a .b4 v = s.writeReg a v := by
  simp [State.hostWrite, admitted, inWindow, hidle, ha, h4, hcmd, hstatus]

theorem State.hostWrite_buffer {r : Region} (v : Word) (hidle : s.seq = .idle) (hr : regionOf a = some r)
    (hwritable : r.hostWritable = true) (hn : a % n.bytes = 0) :
    s.hostWrite a n v = { s with mem := s.mem.write a (bytesOfWord v n.bytes) } := by
  have hwindow : ¬ a < 0x100 := window_lt_of_regionOf (by rw [hr]; rfl)
  have hcmd : a ≠ 0x004 := by omega
  have hstatus : a ≠ 0x008 := by omega
  simp [State.hostWrite, State.writeBytes, admitted, inWindow, hidle, hwindow, hcmd, hstatus, hr, hn, hwritable]

/-- The field a register keeps of a word, at its place, is the word under the field's mask. -/
theorem fieldAt_extractLsb' (v : Word) {lo w : Nat} :
    fieldAt (v.extractLsb' lo w).toNat lo = v &&& fieldAt (2 ^ w - 1) lo := by
  apply BitVec.eq_of_getLsbD_eq
  intro i hi
  rw [BitVec.getLsbD_and, fieldAt_getLsbD _ _ _ hi, fieldAt_getLsbD _ _ _ hi, BitVec.testBit_toNat,
    BitVec.getLsbD_extractLsb', Nat.testBit_two_pow_sub_one]
  by_cases h : lo ≤ i
  · rw [Nat.add_sub_cancel' h]
    cases v.getLsbD i <;> simp
  · simp [h]

theorem State.readReg_writeReg_cfg (v : Word) : (s.writeReg 0x010 v).readReg 0x010 = v &&& 0x0000033F#32 := by
  show fieldAt (v.extractLsb' 0 6).toNat 0 ||| fieldAt (v.extractLsb' 8 2).toNat 8 = _
  rw [fieldAt_extractLsb', fieldAt_extractLsb', ← BitVec.and_or_distrib_left]
  rfl

theorem byteAt_write_inside (v : Word) {m k : Nat} (hk : k < m) :
    { s with mem := s.mem.write a (bytesOfWord v m) : State }.byteAt (a + k) = v.extractLsb' (8 * k) 8 := by
  unfold State.byteAt
  rw [Memory.read?_write_inside _ _ _ (by rwa [bytesOfWord_length])]
  simp [bytesOfWord]

/-- An aligned write to a buffer the host may write reads back (20_memory.md R62, R65, R66). -/
theorem State.memRead_hostWrite_buffer {r : Region} (v : Word) (hidle : s.seq = .idle)
    (hr : regionOf a = some r) (hwritable : r.hostWritable = true) (hn : a % n.bytes = 0) :
    (s.hostWrite a n v).memRead a n = BitVec.ofNat 32 (v.toNat % 2 ^ (8 * n.bytes)) := by
  rw [State.hostWrite_buffer v hidle hr hwritable hn, State.memRead_buffer (by rw [hr]; rfl) hn,
    ← littleEndian_bytesOfWord]
  congr 2
  exact List.map_congr_left fun k hk => byteAt_write_inside v (List.mem_range.1 hk)

end Writes

/-- Settles O12: a register keeps a field of the word written, a buffer its low bytes. -/
theorem writesReadBack : Obligations.WritesReadBack := by
  refine ⟨fun s v hidle => ?_, fun s a n v r hidle hr hwritable hn =>
    State.memRead_hostWrite_buffer v hidle hr hwritable hn⟩
  have register : ∀ off w, off < 0x100 → off % 4 = 0 → off ≠ 0x004 → off ≠ 0x008 →
      (s.writeReg off v).readReg off = w → (s.hostWrite off .b4 v).memRead off .b4 = w := by
    rintro off w ha h4 hcmd hstatus rfl
    rw [State.hostWrite_register v hidle ha h4 hcmd hstatus, State.memRead_register ha h4]
  exact ⟨register _ _ (by decide) (by decide) (by decide) (by decide) (State.readReg_writeReg_cfg v),
    register _ _ (by decide) (by decide) (by decide) (by decide) (fieldAt_extractLsb' v),
    register _ _ (by decide) (by decide) (by decide) (by decide) rfl,
    register _ _ (by decide) (by decide) (by decide) (by decide) rfl,
    register _ _ (by decide) (by decide) (by decide) (by decide) (fieldAt_extractLsb' v),
    register _ _ (by decide) (by decide) (by decide) (by decide) (fieldAt_extractLsb' v)⟩

end Sys2Proof.Machine

/-! SUPPORT. The proofs of the statements about the memory map (20_memory.md): that every step keeps buffer
memory canonical, what an unadmitted access does, and the order of data placement. -/

namespace Sys2Proof.Machine

/-! ## Buffer memory (20_memory.md R61) -/

theorem State.MemOk.congr {s t : State} (hst : t.mem = s.mem) (h : s.MemOk) : t.MemOk := by
  rw [State.MemOk, hst]
  exact h

theorem segEncodeBody_memOk {s t : State} (hs : s.MemOk) (h : segEncodeBody s = .ok t) : t.MemOk := by
  obtain ⟨total, -, rfl⟩ := segEncodeBody_ok.1 h
  exact State.writeBuffer_memOk s .dbuf _ hs

theorem cwBuildBody_memOk {s t : State} (hs : s.MemOk) (h : cwBuildBody s = .ok t) : t.MemOk := by
  obtain ⟨i, cw, -, -, rfl⟩ := cwBuildBody_ok.1 h
  exact State.writeBuffer_memOk s .cwbuf cw hs

theorem maskSelectBody_mem {s t : State} (h : maskSelectBody s = .ok t) : t.mem = s.mem := by
  obtain ⟨i, -, rfl⟩ := maskSelectBody_ok.1 h
  rfl

theorem symFinalBody_mem {s t : State} (h : symFinalBody s = .ok t) : t.mem = s.mem := by
  obtain ⟨m, -, rfl⟩ := symFinalBody_ok.1 h
  exact State.buildMatrix_mem _ _ _ _

/-- A command's pseudocode leaves buffer memory, or writes whole buffers of it (10_state.md R38). -/
theorem bodyOf_memOk {i : Instr} {s t : State} (hs : s.MemOk) (h : bodyOf i s = .ok t) : t.MemOk := by
  cases i with
  | nop => cases h; exact hs
  | gfLog => obtain ⟨x, -, rfl⟩ := gfLogBody_ok.1 h; exact hs
  | gfExp => cases h; exact hs
  | polyMul => obtain ⟨-, -, -, r, -, rfl⟩ := polyMulBody_ok.1 h; exact State.writeBuffer_memOk s .pr r hs
  | polyMod sh => obtain ⟨-, -, r, -, rfl⟩ := polyModBody_ok.1 h; exact State.writeBuffer_memOk s .pr r hs
  | polyGen k => obtain ⟨g, -, rfl⟩ := polyGenBody_ok.1 h; exact State.writeBuffer_memOk s .pr g hs
  | rsLookup => obtain ⟨gs, -, rfl⟩ := rsLookupBody_ok.1 h; exact .congr (by simp only [State.setRes_mem]) hs
  | rsEcc k => obtain ⟨-, ec, -, rfl⟩ := rsEccBody_ok.1 h; exact State.writeBuffer_memOk s .pr ec hs
  | segEncode => exact segEncodeBody_memOk hs h
  | cwBuild => exact cwBuildBody_memOk hs h
  | bchFmt => cases h; exact hs
  | bchVer => cases h; exact hs
  | maskEval m => obtain ⟨-, rfl⟩ := maskEvalBody_ok.1 h; exact hs
  | matBuild m tr => obtain ⟨-, i, -, rfl⟩ := matBuildBody_ok.1 h; exact .congr (State.buildMatrix_mem _ _ _ _) hs
  | matScore => obtain ⟨i, -, rfl⟩ := matScoreBody_ok.1 h; exact .congr (State.setAllRes_mem _ _) hs
  | maskSelect => exact .congr (maskSelectBody_mem h) hs
  | symFinal => exact .congr (symFinalBody_mem h) hs
  | symEncode =>
    obtain ⟨s1, s2, s3, h1, h2, h3, h4⟩ := symEncodeBody_ok.1 h
    exact .congr ((symFinalBody_mem h4).trans (maskSelectBody_mem h3))
      (cwBuildBody_memOk (segEncodeBody_memOk hs h1) h2)
  | symQuery => obtain ⟨i, -, -, rfl⟩ := symQueryBody_ok.1 h; exact hs

theorem State.onFailure_memOk {s : State} (op : Byte) (st : Option Stage) (f : Failure) (h : s.MemOk) :
    (s.onFailure op st f).MemOk := .congr (State.onFailure_mem s op st f) h

theorem State.hostTurn_memOk {s : State} (h : s.MemOk) : s.hostTurn.MemOk := by
  rcases State.hostTurn_cases s with ⟨-, e⟩ | ⟨a, n, q, -, e⟩ | ⟨a, n, v, q, -, e⟩ | ⟨q, -, e⟩ <;> rw [e]
  · exact h
  · rcases State.hostRead_cases a.toNat n { s with hostQ := q } with e' | ⟨-, e'⟩ <;> rw [e'] <;> exact h
  · exact State.hostWrite_memOk (s := { s with hostQ := q }) a.toNat n v h
  · exact State.reset_memOk

/-- Settles O58: a host write and a command's buffer writes are inside the buffers, and reset empties the
memory. -/
theorem memoryKept : Obligations.MemoryKept := by
  intro s t hs h
  rcases step_cases h with ⟨-, rfl⟩ | ⟨k, -, -, rfl⟩ | ⟨i, -, -, -, he⟩ | ⟨e, -, -, -, rfl⟩
  · exact State.hostTurn_memOk hs
  · exact State.hostTurn_memOk (s := { s with wait := k }) hs
  · rcases exec_cases he with ⟨u, hu, rfl⟩ | ⟨f, -, rfl⟩
    · exact bodyOf_memOk (t := u) hs hu
    · exact State.onFailure_memOk _ _ _ hs
  · exact State.onFailure_memOk _ _ _ hs

/-! ## Unadmitted accesses (20_memory.md R63, R64) -/

section Unadmitted

variable {s : State} {a : Nat} {n : AccessSize}

/-- The unadmitted accesses: mis-sized or misaligned ones in the register window, misaligned ones
in a buffer. -/
theorem admitted_eq_false_iff : admitted a n = false ↔
    (a < 0x100 ∧ ¬ (n = .b4 ∧ a % 4 = 0)) ∨ ((regionOf a).isSome = true ∧ a % n.bytes ≠ 0) := by
  unfold admitted inWindow
  by_cases hwindow : a < 0x100
  · have hregion : ¬ (regionOf a).isSome = true := fun h => window_lt_of_regionOf h hwindow
    simp [hwindow, hregion]
  · by_cases hregion : (regionOf a).isSome = true <;> simp [hwindow, hregion]

theorem State.hostWrite_unadmitted (v : Word) (h : admitted a n = false) :
    s.hostWrite a n v = s.rejectWrite a := by
  rw [State.hostWrite, h]
  rfl

theorem State.memRead_unadmitted (h : admitted a n = false) : s.memRead a n = 0#32 := by
  rw [State.memRead, h]
  rfl

/-- A rejected write has no effect while IDLE, and none at STATUS's address (log entry 8). -/
theorem State.rejectWrite_eq_self (h : s.seq = .idle ∨ a = 0x008) : s.rejectWrite a = s := by
  refine if_neg ?_
  rintro ⟨hbusy, hstatus⟩
  rcases h with hidle | h8
  · rw [hidle] at hbusy; cases hbusy
  · exact hstatus h8

/-- While BUSY the map's admission does not matter: every write not to STATUS is dropped
(70_reset_and_hazards.md R301). -/
theorem State.hostWrite_busy (v : Word) (hbusy : s.seq = .busy) (hstatus : a ≠ 0x008) :
    s.hostWrite a n v = s.dropWrite := by
  cases h : admitted a n with
  | false => rw [State.hostWrite_unadmitted v h]; exact if_pos ⟨hbusy, hstatus⟩
  | true => simp [State.hostWrite, h, hbusy, hstatus]

end Unadmitted

/-- Settles O11: an unadmitted access is rejected, and a write while BUSY is dropped, admitted
or not. -/
theorem unadmittedAccess : Obligations.UnadmittedAccess := by
  intro s a n v
  refine ⟨fun hbusy hstatus => State.hostWrite_busy v hbusy hstatus, fun h => ?_⟩
  have hun : admitted a n = false := admitted_eq_false_iff.2 h
  refine ⟨fun hidle => ⟨?_, ?_⟩, fun _ h8 => ?_⟩
  · rw [State.hostWrite_unadmitted v hun, State.rejectWrite_eq_self (.inl hidle)]
  · rw [State.hostRead_answers (.inl hidle), State.memRead_unadmitted hun]
    rfl
  · rw [State.hostWrite_unadmitted v hun, State.rejectWrite_eq_self (.inr h8)]

/-! ## The order of data placement (43_matrix.md R211) -/

/-- The right column of a column pair, the pairs counted from the right: `visitedCell`'s column. -/
def rightColumn (n pair : Nat) : Nat :=
  if 6 < n - 1 - 2 * pair then n - 1 - 2 * pair else n - 2 - 2 * pair

/-- The row at position `i` of a sweep. -/
def sweepRow (n pair i : Nat) : Nat := if pair % 2 = 0 then n - 1 - i else i

/-- The visit of index `i` within a column pair. -/
theorem visitedCell_add {n i : Nat} (pair : Nat) (hi : i < 2 * n) :
    visitedCell n (2 * n * pair + i) = (sweepRow n pair (i / 2), rightColumn n pair - i % 2) := by
  have hpair : (2 * n * pair + i) / (2 * n) = pair := by
    rw [Nat.mul_add_div (by omega), Nat.div_eq_of_lt hi, Nat.add_zero]
  have hin : (2 * n * pair + i) % (2 * n) = i := by
    rw [Nat.mul_add_mod, Nat.mod_eq_of_lt hi]
  have hside : (2 * n * pair + i) % 2 = i % 2 := by
    rw [Nat.mul_assoc, Nat.mul_add_mod]
  simp only [visitedCell, hpair, hin, hside]
  rfl

theorem sweepRows_eq (n pair : Nat) :
    sweepRows n (decide (pair % 2 = 0)) = (List.range n).map (sweepRow n pair) := by
  by_cases hup : pair % 2 = 0
  · have hrow : sweepRow n pair = fun i => n - 1 - i := funext fun i => if_pos hup
    simp [sweepRows, hup, hrow, List.range_eq_range', List.reverse_range']
  · have hrow : sweepRow n pair = id := funext fun i => if_neg hup
    simp [sweepRows, hup, hrow]

/-- A list of pairs laid out flat: positions 2i and 2i + 1. -/
theorem flatMap_range_pairs {α : Type} (f : Nat → α) (n : Nat) :
    (List.range n).flatMap (fun i => [f (2 * i), f (2 * i + 1)]) = (List.range (2 * n)).map f := by
  induction n with
  | zero => rfl
  | succ n ih =>
    rw [List.range_succ, List.flatMap_append, ih, Nat.mul_succ, List.range_succ, List.range_succ]
    simp

/-- The sweep of a column pair makes the 2n visits of that pair. -/
theorem sweepPair_eq (n pair : Nat) : sweepPair n (decide (pair % 2 = 0)) (rightColumn n pair)
    = (List.range' (2 * n * pair) (2 * n)).map (visitedCell n) := by
  rw [List.range'_eq_map_range, List.map_map, ← flatMap_range_pairs, sweepPair, sweepRows_eq, List.flatMap_map]
  refine List.flatMap_congr fun i hi => ?_
  have hi : i < n := List.mem_range.1 hi
  have hright := visitedCell_add (n := n) (i := 2 * i) pair (by omega)
  have hleft := visitedCell_add (n := n) (i := 2 * i + 1) pair (by omega)
  rw [Function.comp_apply, Function.comp_apply, hright, hleft, show 2 * i / 2 = i by omega,
    show (2 * i + 1) / 2 = i by omega, show 2 * i % 2 = 0 by omega, show (2 * i + 1) % 2 = 1 by omega]
  rfl

/-- Column pairs `pair` to `pair + k - 1`, the sweep of each opposite to the one before. -/
theorem zigzagFrom_eq (n k : Nat) : ∀ pair,
    zigzagFrom n (decide (pair % 2 = 0)) ((List.range' pair k).map (rightColumn n))
      = (List.range' (2 * n * pair) (2 * n * k)).map (visitedCell n) := by
  induction k with
  | zero => intro pair; rfl
  | succ k ih =>
    intro pair
    have hflip : (!decide (pair % 2 = 0)) = decide ((pair + 1) % 2 = 0) := by
      rw [← decide_not]
      exact decide_eq_decide.2 (by omega)
    rw [List.range'_succ, List.map_cons, zigzagFrom, sweepPair_eq, hflip, ih, ← List.map_append, Nat.mul_succ,
      List.range'_append_1, Nat.mul_succ, Nat.add_comm (2 * n)]

/-- The column `pairColumns` stands at when it reaches a pair: column 6 is still to skip. -/
def pairStart (n pair : Nat) : Nat := if 6 ≤ n - 1 - 2 * pair then n - 1 - 2 * pair else n - 2 - 2 * pair

/-- With `k` pairs left, `pairColumns` lists their right columns. -/
theorem pairColumns_eq {n k : Nat} : ∀ {fuel pair : Nat}, n = 2 * (pair + k) + 1 → k ≤ fuel →
    pairColumns fuel (pairStart n pair) = (List.range' pair k).map (rightColumn n) := by
  induction k with
  | zero =>
    intro fuel pair hn _
    have hstart : pairStart n pair = 0 := by unfold pairStart; split <;> omega
    rw [hstart]
    cases fuel <;> rfl
  | succ k ih =>
    intro fuel pair hn hfuel
    obtain ⟨fuel, rfl⟩ := Nat.exists_eq_add_of_le' (show 1 ≤ fuel by omega)
    have hstart : pairStart n pair ≠ 0 := by unfold pairStart; split <;> omega
    have hright : (if pairStart n pair = 6 then 5 else pairStart n pair) = rightColumn n pair := by
      unfold pairStart rightColumn; split_ifs <;> omega
    have hnext : rightColumn n pair - 2 = pairStart n (pair + 1) := by
      unfold pairStart rightColumn; split_ifs <;> omega
    rw [pairColumns, if_neg hstart, hright]
    show rightColumn n pair :: pairColumns fuel (rightColumn n pair - 2) = _
    rw [hnext, ih (by omega) (by omega), List.range'_succ, List.map_cons]

/-- Data placement visits the cells in the order of `visitedCell`. -/
theorem zigzag_eq {n : Nat} (hodd : n % 2 = 1) (hn : 9 ≤ n) :
    zigzag n = (List.range (n * (n - 1))).map (visitedCell n) := by
  obtain ⟨k, hk⟩ : ∃ k, n = 2 * k + 1 := ⟨n / 2, by omega⟩
  have hstart : n - 1 = pairStart n 0 := (if_pos (by omega)).symm
  have hcols : pairColumns n (n - 1) = (List.range' 0 k).map (rightColumn n) := by
    rw [hstart]
    exact pairColumns_eq (by omega) (by omega)
  have hvisits : 2 * n * k = n * (n - 1) := by
    rw [show n - 1 = 2 * k by omega]
    ring
  rw [zigzag, hcols, ← hvisits, List.range_eq_range']
  exact zigzagFrom_eq n k 0

/-- The two columns of a pair differ, and no two pairs share a column. -/
theorem rightColumn_sub_injective {n p q a b : Nat} (hodd : n % 2 = 1) (hp : 2 * p + 1 < n) (hq : 2 * q + 1 < n)
    (ha : a < 2) (hb : b < 2) (h : rightColumn n p - a = rightColumn n q - b) : p = q ∧ a = b := by
  unfold rightColumn at h
  split at h <;> split at h <;> omega

/-- Every visit lies in the sweep of a column pair. -/
theorem exists_pair_of_visit {n x : Nat} (hodd : n % 2 = 1) (hx : x < n * (n - 1)) :
    ∃ pair i, x = 2 * n * pair + i ∧ i < 2 * n ∧ 2 * pair + 1 < n := by
  refine ⟨x / (2 * n), x % (2 * n), (Nat.div_add_mod _ _).symm, Nat.mod_lt _ (by omega), ?_⟩
  have hlt : x / (2 * n) < (n - 1) / 2 := by
    rw [Nat.div_lt_iff_lt_mul (by omega)]
    calc x < n * (n - 1) := hx
      _ = n * ((n - 1) / 2 * 2) := by rw [show (n - 1) / 2 * 2 = n - 1 by omega]
      _ = (n - 1) / 2 * (2 * n) := by ring
  omega

/-- Data placement visits no cell twice. -/
theorem zigzag_nodup {n : Nat} (hodd : n % 2 = 1) (hn : 9 ≤ n) : (zigzag n).Nodup := by
  rw [zigzag_eq hodd hn]
  refine List.Nodup.map_on (fun x hx y hy hxy => ?_) List.nodup_range
  obtain ⟨p, i, rfl, hi, hp⟩ := exists_pair_of_visit hodd (List.mem_range.1 hx)
  obtain ⟨q, j, rfl, hj, hq⟩ := exists_pair_of_visit hodd (List.mem_range.1 hy)
  rw [visitedCell_add p hi, visitedCell_add q hj, Prod.mk.injEq] at hxy
  obtain ⟨hrow, hcol⟩ := hxy
  obtain ⟨rfl, hside⟩ := rightColumn_sub_injective hodd hp hq (by omega) (by omega) hcol
  have hhalf : i / 2 = j / 2 := by
    unfold sweepRow at hrow
    split at hrow <;> omega
  omega

/-! ## What data placement writes (20_memory.md R69, 43_matrix.md R211) -/

/-- Bit `k` of some codewords, the most significant first, or 0 once they are exhausted. -/
theorem codewordBits_getD (cw : List Byte) (k : Nat) : (codewordBits cw).getD k false
    = if k < 8 * cw.length then (cw.getD (k / 8) 0#8).getLsbD (7 - k % 8) else false := by
  induction cw generalizing k with
  | nil => simp [codewordBits]
  | cons b cw ih =>
    have hcons : codewordBits (b :: cw) = bitsOf b.toNat 8 ++ codewordBits cw := List.flatMap_cons
    have hlen : (bitsOf b.toNat 8).length = 8 := by simp [bitsOf]
    rw [hcons, List.length_cons]
    by_cases hk : k < 8
    · rw [List.getD_append _ _ _ _ (by omega), if_pos (by omega), Nat.div_eq_of_lt hk, Nat.mod_eq_of_lt hk]
      simp [bitsOf, hk, BitVec.testBit_toNat]
    · obtain ⟨j, rfl⟩ := Nat.exists_eq_add_of_le' (show 8 ≤ k by omega)
      rw [List.getD_append_right _ _ _ _ (by omega), hlen, Nat.add_sub_cancel, ih,
        Nat.add_div_right _ (by decide), Nat.add_mod_right, List.getD_cons_succ, Nat.mul_succ]
      simp only [Nat.add_lt_add_iff_right]

/-- Over cells visited once each, the k-th still-Unset one takes bit k, masked. -/
theorem placeBits_get_of_unset {n : Nat} (m : BitVec 3) {ps : List (Nat × Nat)} (hnodup : ps.Nodup)
    (hin : ∀ p ∈ ps, p.1 < n ∧ p.2 < n) {bits : List Bool} {g : Grid} (hg : g.Square n) {k : Nat}
    {q : Nat × Nat} (hq : (ps.filter (fun p => decide (g.get p.1 p.2 = .unset)))[k]? = some q) :
    (placeBits m ps bits g).get q.1 q.2 = Colour.ofBit (xor (bits.getD k false) (maskfn m q.1 q.2)) := by
  induction ps generalizing bits g k with
  | nil => simp at hq
  | cons p ps ih =>
    obtain ⟨hp, hnodup⟩ := List.nodup_cons.1 hnodup
    have hinps : ∀ r ∈ ps, r.1 < n ∧ r.2 < n := fun r hr => hin r (List.mem_cons_of_mem p hr)
    obtain ⟨hrow, hcol⟩ := hin p List.mem_cons_self
    rw [placeBits]
    by_cases hu : g.get p.1 p.2 = .unset
    · rw [if_pos hu]
      rw [List.filter_cons, if_pos (decide_eq_true hu)] at hq
      cases k with
      | zero =>
        obtain rfl : p = q := by simpa using hq
        have hset : (g.set p.1 p.2 (darkIf (xor (bits.headD false) (maskfn m p.1 p.2)))).get p.1 p.2
            = darkIf (xor (bits.headD false) (maskfn m p.1 p.2)) := by
          rw [Grid.get_set hg, if_pos ⟨rfl, rfl, hrow, hcol⟩]
        rw [placeBits_get_of_set (Grid.set_square hg _ _ _) m ps _ (by rw [hset]; exact darkIf_ne_unset _), hset]
        cases bits <;> rfl
      | succ k =>
        rw [List.getElem?_cons_succ] at hq
        have hbits : bits.getD (k + 1) false = bits.tail.getD k false := by cases bits <;> rfl
        rw [hbits]
        refine ih hnodup hinps (Grid.set_square hg _ _ _) ?_
        rw [← hq]
        congr 1
        refine List.filter_congr fun r hr => ?_
        rw [Grid.get_set hg, if_neg]
        rintro ⟨hr1, hr2, -⟩
        exact hp (Prod.ext hr1 hr2 ▸ hr)
    · rw [if_neg hu]
      rw [List.filter_cons, if_neg (by simpa using hu)] at hq
      exact ih hnodup hinps hg hq

/-- Settles O45: the zig-zag is `visitedCell`'s order, and visits no cell twice, so that the k-th Unset cell
takes bit k. -/
theorem dataPlacementOrder : Obligations.DataPlacementOrder := by
  intro n cw m g hg hodd hn
  rw [← zigzag_eq hodd hn]
  refine ⟨fun k p hp => ?_, fun r c hset => placeBits_get_of_set hg m _ _ hset, rfl⟩
  have hin : ∀ q ∈ zigzag n, q.1 < n ∧ q.2 < n := by
    intro q hq
    obtain ⟨hrow, hcol, -⟩ := (mem_zigzag hodd hn q.1 q.2).1 hq
    exact ⟨hrow, hcol⟩
  rw [placeData, placeBits_get_of_unset m (zigzag_nodup hodd hn) hin hg hp, codewordBits_getD]

end Sys2Proof.Machine

/-! SUPPORT. The proofs of the statements about the encoding (30_encoding.md): the numbers a word's fields
hold, that the opcode map's rows are the commands, that decoder and encoder agree, and the illegal words. -/

namespace Sys2Proof

open Machine

/-! ## Words as numbers (30_encoding.md R90, R98) -/

theorem opField_toNat (w : Word) : (opField w).toNat = w.toNat % 2 ^ 8 := by
  simp [opField]

theorem faField_eq (w : Word) : faField w = w.toNat / 2 ^ 8 % 2 ^ 8 := by
  simp [faField, Nat.shiftRight_eq_div_pow]

theorem tField_toNat (w : Word) : (tField w).toNat = w.toNat / 2 ^ 16 % 2 := Nat.toNat_testBit _ _

theorem Instr.operandA_lt (i : Instr) (h : i.WellFormed) : i.operandA < 2 ^ 8 := by
  cases i with
  | polyMod | polyGen | rsEcc | maskEval | matBuild => exact of_decide_eq_true h
  | _ => exact Nat.two_pow_pos 8

theorem Instr.operandB_lt (i : Instr) : i.operandB < 2 := by
  cases i with
  | matBuild m t => exact t.toNat_lt
  | _ => exact Nat.two_pos

theorem encode_toNat {i : Instr} (h : i.WellFormed) :
    (encode i).toNat = i.opcode.toNat + 2 ^ 8 * i.operandA + 2 ^ 16 * i.operandB := by
  have hop := i.opcode.isLt
  have hA := i.operandA_lt h
  exact or_fieldAt_toNat (w := 1)
    (or_fieldAt_toNat (BitVec.toNat_setWidth_of_le (by decide)) hop hA (by decide))
    (by omega) i.operandB_lt (by decide)

theorem faField_encode {i : Instr} (h : i.WellFormed) : faField (encode i) = i.operandA := by
  have hop := i.opcode.isLt
  have hA := i.operandA_lt h
  rw [faField_eq, encode_toNat h]
  omega

theorem tField_encode {i : Instr} (h : i.WellFormed) : tField (encode i) = decide (i.operandB = 1) := by
  have hop := i.opcode.isLt
  have hA := i.operandA_lt h
  have hB := i.operandB_lt
  rw [tField, BitVec.getLsbD, Nat.testBit_eq_decide_div_mod_eq, encode_toNat h, decide_eq_decide]
  omega

/-! ## Masked words (30_encoding.md R91, R95) -/

/-- How many low bits of a word its format gives a meaning: the must-be-zero bits above them are 0 in every
word of the format (30_encoding.md R91). -/
def Format.width : Format → Nat
  | .f0 => 8
  | .fa => 16
  | .fab => 17

/-- A format's mask keeps the opcode byte and every bit from its width on. -/
theorem Format.mask_toNat (f : Format) :
    f.mask.toNat % 2 ^ 8 = 2 ^ 8 - 1 ∧ f.mask.toNat / 2 ^ f.width = 2 ^ (32 - f.width) - 1 := by
  cases f <;> decide

theorem OpcodeRow.selects_iff {r : OpcodeRow} {w : Word} :
    r.selects w = true ↔ w &&& r.format.mask = r.op.setWidth 32 := beq_iff_eq

/-- A word that selects a row holds the row's opcode, and nothing from its format's width on. -/
theorem OpcodeRow.toNat_of_selects {r : OpcodeRow} {w : Word} (h : r.selects w = true) :
    w.toNat % 2 ^ 8 = r.op.toNat ∧ w.toNat < 2 ^ r.format.width := by
  have hand : w.toNat &&& r.format.mask.toNat = r.op.toNat := by
    rw [← BitVec.toNat_and, OpcodeRow.selects_iff.1 h, BitVec.toNat_setWidth_of_le (by decide)]
  obtain ⟨hlow, hhigh⟩ := r.format.mask_toNat
  have hwidth : 8 ≤ r.format.width ∧ r.format.width ≤ 32 := by cases r.format <;> decide
  have hop : r.op.toNat < 2 ^ r.format.width :=
    r.op.isLt.trans_le (Nat.pow_le_pow_right Nat.two_pos hwidth.1)
  constructor
  · have hmod := congrArg (· % 2 ^ 8) hand
    rwa [Nat.and_mod_two_pow, hlow, Nat.and_two_pow_sub_one_eq_mod, Nat.mod_mod,
      Nat.mod_eq_of_lt r.op.isLt] at hmod
  · have hdiv := congrArg (· / 2 ^ r.format.width) hand
    have hw : w.toNat / 2 ^ r.format.width < 2 ^ (32 - r.format.width) := by
      rw [Nat.div_lt_iff_lt_mul (Nat.two_pow_pos _), ← Nat.pow_add, Nat.sub_add_cancel hwidth.2]
      exact w.isLt
    rw [Nat.and_div_two_pow, hhigh, Nat.and_two_pow_sub_one_eq_mod, Nat.mod_eq_of_lt hw,
      Nat.div_eq_of_lt hop] at hdiv
    exact (Nat.div_eq_zero_iff_lt (Nat.two_pow_pos _)).1 hdiv

theorem OpcodeRow.op_of_selects {r : OpcodeRow} {w : Word} (h : r.selects w = true) : r.op = opField w :=
  BitVec.eq_of_toNat_eq ((OpcodeRow.toNat_of_selects h).1.symm.trans (opField_toNat w).symm)

/-! ## The rows of the opcode map (30_encoding.md R94) -/

/-- No two rows have one opcode. -/
theorem opcodeTable_op_inj {r r' : OpcodeRow} (hr : r ∈ opcodeTable) (hr' : r' ∈ opcodeTable)
    (h : r.op = r'.op) : r = r' :=
  List.inj_on_of_nodup_map (f := OpcodeRow.op) (by decide) hr hr' h

theorem OpcodeRow.eq_of_selects {r r' : OpcodeRow} {w : Word} (hr : r ∈ opcodeTable) (hr' : r' ∈ opcodeTable)
    (h : r.selects w = true) (h' : r'.selects w = true) : r = r' :=
  opcodeTable_op_inj hr hr' ((OpcodeRow.op_of_selects h).trans (OpcodeRow.op_of_selects h').symm)

/-- A row makes commands of its opcode and format, with the operands its format has. -/
theorem opcodeTable_build {r : OpcodeRow} (hr : r ∈ opcodeTable) (a : Nat) (t : Bool) :
    (r.build a t).opcode = r.op ∧ (r.build a t).format = r.format
      ∧ (r.build a t).operandA = (if r.format = .f0 then 0 else a)
      ∧ (r.build a t).operandB = (if r.format = .fab then t.toNat else 0) := by
  revert r
  simp [opcodeTable, Instr.opcode, Instr.format, Instr.operandA, Instr.operandB]

/-- Every command is made by some row from its own operands. -/
theorem exists_row (i : Instr) :
    ∃ r ∈ opcodeTable, r.build i.operandA (decide (i.operandB = 1)) = i := by
  cases i with
  | matBuild m t => cases t <;> simp [opcodeTable, Instr.operandA, Instr.operandB]
  | _ => simp [opcodeTable, Instr.operandA]

/-! ## Decoder and encoder (30_encoding.md R95, R98) -/

theorem decode_eq_ok_iff {w : Word} {i : Instr} :
    decode w = .ok i ↔ ∃ r ∈ opcodeTable, r.selects w = true ∧ i = r.build (faField w) (tField w) := by
  unfold decode
  split
  next r hfind =>
    have hr := List.mem_of_find?_eq_some hfind
    have hsel := List.find?_some hfind
    constructor
    · intro h
      exact ⟨r, hr, hsel, (Except.ok.inj h).symm⟩
    · rintro ⟨r', hr', hsel', rfl⟩
      rw [OpcodeRow.eq_of_selects hr hr' hsel hsel']
  next hfind =>
    refine iff_of_false (by split <;> simp) ?_
    rintro ⟨r, hr, hsel, -⟩
    exact List.find?_eq_none.1 hfind r hr hsel

/-- A well-formed command's word matches the command's own row (30_encoding.md R91, R95). -/
theorem encode_and_mask : ∀ i : Instr, Laws.RowMatch.Statement i
  | .nop => Laws.RowMatch.nop
  | .gfLog => Laws.RowMatch.gfLog
  | .gfExp => Laws.RowMatch.gfExp
  | .polyMul => Laws.RowMatch.polyMul
  | .polyMod s => Laws.RowMatch.polyMod s
  | .polyGen k => Laws.RowMatch.polyGen k
  | .rsLookup => Laws.RowMatch.rsLookup
  | .rsEcc k => Laws.RowMatch.rsEcc k
  | .segEncode => Laws.RowMatch.segEncode
  | .cwBuild => Laws.RowMatch.cwBuild
  | .bchFmt => Laws.RowMatch.bchFmt
  | .bchVer => Laws.RowMatch.bchVer
  | .maskEval m => Laws.RowMatch.maskEval m
  | .matBuild m t => Laws.RowMatch.matBuild m t
  | .matScore => Laws.RowMatch.matScore
  | .maskSelect => Laws.RowMatch.maskSelect
  | .symFinal => Laws.RowMatch.symFinal
  | .symEncode => Laws.RowMatch.symEncode
  | .symQuery => Laws.RowMatch.symQuery

/-- Settles O2: the command's own row is selected, and the fields of the word are the command's operands. -/
theorem decodeEncode : Obligations.DecodeEncode := by
  intro i hwf
  obtain ⟨r, hr, hbuild⟩ := exists_row i
  obtain ⟨hop, hformat, -, -⟩ := opcodeTable_build hr i.operandA (decide (i.operandB = 1))
  rw [hbuild] at hop hformat
  refine decode_eq_ok_iff.2 ⟨r, hr, OpcodeRow.selects_iff.2 ?_, ?_⟩
  · rw [← hop, ← hformat]
    exact encode_and_mask i hwf
  · rw [faField_encode hwf, tField_encode hwf, hbuild]

/-- Settles O3: a selected row has the word's opcode, and no two rows have one opcode. -/
theorem decodeByRows : Obligations.DecodeByRows := by
  refine ⟨fun w r _ => ?_, fun w r r' => OpcodeRow.eq_of_selects, fun w i => ?_⟩
  · rw [OpcodeRow.selects_iff]
    cases r.format <;> rfl
  · rw [decode_eq_ok_iff, faField_eq]
    rfl

/-- The word's bits are the opcode, the operands its format has, and zeros from the format's width on. -/
theorem encode_of_decode {w : Word} {i : Instr} (h : decode w = .ok i) : encode i = w := by
  have hwf := wellFormed_of_decode h
  obtain ⟨r, hr, hsel, rfl⟩ := decode_eq_ok_iff.1 h
  obtain ⟨hlow, hwidth⟩ := OpcodeRow.toNat_of_selects hsel
  obtain ⟨hop, -, hA, hB⟩ := opcodeTable_build hr (faField w) (tField w)
  apply BitVec.eq_of_toNat_eq
  rw [encode_toNat hwf, hop, hA, hB, ← hlow, faField_eq, tField_toNat]
  cases hformat : r.format <;> rw [hformat, Format.width] at hwidth
  all_goals
    simp only [reduceCtorEq, if_true, if_false]
    omega

/-- Settles O4: the operand of what decodes has 8 bits, and the encoder rebuilds the word. -/
theorem encodeDecode : Obligations.EncodeDecode := fun _ _ h => ⟨wellFormed_of_decode h, encode_of_decode h⟩

/-! ## Illegal words (30_encoding.md R96) -/

/-- The decoder calls an opcode unassigned iff no row has it. -/
theorem decode_unassigned_iff {w : Word} :
    (∃ op, decode w = .error (.unassignedOpcode op)) ↔ ∀ r ∈ opcodeTable, r.op ≠ opField w := by
  unfold decode
  split
  next r hfind =>
    have hsel := List.find?_some hfind
    exact iff_of_false (by simp) fun h => h r (List.mem_of_find?_eq_some hfind) (OpcodeRow.op_of_selects hsel)
  next =>
    split <;> next hany => simpa using hany

/-- The opcode bytes of no row are the ranges R96 lists. -/
theorem unassigned_opcode_iff (b : Byte) : (∀ r ∈ opcodeTable, r.op ≠ b) ↔
    (0x01 ≤ b.toNat ∧ b.toNat ≤ 0x0F) ∨ (0x12 ≤ b.toNat ∧ b.toNat ≤ 0x17) ∨ (0x1B ≤ b.toNat ∧ b.toNat ≤ 0x1F)
      ∨ (0x24 ≤ b.toNat ∧ b.toNat ≤ 0x2F) ∨ (0x32 ≤ b.toNat ∧ b.toNat ≤ 0x3F)
      ∨ (0x45 ≤ b.toNat ∧ b.toNat ≤ 0x4F) ∨ (0x52 ≤ b.toNat ∧ b.toNat ≤ 0xFF) := by
  have hb := b.isLt
  simp only [opcodeTable, List.cons_append, List.nil_append, List.forall_mem_cons, List.not_mem_nil,
    false_imp_iff, implies_true, and_true, ne_eq, ← BitVec.toNat_inj, BitVec.toNat_ofNat]
  omega

end Sys2Proof

namespace Sys2Proof.Machine

/-! ## The completion of an illegal word (30_encoding.md R96) -/

/-- ERRINFO holds the opcode byte and, above it, the detail's low 24 bits (10_state.md R25). -/
theorem errinfoWord_eq (op : Byte) (d : Nat) :
    errinfoWord op d = BitVec.ofNat 32 (op.toNat + 2 ^ 8 * (d % 2 ^ 24)) := by
  have hd : d % 2 ^ 24 < 2 ^ 24 := Nat.mod_lt d (Nat.two_pow_pos 24)
  have hop := op.isLt
  apply BitVec.eq_of_toNat_eq
  rw [errinfoWord, or_fieldAt_toNat (bitVec_fieldAt_zero_toNat op (by decide)) hop hd (by decide),
    BitVec.toNat_ofNat]
  omega

/-- A failing completion invalidates its stage and leaves the record (60_exceptions.md R279). -/
theorem State.onFailure_eq_asFailed (op : Byte) (st : Option Stage) (f : Failure) (s : State) :
    s.onFailure op st f
      = (s.invalidateFor st).asFailed (op.toNat + 2 ^ 8 * (f.detail % 2 ^ 24)) f.code.code := by
  rw [State.onFailure, State.asFailed, errinfoWord_eq]

theorem step_illegal {s : State} {e : DecodeError} (hbusy : s.seq = .busy) (hwait : s.wait = 0)
    (h : decode s.cmd = .error e) : step s = .next (completeIllegal s) := by
  simp only [step, hbusy, hwait, h]

/-- An illegal word is no stage's, and its detail is 0. -/
theorem completeIllegal_eq (s : State) : completeIllegal s = s.asFailed (s.cmd.toNat % 2 ^ 8) 6#4 := by
  rw [completeIllegal, State.onFailure_eq_asFailed, opField_toNat]
  rfl

/-- Settles O5: a word is legal iff it is some command's, as decoder and encoder agree; a selected row has the
word's opcode; and the completion of an illegal word is a failure of no stage. -/
theorem illegalWordFails : Obligations.IllegalWordFails := by
  refine ⟨fun w => ⟨?_, fun h => ?_⟩, fun w => ?_, fun s hbusy hwait h => ?_⟩
  · rintro ⟨e, he⟩ i hwf rfl
    rw [decodeEncode i hwf] at he
    cases he
  · cases hd : decode w with
    | error e => exact ⟨e, rfl⟩
    | ok i => exact absurd (encode_of_decode hd) (h i (wellFormed_of_decode hd))
  · rw [decode_unassigned_iff, unassigned_opcode_iff, opField_toNat]
  · obtain ⟨e, he⟩ := h
    rw [step_illegal hbusy hwait he, completeIllegal_eq]

/-- Settles O1: ten closed words, each decoded by evaluation. -/
theorem sampleWordsDecode : Obligations.SampleWordsDecode := by
  unfold Obligations.SampleWordsDecode
  decide

end Sys2Proof.Machine

/-! SUPPORT. The proofs of the statements about NOP, the field and the polynomial commands (40_gf_poly.md): the
tables and `log`, what `multiply` and `mod` answer coefficient by coefficient, and what they raise. -/

namespace Sys2Proof.Machine

/-! ## The tables and the field (40_gf_poly.md R121 to R126) -/

theorem logAt_expAt {i : Nat} (h : i < 255) : logAt (expAt i).toNat = i := by
  have all : ∀ i < 255, logAt (expAt i).toNat = i := by decide +kernel
  exact all i h

/-- Settles O17: both tables are finite, and evaluated. -/
theorem expLogTables : Obligations.ExpLogTables := by
  have rule : ∀ i < 256, 8 ≤ i →
      expAt i = expAt (i - 4) ^^^ expAt (i - 5) ^^^ expAt (i - 6) ^^^ expAt (i - 8) := by
    decide +kernel
  exact ⟨by decide, fun i h8 h256 => rule i h256 h8, fun _ => logAt_expAt⟩

theorem gfExp_natCast {e : Nat} (h : e < 255) : gfExp e = expAt e := by
  rw [gfExp]
  congr 1
  omega

/-- `log` on the field elements (40_gf_poly.md R123). -/
theorem gfLog_ok {n : Int} (h1 : 1 ≤ n) (h255 : n ≤ 255) :
    ∃ e : Nat, e < 255 ∧ gfLog n = .ok e ∧ ((gfExp e).toNat : Int) = n := by
  have hn : (BitVec.ofNat 8 n.toNat).toNat = n.toNat := by rw [BitVec.toNat_ofNat]; omega
  have hne : BitVec.ofNat 8 n.toNat ≠ 0#8 := by
    intro h
    rw [h] at hn
    change 0 = n.toNat at hn
    omega
  obtain ⟨e, he, hlog, hexp⟩ := logByte_ok hne
  rw [logByte, hn, Int.toNat_of_nonneg (by omega)] at hlog
  exact ⟨e, he, hlog, by rw [hexp, hn]; omega⟩

/-- `log` raises outside the field elements (40_gf_poly.md R123, D15). -/
theorem gfLog_error {n : Int} (h : ¬ (1 ≤ n ∧ n ≤ 255)) : gfLog n = .error ⟨.mathDomainError, 0⟩ := by
  unfold gfLog
  split
  · rfl
  · rw [if_pos (by omega)]; rfl

/-- Settles O18: each law at the exponents of its elements. -/
theorem fieldLaws : Obligations.FieldLaws := by
  refine ⟨fun n h1 h255 => gfLog_ok h1 h255, fun i => ?_, gfExp_succ, mulByte_gfExp⟩
  obtain ⟨e, hlog, he⟩ := logByte_gfExp i
  rw [← he, Int.toNat_natCast]
  exact hlog

theorem gfTimes_zero (x : Byte) : gfTimes x 0#8 = 0#8 := if_pos (.inr rfl)

theorem zero_gfTimes (x : Byte) : gfTimes 0#8 x = 0#8 := if_pos (.inl rfl)

theorem gfTimes_ne_zero {x y : Byte} (hx : x ≠ 0#8) (hy : y ≠ 0#8) : gfTimes x y ≠ 0#8 := by
  rw [gfTimes, if_neg (not_or.2 ⟨hx, hy⟩)]
  exact gfExp_ne_zero _

/-- What `log` of a byte says about the byte. -/
theorem eq_gfExp_of_logByte {x : Byte} {e : Nat} (h : logByte x = .ok e) : x ≠ 0#8 ∧ x = gfExp e := by
  have hx : x ≠ 0#8 := by rintro rfl; rw [logByte_zero] at h; cases h
  obtain ⟨e', -, he', hexp⟩ := logByte_ok hx
  rw [he'] at h
  cases h
  exact ⟨hx, hexp.symm⟩

/-- A product formed through logs is the field's product, of nonzero factors. -/
theorem mulByte_eq_ok {x y z : Byte} (h : mulByte x y = .ok z) : x ≠ 0#8 ∧ y ≠ 0#8 ∧ z = gfTimes x y := by
  obtain ⟨lx, hlx, h⟩ := bind_eq_ok.1 h
  obtain ⟨ly, hly, h⟩ := bind_eq_ok.1 h
  obtain ⟨hx, ex⟩ := eq_gfExp_of_logByte hlx
  obtain ⟨hy, ey⟩ := eq_gfExp_of_logByte hly
  cases h
  exact ⟨hx, hy, by rw [ex, ey, gfTimes_gfExp]⟩

/-! ## What the polynomial functions raise (40_gf_poly.md R123, R128, R129) -/

/-- The computation raises nothing but MathDomainError with detail 0. -/
def RaisesOnlyDomain {α : Type} (x : Except Failure α) : Prop :=
  ∀ f, x = .error f → f = ⟨.mathDomainError, 0⟩

namespace RaisesOnlyDomain

variable {α β : Type}

theorem ok (a : α) : RaisesOnlyDomain (.ok a) := nofun

theorem raise : RaisesOnlyDomain (Machine.raise .mathDomainError 0 : Except Failure α) := by
  intro f h
  cases h
  rfl

theorem bind {x : Except Failure α} {g : α → Except Failure β} (hx : RaisesOnlyDomain x)
    (hg : ∀ a, RaisesOnlyDomain (g a)) : RaisesOnlyDomain (x >>= g) := by
  intro f h
  rcases bind_eq_error.1 h with h | ⟨a, -, h⟩
  · exact hx f h
  · exact hg a f h

theorem mapM {g : α → Except Failure β} (hg : ∀ a, RaisesOnlyDomain (g a)) (xs : List α) :
    RaisesOnlyDomain (xs.mapM g) := by
  induction xs with
  | nil => rw [mapM_nil]; exact ok []
  | cons x xs ih => rw [mapM_cons]; exact (hg x).bind fun y => ih.bind fun ys => ok _

theorem logByte (x : Byte) : RaisesOnlyDomain (logByte x) := by
  by_cases hx : x = 0#8
  · rw [hx, logByte_zero]; exact raise
  · obtain ⟨e, -, he, -⟩ := logByte_ok hx
    rw [he]; exact ok e

theorem mulByte (x y : Byte) : RaisesOnlyDomain (mulByte x y) :=
  (logByte x).bind fun _ => (logByte y).bind fun _ => ok _

theorem multiplyRows (b : Poly) (i : Nat) (a out : List Byte) : RaisesOnlyDomain (multiplyRows b i a out) := by
  induction a generalizing i out with
  | nil => exact ok out
  | cons x a ih => exact (mapM (mulByte x) b).bind fun _ => ih _ _

theorem multiply (a b : Poly) : RaisesOnlyDomain (multiply a b) :=
  (multiplyRows b 0 a _).bind fun _ => ok _

theorem modPass (a b : Poly) : RaisesOnlyDomain (modPass a b) :=
  (logByte _).bind fun _ => (logByte _).bind fun _ =>
    (mapM (fun y => (logByte y).bind fun _ => ok _) b).bind fun _ => ok _

theorem modLoop (b : Poly) (fuel : Nat) (a : Poly) : RaisesOnlyDomain (modLoop b fuel a) := by
  induction fuel generalizing a with
  | zero => exact ok a
  | succ fuel ih =>
    rw [Machine.modLoop]
    split
    · exact ok a
    · exact (modPass a b).bind ih

theorem polyMod (a b : Poly) : RaisesOnlyDomain (polyMod a b) := by
  cases b with
  | nil => exact raise
  | cons y ys => exact modLoop _ _ _

end RaisesOnlyDomain

/-! ## Coefficients by index (40_gf_poly.md R128) -/

/-- A pass over a list that answers `g` of each element where it does not raise. -/
theorem mapM_eq_map {α β : Type} {f : α → Except Failure β} {g : α → β} {P : α → Prop}
    (hf : ∀ x y, f x = .ok y → P x ∧ y = g x) {xs : List α} {ys : List β} (h : xs.mapM f = .ok ys) :
    (∀ x ∈ xs, P x) ∧ ys = xs.map g := by
  have hall := mapM_ok_iff.1 h
  clear h
  induction hall with
  | nil => exact ⟨nofun, rfl⟩
  | cons hy _ ih =>
    obtain ⟨hP, rfl⟩ := hf _ _ hy
    obtain ⟨hxs, rfl⟩ := ih
    exact ⟨List.forall_mem_cons.2 ⟨hP, hxs⟩, rfl⟩

theorem xorInto_getD {row ys : List Byte} (h : row.length ≤ ys.length) (k : Nat) :
    (xorInto row ys).getD k 0#8 = ys.getD k 0#8 ^^^ row.getD k 0#8 := by
  induction row generalizing ys k with
  | nil => simp [xorInto]
  | cons x row ih =>
    cases ys with
    | nil => simp at h
    | cons y ys =>
      cases k with
      | zero => simp [xorInto, BitVec.xor_comm]
      | succ k => simpa [xorInto] using ih (Nat.le_of_succ_le_succ h) k

theorem xorAt_getD {i : Nat} {row ys : List Byte} (h : i + row.length ≤ ys.length) (k : Nat) :
    (xorAt i row ys).getD k 0#8 = ys.getD k 0#8 ^^^ if i ≤ k then row.getD (k - i) 0#8 else 0#8 := by
  induction i generalizing ys k with
  | zero => simpa [xorAt] using xorInto_getD (by omega) k
  | succ i ih =>
    cases ys with
    | nil => simp at h
    | cons y ys =>
      cases k with
      | zero => simp [xorAt]
      | succ k => simpa [xorAt] using ih (by simp at h; omega) k

theorem xorAt_nil (i : Nat) (ys : List Byte) : xorAt i [] ys = ys := by
  induction i generalizing ys with
  | zero => rfl
  | succ i ih => cases ys with
    | nil => rfl
    | cons y ys => rw [xorAt, ih]

theorem xorAll_cons (x : Byte) (xs : List Byte) : xorAll (x :: xs) = x ^^^ xorAll xs := rfl

theorem xorAll_eq_zero {xs : List Byte} (h : ∀ x ∈ xs, x = 0#8) : xorAll xs = 0#8 := by
  induction xs with
  | nil => rfl
  | cons x xs ih =>
    obtain ⟨hx, hxs⟩ := List.forall_mem_cons.1 h
    rw [xorAll_cons, hx, ih hxs, BitVec.xor_self]

theorem productCoeff_of_empty {a b : Poly} (h : a = [] ∨ b = []) (k : Nat) : productCoeff a b k = 0#8 := by
  apply xorAll_eq_zero
  intro x hx
  obtain ⟨i, -, rfl⟩ := List.mem_map.1 hx
  rcases h with rfl | rfl
  · exact zero_gfTimes _
  · exact gfTimes_zero _

/-- The product's coefficients, one coefficient of the first factor split off. -/
theorem productCoeff_cons (x : Byte) (a b : Poly) (k : Nat) : productCoeff (x :: a) b k
    = gfTimes x (b.getD k 0#8) ^^^ if 1 ≤ k then productCoeff a b (k - 1) else 0#8 := by
  rw [productCoeff, List.range_succ_eq_map, List.map_cons, xorAll_cons]
  cases k with
  | zero => rfl
  | succ k =>
    rw [if_pos (by omega), productCoeff, List.map_map]
    congr 3
    funext i
    simp

/-! ## multiply -/

theorem canonical_replicate_zero (n : Nat) : canonical (List.replicate n 0#8) 0 = [] := by
  induction n with
  | zero => rfl
  | succ n ih => rw [List.replicate_succ, canonical_zero_cons, ih]

/-- A row of `multiply`, where it does not raise. -/
theorem mulByte_row_eq_ok {x : Byte} {b row : List Byte} (h : b.mapM (fun y => mulByte x y) = .ok row) :
    (∀ y ∈ b, x ≠ 0#8 ∧ y ≠ 0#8) ∧ row = b.map (gfTimes x) :=
  mapM_eq_map (fun _ _ hz => by
    obtain ⟨hx, hy, e⟩ := mulByte_eq_ok hz
    exact ⟨⟨hx, hy⟩, e⟩) h

/-- The rows of `multiply` are answered only for factors without zero coefficients. -/
theorem noZero_of_multiplyRows {a b out r : Poly} {i : Nat} (hb : b ≠ []) (h : multiplyRows b i a out = .ok r) :
    NoZero a ∧ (a ≠ [] → NoZero b) := by
  induction a generalizing i out with
  | nil => exact ⟨nofun, fun h => absurd rfl h⟩
  | cons x a ih =>
    obtain ⟨row, hrow, h⟩ := bind_eq_ok.1 h
    obtain ⟨hfactors, -⟩ := mulByte_row_eq_ok hrow
    obtain ⟨y, hy⟩ := List.exists_mem_of_ne_nil b hb
    exact ⟨List.forall_mem_cons.2 ⟨(hfactors y hy).1, (ih h).1⟩, fun _ z hz => (hfactors z hz).2⟩

theorem multiplyRows_ok {a b : Poly} (ha : NoZero a) (hb : NoZero b) (i : Nat) (out : List Byte) :
    ∃ r, multiplyRows b i a out = .ok r := by
  induction a generalizing i out with
  | nil => exact ⟨out, rfl⟩
  | cons x a ih =>
    obtain ⟨hx, ha⟩ := List.forall_mem_cons.1 ha
    obtain ⟨row, hrow⟩ := mapM_ok_of_forall (f := mulByte x) (xs := b) fun y hy => by
      obtain ⟨z, hz, -⟩ := mulByte_ok hx (hb y hy)
      exact ⟨z, hz⟩
    rw [multiplyRows, hrow]
    exact ih ha (i + 1) _

/-- Where there is room for the product, the rows add its coefficients from index `i` on. -/
theorem multiplyRows_getD {a b out r : Poly} {i : Nat} (h : multiplyRows b i a out = .ok r)
    (hroom : i + a.length + b.length ≤ out.length + 1) (k : Nat) :
    r.getD k 0#8 = out.getD k 0#8 ^^^ if i ≤ k then productCoeff a b (k - i) else 0#8 := by
  induction a generalizing i out with
  | nil => cases h; simp [productCoeff_of_empty]
  | cons x a ih =>
    obtain ⟨row, hrow, h⟩ := bind_eq_ok.1 h
    obtain ⟨-, rfl⟩ := mulByte_row_eq_ok hrow
    have hget : ∀ j, (b.map (gfTimes x)).getD j 0#8 = gfTimes x (b.getD j 0#8) := fun j => by
      rw [← List.getD_map (f := gfTimes x), gfTimes_zero]
    rw [List.length_cons] at hroom
    rw [ih h (by rw [xorAt_length]; omega), xorAt_getD (by rw [List.length_map]; omega), hget,
      productCoeff_cons, BitVec.xor_assoc]
    congr 1
    by_cases hik : i ≤ k
    · rw [if_pos hik, if_pos hik]
      congr 1
      by_cases hlt : i + 1 ≤ k
      · rw [if_pos hlt, if_pos (by omega), Nat.sub_sub]
      · rw [if_neg hlt, if_neg (by omega)]
    · rw [if_neg hik, if_neg hik, if_neg (by omega), BitVec.xor_self]

theorem multiplyRows_nil (a : Poly) (i : Nat) (out : List Byte) : multiplyRows [] i a out = .ok out := by
  induction a generalizing i with
  | nil => rfl
  | cons x a ih => rw [multiplyRows, mapM_nil, ok_bind, xorAt_nil, ih]

theorem multiply_of_empty {a b : Poly} (h : a = [] ∨ b = []) : multiply a b = .ok [] := by
  rcases h with rfl | rfl
  · rw [multiply, multiplyRows, ok_bind, canonical_replicate_zero]; rfl
  · rw [multiply, multiplyRows_nil, ok_bind, canonical_replicate_zero]; rfl

/-- `multiply` of nonempty factors without zero coefficients: the product, whose leading coefficient is not zero,
so that nothing is stripped (40_gf_poly.md R128). -/
theorem multiply_of_noZero {a b : Poly} (hae : a ≠ []) (hbe : b ≠ []) (ha : NoZero a) (hb : NoZero b) :
    ∃ r, multiply a b = .ok r ∧ r.length = a.length + b.length - 1
      ∧ ∀ k, r.getD k 0#8 = productCoeff a b k := by
  obtain ⟨r, hr⟩ := multiplyRows_ok ha hb 0 (List.replicate (a.length + b.length - 1) 0#8)
  have hlen : r.length = a.length + b.length - 1 := by rw [multiplyRows_length hr, List.length_replicate]
  have hget : ∀ k, r.getD k 0#8 = productCoeff a b k := fun k => by
    rw [multiplyRows_getD hr (by rw [List.length_replicate]; omega)]
    simp
  have hcanonical : canonical r 0 = r := by
    obtain ⟨x, xs, rfl⟩ := List.exists_cons_of_ne_nil hae
    obtain ⟨y, ys, rfl⟩ := List.exists_cons_of_ne_nil hbe
    cases r with
    | nil => rw [List.length_nil, List.length_cons, List.length_cons] at hlen; omega
    | cons z zs =>
      have hz : z = gfTimes x y := by simpa [productCoeff_cons] using hget 0
      rw [canonical_of_ne zs 0 (hz ▸ gfTimes_ne_zero (ha x (by simp)) (hb y (by simp)))]
      exact List.append_nil _
  exact ⟨r, by rw [multiply, hr, ok_bind, hcanonical]; rfl, hlen, hget⟩

/-- Where `multiply` completes: what it answers. -/
theorem multiply_ok {a b : Poly} (h : a = [] ∨ b = [] ∨ (NoZero a ∧ NoZero b)) :
    ∃ r, multiply a b = .ok r ∧ r.length = (if a = [] ∨ b = [] then 0 else a.length + b.length - 1)
      ∧ ∀ k, r.getD k 0#8 = productCoeff a b k := by
  by_cases hempty : a = [] ∨ b = []
  · exact ⟨[], multiply_of_empty hempty, by rw [if_pos hempty]; rfl,
      fun k => (productCoeff_of_empty hempty k).symm⟩
  · obtain ⟨ha, hb⟩ : NoZero a ∧ NoZero b := by tauto
    rw [if_neg hempty]
    exact multiply_of_noZero (fun e => hempty (.inl e)) (fun e => hempty (.inr e)) ha hb

/-- Where `multiply` raises (40_gf_poly.md R128). -/
theorem multiply_error {a b : Poly} (hae : a ≠ []) (hbe : b ≠ []) (h : ¬ (NoZero a ∧ NoZero b)) :
    multiply a b = .error ⟨.mathDomainError, 0⟩ := by
  cases hm : multiply a b with
  | error f => rw [RaisesOnlyDomain.multiply a b f hm]
  | ok r =>
    obtain ⟨out, hout, -⟩ := bind_eq_ok.1 hm
    obtain ⟨ha, hb⟩ := noZero_of_multiplyRows hbe hout
    exact absurd ⟨ha, hb hae⟩ h

/-! ## Coefficients by degree (00_scope.md R10) -/

theorem coeffAt_nil (d : Nat) : coeffAt [] d = 0#8 := rfl

theorem coeffAt_above {p : Poly} {d : Nat} (h : p.length ≤ d) : coeffAt p d = 0#8 := if_neg (by omega)

theorem coeffAt_cons (x : Byte) (p : Poly) (d : Nat) :
    coeffAt (x :: p) d = if d = p.length then x else coeffAt p d := by
  by_cases hlt : d < p.length
  · rw [if_neg (by omega), coeffAt, coeffAt, if_pos hlt, if_pos (by rw [List.length_cons]; omega), List.length_cons,
      show p.length + 1 - 1 - d = (p.length - 1 - d) + 1 by omega, List.getD_cons_succ]
  · by_cases heq : d = p.length
    · subst heq
      simp [coeffAt]
    · rw [if_neg heq, coeffAt_above (p := p) (by omega), coeffAt_above (by rw [List.length_cons]; omega)]

/-- Stripping leading zeros keeps every coefficient. -/
theorem coeffAt_canonical (p : Poly) (d : Nat) : coeffAt (canonical p 0) d = coeffAt p d := by
  induction p with
  | nil => rfl
  | cons x p ih =>
    by_cases hx : x = 0#8
    · rw [hx, canonical_zero_cons, ih, coeffAt_cons]
      split
      · exact coeffAt_above (by omega)
      · rfl
    · rw [canonical_of_ne p 0 hx]
      exact congrArg (coeffAt · d) (List.append_nil _)

theorem coeffAt_map_gfTimes (c : Byte) (p : Poly) (d : Nat) :
    coeffAt (p.map (gfTimes c)) d = gfTimes c (coeffAt p d) := by
  induction p with
  | nil => exact (gfTimes_zero c).symm
  | cons x p ih =>
    rw [List.map_cons, coeffAt_cons, coeffAt_cons, List.length_map, ih]
    split <;> rfl

/-- A row XORed into the leading coefficients is a shifted multiple. -/
theorem coeffAt_xorInto {row p : Poly} (h : row.length ≤ p.length) (d : Nat) :
    coeffAt (xorInto row p) d = coeffAt p d
      ^^^ if p.length - row.length ≤ d then coeffAt row (d - (p.length - row.length)) else 0#8 := by
  induction row generalizing p with
  | nil => simp [xorInto, coeffAt_nil]
  | cons x row ih =>
    cases p with
    | nil => simp at h
    | cons y p =>
      have hle : row.length ≤ p.length := Nat.le_of_succ_le_succ h
      rw [xorInto, coeffAt_cons, coeffAt_cons y, coeffAt_cons x, xorInto_length, ih hle, List.length_cons,
        List.length_cons, Nat.add_sub_add_right]
      by_cases hd : d = p.length
      · rw [if_pos hd, if_pos hd, if_pos (by omega), if_pos (by omega), BitVec.xor_comm]
      · rw [if_neg hd, if_neg hd]
        congr 1
        split
        · rw [if_neg (by omega)]
        · rfl

/-! ## mod -/

/-- What one pass of `mod` answers: the dividend plus a multiple of the divisor, which has no zero coefficient. -/
theorem modPass_eq_ok {a b a' : Poly} (h : modPass a b = .ok a') :
    NoZero b ∧ ∃ c, a' = canonical (xorInto (b.map (gfTimes c)) a) 0 := by
  obtain ⟨la, -, h⟩ := bind_eq_ok.1 h
  obtain ⟨lb, -, h⟩ := bind_eq_ok.1 h
  obtain ⟨row, hrow, h⟩ := bind_eq_ok.1 h
  obtain ⟨hb, rfl⟩ := mapM_eq_map (P := fun y => y ≠ 0#8) (g := gfTimes (gfExp ((la : Int) - lb)))
    (fun y z hz => by
      obtain ⟨ly, hly, hz⟩ := bind_eq_ok.1 hz
      obtain ⟨hy, ey⟩ := eq_gfExp_of_logByte hly
      cases hz
      exact ⟨hy, by rw [ey, gfTimes_gfExp, add_comm]⟩) hrow
  cases h
  exact ⟨hb, _, rfl⟩

/-- `a` is a sum of shifted multiples of `b` and `r`, coefficient by coefficient (40_gf_poly.md R129). -/
def DividesInto (a b r : Poly) : Prop :=
  ∃ q : List (Byte × Nat), ∀ d : Nat, coeffAt a d =
    coeffAt r d ^^^ xorAll (q.map (fun p => if p.2 ≤ d then gfTimes p.1 (coeffAt b (d - p.2)) else 0#8))

theorem DividesInto.refl (a b : Poly) : DividesInto a b a := ⟨[], fun _ => BitVec.xor_zero.symm⟩

/-- One pass more: one more multiple of the divisor, shifted under the dividend's leading coefficient. -/
theorem DividesInto.modPass {a b a' r : Poly} (hle : b.length ≤ a.length) (h : modPass a b = .ok a')
    (hr : DividesInto a' b r) : DividesInto a b r := by
  obtain ⟨q, hq⟩ := hr
  obtain ⟨-, c, rfl⟩ := modPass_eq_ok h
  refine ⟨(c, a.length - b.length) :: q, fun d => ?_⟩
  have hd := hq d
  rw [coeffAt_canonical, coeffAt_xorInto (by rwa [List.length_map]), List.length_map, coeffAt_map_gfTimes] at hd
  rw [List.map_cons, xorAll_cons, BitVec.xor_comm _ (xorAll _), ← BitVec.xor_assoc, ← hd, BitVec.xor_assoc,
    BitVec.xor_self, BitVec.xor_zero]

theorem modLoop_dividesInto {a b r : Poly} {fuel : Nat} (ha : Canonical a) (h : modLoop b fuel a = .ok r) :
    Canonical r ∧ DividesInto a b r := by
  induction fuel generalizing a with
  | zero => cases h; exact ⟨ha, .refl _ b⟩
  | succ fuel ih =>
    rw [modLoop] at h
    split at h
    · cases h; exact ⟨ha, .refl _ b⟩
    · rename_i hge
      obtain ⟨a', hpass, h⟩ := bind_eq_ok.1 h
      have ha' : Canonical a' := by
        obtain ⟨-, c, rfl⟩ := modPass_eq_ok hpass
        exact canonical_canonical _ 0
      obtain ⟨hr, hdiv⟩ := ih ha' h
      exact ⟨hr, hdiv.modPass (Nat.le_of_not_lt hge) hpass⟩

/-- Settles O24: each pass adds one shifted multiple of the divisor. -/
theorem modIsRemainder : Obligations.ModIsRemainder := by
  intro a b r ha _ h
  have hlen := polyMod_length h
  cases b with
  | nil => exact absurd hlen (Nat.not_lt_zero _)
  | cons y ys =>
    obtain ⟨hr, hdiv⟩ := modLoop_dividesInto ha h
    exact ⟨hr, hlen, hdiv⟩

theorem polyMod_of_shorter {a b : Poly} (h : a.length < b.length) : polyMod a b = .ok a := by
  cases b with
  | nil => exact absurd h (Nat.not_lt_zero _)
  | cons y ys =>
    rw [polyMod]
    cases a with
    | nil => rfl
    | cons x xs => rw [List.length_cons, modLoop, if_pos h]

/-- Where `mod` raises: at a pass with a zero coefficient in the divisor (40_gf_poly.md R129). -/
theorem polyMod_error {a b : Poly} (hbe : b ≠ []) (hle : b.length ≤ a.length) (hb : ¬ NoZero b) :
    polyMod a b = .error ⟨.mathDomainError, 0⟩ := by
  cases hm : polyMod a b with
  | error f => rw [RaisesOnlyDomain.polyMod a b f hm]
  | ok r =>
    obtain ⟨y, ys, rfl⟩ := List.exists_cons_of_ne_nil hbe
    cases a with
    | nil => exact absurd hle (by simp)
    | cons x xs =>
      rw [polyMod, List.length_cons, modLoop, if_neg (Nat.not_lt_of_le hle)] at hm
      obtain ⟨a', hpass, -⟩ := bind_eq_ok.1 hm
      exact absurd (modPass_eq_ok hpass).1 hb

/-! ## How a command ends -/

theorem exec_ok {i : Instr} {s u : State} (h : bodyOf i s = .ok u) : exec i s = .next u.onSuccess :=
  (exec_eq_runCommand i s).trans (runCommand_ok h)

/-- A failure of a command of no stage: the record, and nothing else (60_exceptions.md R279). -/
theorem exec_error {i : Instr} {s : State} {code : FailCode} {detail : Nat} (hstage : stageOf i = none)
    (hd : detail < 2 ^ 24) (h : bodyOf i s = .error ⟨code, detail⟩) :
    exec i s = .next (s.asFailed (i.opcode.toNat + 2 ^ 8 * detail) code.code) := by
  rw [exec_eq_runCommand, runCommand_error h, State.onFailure_eq_asFailed, hstage, Nat.mod_eq_of_lt hd]
  rfl

/-- After PR is written and the command has succeeded: PR holds the result and then zeros. -/
theorem byteAt_onSuccess_writePr (s : State) (p : List Byte) (len : BitVec 9) (x : Nat) :
    (State.onSuccess { s.writeBuffer .pr p with lr := len }).byteAt x
      = if 0x2200 ≤ x ∧ x < 0x2300 then p.getD (x - 0x2200) 0#8 else s.byteAt x := by
  have h := s.writeBuffer_byteAt .pr p x
  simp only [Region.holds_iff] at h
  exact h

/-- LR holds a length of PR. -/
theorem writePoly_lr_toNat (s : State) {p : List Byte} (h : p.length ≤ 256) :
    (s.writePoly p).lr.toNat = p.length := by
  rw [State.writePoly_lr, BitVec.toNat_ofNat]
  omega

/-! ## NOP and the field commands (40_gf_poly.md R120, R124, R125) -/

theorem eq_nop_of_opcode {i : Instr} (h : i.opcode = 0x00#8) : i = .nop := by
  cases i with
  | nop => rfl
  | _ => simp [Instr.opcode] at h

theorem State.hostWrite_cmd {s : State} (v : Word) (h : s.seq = .idle) : s.hostWrite 0x004 .b4 v = s.accept v := by
  simp [State.hostWrite, admitted, inWindow, h]

/-- Settles O19: a word of opcode 0 that decodes is NOP's own word, and NOP's pseudocode writes nothing. -/
theorem nopEffect : Obligations.NopEffect := by
  refine ⟨by decide, fun w hop hne => ?_, fun s => rfl, fun s hidle => ?_⟩
  · cases hw : decode w with
    | error e => exact ⟨e, rfl⟩
    | ok i =>
      have hword := encode_of_decode hw
      have hopcode : i.opcode = 0x00#8 := by
        have htoNat := encode_toNat (wellFormed_of_decode hw)
        rw [hword] at htoNat
        apply BitVec.eq_of_toNat_eq
        have := i.opcode.isLt
        change i.opcode.toNat = 0
        omega
      rw [eq_nop_of_opcode hopcode] at hword
      exact absurd hword.symm hne
  · have hnop : exec .nop (s.accept 0#32) = .next (s.accept 0#32).asSucceeded := rfl
    refine ⟨Config.latency 0#32 s.draws, ?_⟩
    rw [State.hostWrite_cmd _ hidle, hnop, State.asSucceeded, ← hidle]
    rfl

/-- Settles O20: `log` of the signed ARG0. -/
theorem gfLogEffect : Obligations.GfLogEffect := by
  refine ⟨by decide, fun s => ⟨?_, fun h => ?_⟩⟩
  · rintro ⟨h1, h255⟩
    obtain ⟨e, he, hlog, hexp⟩ := gfLog_ok h1 h255
    rw [gfExp_natCast he] at hexp
    exact ⟨e, he, hexp, exec_ok (gfLogBody_ok.2 ⟨e, hlog, rfl⟩)⟩
  · exact exec_error (i := .gfLog) rfl (by decide) (gfLogBody_error.2 (gfLog_error h))

/-- Settles O21: `exp` of the signed ARG0, a table entry below index 255. -/
theorem gfExpEffect : Obligations.GfExpEffect := by
  refine ⟨by decide, fun s => ⟨gfExp_ne_zero _, ?_⟩⟩
  have h : exec .gfExp s = .next (s.setRes 0 (gfExp s.arg0Signed).toNat).onSuccess := exec_ok rfl
  rw [h, State.setRes, BitVec.ofNat_toNat]
  rfl

/-! ## The polynomial commands (40_gf_poly.md R131 to R134) -/

theorem admitProduct_ok {a b : Poly} (h : a = [] ∨ b = [] ∨ a.length + b.length ≤ 257) :
    admitProduct a b = .ok () := by
  rw [admitProduct, if_neg]
  rintro ⟨ha, hb, hlen⟩
  rcases h with h | h | h
  · exact ha h
  · exact hb h
  · omega

/-- Settles O22: the operands are admitted, the product is answered, and it fits PR. -/
theorem polyMulCompletes : Obligations.PolyMulCompletes := by
  intro s hla hlb a b h
  have hfactors : a = [] ∨ b = [] ∨ (NoZero a ∧ NoZero b) :=
    h.imp_right (Or.imp_right fun ⟨ha, hb, _⟩ => ⟨ha, hb⟩)
  have hadmit : admitProduct a b = .ok () :=
    admitProduct_ok (h.imp_right (Or.imp_right fun ⟨_, _, hlen⟩ => hlen))
  obtain ⟨r, hr, hlen, hget⟩ := multiply_ok hfactors
  have hfits : r.length ≤ 256 := product_length_le (canonical_bufferBytes_length_le s .pa hla)
    (canonical_bufferBytes_length_le s .pb hlb) hadmit hr
  have hlr := writePoly_lr_toNat s hfits
  refine ⟨_, exec_ok (i := .polyMul) (polyMulBody_ok.2 ⟨hla, hlb, hadmit, r, hr, rfl⟩), rfl, hlr.trans hlen,
    fun x => ?_⟩
  rw [State.onSuccess_lr, hlr]
  refine (byteAt_onSuccess_writePr s r _ x).trans (if_congr Iff.rfl ?_ rfl)
  split
  · exact hget _
  · exact List.getD_eq_default _ _ (by omega)

/-- Settles O23: the remainder is the dividend itself or what the division leaves. -/
theorem polyModCompletes : Obligations.PolyModCompletes := by
  intro s sh hla hlb a b hbe h
  obtain ⟨r, hr⟩ : ∃ r, polyMod a b = .ok r := by
    rcases h with hlt | hb
    · exact ⟨a, polyMod_of_shorter hlt⟩
    · obtain ⟨r, hr, -⟩ := polyMod_ok hbe hb (canonical_canonical _ _)
      exact ⟨r, hr⟩
  have hlen := polyMod_length hr
  have hb256 : b.length ≤ 256 := canonical_bufferBytes_length_le s .pb hlb
  exact ⟨r, _, hr, hlen, exec_ok (i := .polyMod sh) (polyModBody_ok.2 ⟨hla, hlb, r, hr, rfl⟩), rfl,
    writePoly_lr_toNat s (by omega), byteAt_onSuccess_writePr s r _⟩

/-- Every check of POLY.MUL that can refuse (40_gf_poly.md R132). -/
theorem polyMulBody_error {s : State} {f : Failure} : polyMulBody s = .error f ↔ s.admitOperands = .error f
    ∨ (s.admitOperands = .ok () ∧ (admitProduct (canonical s.rawA 0) (canonical s.rawB 0) = .error f
      ∨ (admitProduct (canonical s.rawA 0) (canonical s.rawB 0) = .ok ()
        ∧ multiply (canonical s.rawA 0) (canonical s.rawB 0) = .error f))) := by
  simp [polyMulBody, bind_eq_error, Unique.exists_iff]

/-- Every check of POLY.MOD that can refuse (40_gf_poly.md R133). -/
theorem polyModBody_error {s : State} {sh : Nat} {f : Failure} : polyModBody sh s = .error f ↔
    s.admitOperands = .error f
      ∨ (s.admitOperands = .ok () ∧ polyMod (canonical s.rawA sh) (canonical s.rawB 0) = .error f) := by
  simp [polyModBody, bind_eq_error, Unique.exists_iff]

theorem exec_polyMul_error {s : State} {code : FailCode} {detail : Nat} (hd : detail < 2 ^ 24)
    (h : polyMulBody s = .error ⟨code, detail⟩) :
    exec .polyMul s = .next (s.asFailed (0x18 + 2 ^ 8 * detail) code.code) := exec_error (i := .polyMul) rfl hd h

theorem exec_polyMod_error {s : State} {sh : Nat} {code : FailCode} {detail : Nat} (hd : detail < 2 ^ 24)
    (h : polyModBody sh s = .error ⟨code, detail⟩) :
    exec (.polyMod sh) s = .next (s.asFailed (0x19 + 2 ^ 8 * detail) code.code) :=
  exec_error (i := .polyMod sh) rfl hd h

/-- Operands that are not admitted fail both commands, with the refused length as detail (40_gf_poly.md R131). -/
theorem exec_poly_of_refused_length {s : State} (sh : Nat) {len : BitVec 9}
    (h : s.admitOperands = .error ⟨.operandRange, len.toNat⟩) :
    exec .polyMul s = .next (s.asFailed (0x18 + 2 ^ 8 * len.toNat) 8#4)
      ∧ exec (.polyMod sh) s = .next (s.asFailed (0x19 + 2 ^ 8 * len.toNat) 8#4) :=
  have hlen : len.toNat < 2 ^ 24 := len.isLt.trans (by decide)
  ⟨exec_polyMul_error hlen (polyMulBody_error.2 (.inl h)), exec_polyMod_error hlen (polyModBody_error.2 (.inl h))⟩

/-- Settles O26: the first check that refuses, in the order of the pseudocode. -/
theorem polyOperandsRefused : Obligations.PolyOperandsRefused := by
  intro s sh a b c
  refine ⟨fun hla => exec_poly_of_refused_length sh (admitOperands_error.2 (.inl ⟨hla, rfl⟩)),
    fun hla hlb => exec_poly_of_refused_length sh (admitOperands_error.2 (.inr ⟨hla, hlb, rfl⟩)),
    fun hla hlb => ?_⟩
  have hadmit : s.admitOperands = .ok () := admitOperands_ok.2 ⟨hla, hlb⟩
  refine ⟨fun ha hb hlen => ?_, fun ha hb hlen hzero => ?_, fun hb => ?_, fun hb hle hzero => ?_⟩
  · have hale : a.length ≤ 256 := canonical_bufferBytes_length_le s .pa hla
    have hble : b.length ≤ 256 := canonical_bufferBytes_length_le s .pb hlb
    have hproduct : admitProduct a b = .error ⟨.operandRange, a.length + b.length - 1⟩ :=
      if_pos ⟨ha, hb, by omega⟩
    exact exec_polyMul_error (by omega) (polyMulBody_error.2 (.inr ⟨hadmit, .inl hproduct⟩))
  · have hproduct : admitProduct a b = .ok () := admitProduct_ok (.inr (.inr hlen))
    exact exec_polyMul_error (by decide)
      (polyMulBody_error.2 (.inr ⟨hadmit, .inr ⟨hproduct, multiply_error ha hb hzero⟩⟩))
  · have hzero : polyMod c b = .error ⟨.mathDomainError, 0⟩ := by rw [hb]; rfl
    exact exec_polyMod_error (by decide) (polyModBody_error.2 (.inr ⟨hadmit, hzero⟩))
  · exact exec_polyMod_error (by decide) (polyModBody_error.2 (.inr ⟨hadmit, polyMod_error hb hle hzero⟩))

/-! ## The generator polynomial (40_gf_poly.md R130) -/

theorem gen_succ (k : Nat) : gen (k + 1) = (gen k >>= fun g => multiply g [1#8, gfExp k]) := by
  rw [gen, genFrom_add, Nat.zero_add]
  congr 1
  funext g
  rw [genFrom]
  cases multiply g [1#8, gfExp k] <;> rfl

/-- gen(k) answers k + 1 coefficients, the leading one 1, for every k of a command word. -/
theorem gen_ok {k : Nat} (h : k < 256) : ∃ g, gen k = .ok g ∧ g.length = k + 1 ∧ g.head? = some 1#8 := by
  by_cases h254 : k ≤ 254
  · refine ⟨_, gen_eq h254, genCoeffs_length k, ?_⟩
    rw [genCoeffs, List.range_succ_eq_map, List.map_cons, List.head?_cons, genLog]
    decide
  · obtain rfl : k = 255 := by omega
    refine ⟨_, gen_255, ?_, rfl⟩
    rw [List.length_cons, List.length_append, List.length_replicate, List.length_singleton]

theorem gen_succ_product {k : Nat} (h : k < 255) : ∃ g p, gen k = .ok g ∧ NoZero g ∧ gen (k + 1) = .ok p
    ∧ ∀ j, p.getD j 0#8 = productCoeff g [1#8, expAt k] j := by
  have hg := gen_eq (Nat.le_of_lt_succ h)
  have hge : genCoeffs k ≠ [] := List.ne_nil_of_length_eq_add_one (genCoeffs_length k)
  have hfactor : NoZero [1#8, gfExp k] := by simp [NoZero, gfExp_ne_zero]
  obtain ⟨p, hp, -, hget⟩ := multiply_of_noZero hge (List.cons_ne_nil _ _) (genCoeffs_ne_zero k) hfactor
  rw [gfExp_natCast h] at hget
  exact ⟨_, p, hg, genCoeffs_ne_zero k, by rw [gen_succ, hg, ok_bind, hp], hget⟩

/-- Settles O25: gen(k) in closed form, and the recurrence as a product of factors without zeros. -/
theorem polyGenCompletes : Obligations.PolyGenCompletes := by
  refine ⟨fun s k hk => ?_, rfl, fun k => gen_succ_product, gen_255⟩
  obtain ⟨g, hg, hlen, hhead⟩ := gen_ok hk
  exact ⟨g, _, hg, hlen, hhead, exec_ok (i := .polyGen k) (polyGenBody_ok.2 ⟨g, hg, rfl⟩), rfl,
    byteAt_onSuccess_writePr s g _⟩

end Sys2Proof.Machine

/-! SUPPORT. The proofs of the statements about the Reed-Solomon and codec commands (41_rs_codec.md): the block
table and its lookup, the EC codewords, the data-segment encoder, and the interleaver. -/

namespace Sys2Proof.Machine

/-! ## The block table (41_rs_codec.md R151 to R153) -/

/-- The properties of a cell of the block table that R153 lists, its second group described as the cell's tail. -/
def CellSound (gs : List Group) : Prop :=
  (∀ g ∈ gs, g.data < g.total ∧ g.total - g.data = groupsEc gs ∧ g.total ≤ 153 ∧ g.count ≤ 67)
    ∧ (gs.length = 1 ∨ gs.length = 2 ∧ gs.tail.map Group.data = (gs.take 1).map (fun g => g.data + 1))
    ∧ groupsEc gs ∈ [7, 10, 13, 15, 16, 17, 18, 20, 22, 24, 26, 28, 30]
    ∧ (blocksOf gs).length ≤ 81

theorem rsGroups_sound {v : Nat} {l : BitVec 2} {gs : List Group} (h : rsGroups v l = .ok gs) : CellSound gs := by
  have all : ∀ r ∈ rsTable, ∀ l : BitVec 2, CellSound (r.cell l) := by
    unfold CellSound
    decide +kernel
  obtain ⟨-, r, hr, rfl⟩ := rsGroups_ok.1 h
  exact all r (List.mem_of_getElem? hr) l

/-- The levels of a version share their total of codewords. -/
theorem totalCodewords_level {v : Nat} {l l' : BitVec 2} {gs gs' : List Group} (h : rsGroups v l = .ok gs)
    (h' : rsGroups v l' = .ok gs') : totalCodewords (blocksOf gs') = totalCodewords (blocksOf gs) := by
  have all : ∀ r ∈ rsTable, ∀ l l' : BitVec 2,
      totalCodewords (blocksOf (r.cell l')) = totalCodewords (blocksOf (r.cell l)) := by
    decide +kernel
  obtain ⟨-, r, hr, rfl⟩ := rsGroups_ok.1 h
  obtain ⟨-, r', hr', rfl⟩ := rsGroups_ok.1 h'
  obtain rfl : r = r' := Option.some.inj (hr.symm.trans hr')
  exact all r (List.mem_of_getElem? hr) l l'

/-- A cell has one group or two. -/
theorem CellSound.exists_cons {gs : List Group} (h : CellSound gs) :
    ∃ g rest, gs = g :: rest ∧ rest.length ≤ 1 := by
  obtain ⟨-, hlen, -⟩ := h
  cases gs with
  | nil => simp at hlen
  | cons g rest => exact ⟨g, rest, rfl, by simp only [List.length_cons] at hlen; omega⟩

/-- Every block of the table has at most 153 codewords. -/
theorem rsBlocks_total_le {v : Nat} {l : BitVec 2} {bs : List Block} (h : rsBlocks v l = .ok bs) :
    ∀ b ∈ bs, b.total ≤ 153 := by
  obtain ⟨gs, hgs, rfl⟩ := rsBlocks_ok.1 h
  obtain ⟨hgroups, -⟩ := rsGroups_sound hgs
  intro b hb
  obtain ⟨g, hg, hb⟩ := List.mem_flatMap.1 hb
  obtain ⟨-, -, htotal, -⟩ := hgroups g hg
  rwa [List.eq_of_mem_replicate hb]

/-- Settles O28: every cell of the table is evaluated. -/
theorem rsTableSound : Obligations.RsTableSound := by
  intro v l h1 h40
  obtain ⟨gs, hgs⟩ := rsGroups_isOk.2 ⟨h1, h40⟩
  obtain ⟨hgroups, hlen, hec, hblocks⟩ := rsGroups_sound hgs
  refine ⟨gs, hgs, hgroups, hlen.imp_right ?_, hec, hblocks, fun l' gs' h' => totalCodewords_level hgs h'⟩
  rintro ⟨htwo, hdata⟩
  obtain ⟨g, h, rfl⟩ := List.length_eq_two.1 htwo
  exact ⟨g, h, rfl, by simpa using hdata⟩

/-! ## RS.LOOKUP (41_rs_codec.md R155) -/

theorem blocksOf_cons (g : Group) (gs : List Group) :
    blocksOf (g :: gs) = List.replicate g.count ⟨g.total, g.data⟩ ++ blocksOf gs := List.flatMap_cons

/-- A sum over the blocks of some groups: each group's blocks are equal. -/
theorem sum_map_blocksOf (f : Block → Nat) (gs : List Group) :
    ((blocksOf gs).map f).sum = (gs.map (fun g => g.count * f ⟨g.total, g.data⟩)).sum := by
  induction gs with
  | nil => rfl
  | cons g gs ih => simp [blocksOf_cons, ih]

theorem blocksOf_length (gs : List Group) : (blocksOf gs).length = (gs.map Group.count).sum := by
  simpa using sum_map_blocksOf (fun _ => 1) gs

/-- The packed fields lie one above the other. -/
theorem ofNat_groupWord {g : Group} (hc : g.count < 2 ^ 8) (ht : g.total < 2 ^ 8) (hd : g.data < 2 ^ 16) :
    BitVec.ofNat 32 (groupWord g) = packedGroup g := by
  have hcount : (fieldAt g.count 0).toNat = g.count := by
    rw [fieldAt_toNat hc (by decide), Nat.pow_zero, Nat.mul_one]
  rw [packedGroup, groupWord,
    or_fieldAt_toNat (or_fieldAt_toNat hcount hc ht (by decide)) (by omega) hd (by decide)]

theorem rsLookupBody_error {s : State} {f : Failure} :
    rsLookupBody s = .error f ↔ rsGroups s.version s.cfgLevel = .error f := by
  simp [rsLookupBody, bind_eq_error]

/-- Settles O27: the cell has one group or two, and its counts fit their fields. -/
theorem rsLookupEffect : Obligations.RsLookupEffect := by
  refine ⟨by decide, fun s => ⟨fun hv => ?_, fun hv => ?_⟩⟩
  · obtain ⟨gs, hgs⟩ := rsGroups_isOk (l := s.cfgLevel).2 hv
    have hsound := rsGroups_sound hgs
    obtain ⟨g, rest, rfl, hrest⟩ := hsound.exists_cons
    obtain ⟨hgroups, -⟩ := hsound
    have hword : ∀ h ∈ g :: rest, BitVec.ofNat 32 (groupWord h) = packedGroup h := fun h hh => by
      obtain ⟨hlt, -, htotal, hcount⟩ := hgroups h hh
      exact ofNat_groupWord (by omega) (by omega) (by omega)
    have hsecond : BitVec.ofNat 32 (groupWordAt (g :: rest) 1) = (rest.map packedGroup).headD 0#32 := by
      cases rest with
      | nil => rfl
      | cons h rest => exact hword h (by simp)
    refine ⟨g, rest, hgs, hrest, (exec_ok (i := .rsLookup) (rsLookupBody_ok.2 ⟨_, hgs, rfl⟩)).trans ?_⟩
    rw [blocksOf_length, totalData, totalCodewords, sum_map_blocksOf, sum_map_blocksOf, ← hsecond,
      ← hword g (by simp)]
    simp only [State.onSuccess, State.asSucceeded, State.setRes, groupsEc]
    rfl
  · have hv64 : s.version < 64 := s.cfgVersion.isLt
    have hout : ¬ (1 ≤ s.version ∧ s.version ≤ 40) := hv
    exact exec_error (i := .rsLookup) rfl (by omega) (rsLookupBody_error.2 (rsGroups_error.2 ⟨by omega, rfl⟩))

/-! ## RS.ECC (41_rs_codec.md R161, R163) -/

theorem canonical_eq_nil {d : List Byte} (h : ∀ x ∈ d, x = 0#8) (sh : Nat) : canonical d sh = [] := by
  induction d with
  | nil => rfl
  | cons x d ih =>
    obtain ⟨rfl, hd⟩ := List.forall_mem_cons.1 h
    rw [canonical_zero_cons, ih hd]

/-- With a nonzero coefficient the shift's zeros are appended behind at least one coefficient. -/
theorem lt_canonical_length {d : List Byte} (h : ∃ x ∈ d, x ≠ 0#8) (sh : Nat) : sh < (canonical d sh).length := by
  induction d with
  | nil => simp at h
  | cons x d ih =>
    by_cases hx : x = 0#8
    · rw [hx, canonical_zero_cons]
      exact ih (by simpa [hx] using h)
    · simp [canonical_of_ne d sh hx]

/-- `rs_ecc(d, k)` answers for every EC count up to 254, whose generators have no zero coefficient, and for 255
on data that makes the zero polynomial (41_rs_codec.md R161). -/
theorem rsEcc_ok {d : List Byte} {k : Nat} (hk : k < 256) (h : k ≤ 254 ∨ ∀ x ∈ d, x = 0#8) :
    ∃ ec, rsEcc d k = .ok ec := by
  obtain ⟨g, hg, hlen, -⟩ := gen_ok hk
  obtain ⟨r, hr⟩ : ∃ r, polyMod (canonical d k) g = .ok r := by
    rcases h with h254 | hzero
    · obtain rfl : genCoeffs k = g := Except.ok.inj ((gen_eq h254).symm.trans hg)
      have hne := List.ne_nil_of_length_eq_add_one hlen
      obtain ⟨r, hr, -⟩ := polyMod_ok hne (genCoeffs_ne_zero k) (canonical_canonical d k)
      exact ⟨r, hr⟩
    · exact ⟨[], by rw [canonical_eq_nil hzero]; exact polyMod_of_shorter (by simp [hlen])⟩
  exact ⟨_, by rw [rsEcc, hg, ok_bind, hr]; rfl⟩

/-- gen(255) has zero coefficients, at which the first pass raises. -/
theorem rsEcc_255_error {d : List Byte} (h : ∃ x ∈ d, x ≠ 0#8) :
    rsEcc d 255 = .error ⟨.mathDomainError, 0⟩ := by
  obtain ⟨g, hg, hlen, -⟩ := gen_ok (show 255 < 256 by decide)
  have hzero : ¬ NoZero g := by
    obtain rfl := Except.ok.inj (gen_255.symm.trans hg)
    have hmem : 0#8 ∈ List.replicate 254 0#8 := List.mem_replicate.2 ⟨by decide, rfl⟩
    exact fun hall => hall 0#8 (List.mem_cons_of_mem _ (List.mem_append_left _ hmem)) rfl
  have hle : g.length ≤ (canonical d 255).length := by
    rw [hlen]
    exact lt_canonical_length h 255
  rw [rsEcc, hg, ok_bind, polyMod_error (List.ne_nil_of_length_eq_add_one hlen) hle hzero]
  rfl

theorem rsEccBody_error {s : State} {k : Nat} {f : Failure} : rsEccBody k s = .error f ↔
    s.admitA = .error f ∨ (s.admitA = .ok () ∧ rsEcc s.rawA k = .error f) := by
  simp [rsEccBody, bind_eq_error, Unique.exists_iff]

/-- Settles O29: the generator of degree 255 alone has zero coefficients. -/
theorem rsEccEffect : Obligations.RsEccEffect := by
  intro s k hk
  refine ⟨fun hla h => ?_, fun hla => ?_, fun hla hk255 hnonzero => ?_⟩
  · obtain ⟨ec, hec⟩ := rsEcc_ok hk h
    exact ⟨ec, _, hec, rsEcc_length hec, exec_ok (i := .rsEcc k) (rsEccBody_ok.2 ⟨hla, ec, hec, rfl⟩), rfl,
      byteAt_onSuccess_writePr s ec _⟩
  · exact exec_error (i := .rsEcc k) rfl (s.la.isLt.trans (by decide))
      (rsEccBody_error.2 (.inl (admitA_error.2 ⟨hla, rfl⟩)))
  · subst hk255
    exact exec_error (i := .rsEcc 255) rfl (by decide)
      (rsEccBody_error.2 (.inr ⟨admitA_ok.2 hla, rsEcc_255_error hnonzero⟩))

/-! ## Data followed by its EC codewords (41_rs_codec.md R161) -/

theorem coeffAt_append (p q : Poly) (d : Nat) :
    coeffAt (p ++ q) d = if d < q.length then coeffAt q d else coeffAt p (d - q.length) := by
  induction p with
  | nil =>
    rw [List.nil_append, coeffAt_nil]
    split
    · rfl
    · exact coeffAt_above (by omega)
  | cons x p ih =>
    rw [List.cons_append, coeffAt_cons, ih, coeffAt_cons, List.length_append]
    by_cases hd : d < q.length
    · rw [if_neg (by omega), if_pos hd, if_pos hd]
    · rw [if_neg hd, if_neg hd]
      exact if_congr (by omega) rfl rfl

theorem coeffAt_replicate_zero (n d : Nat) : coeffAt (List.replicate n 0#8) d = 0#8 := by
  rw [← coeffAt_canonical, canonical_replicate_zero, coeffAt_nil]

/-- A shift puts zeros below the coefficients. -/
theorem coeffAt_canonical_shift (p : List Byte) (k d : Nat) :
    coeffAt (canonical p k) d = if d < k then 0#8 else coeffAt p (d - k) := by
  have hshift : coeffAt (canonical p k) d = coeffAt (canonical p 0 ++ List.replicate k 0#8) d := by
    unfold canonical
    split
    · rw [List.nil_append, coeffAt_replicate_zero, coeffAt_nil]
    · rw [List.replicate_zero, List.append_nil]
  rw [hshift, coeffAt_append, List.length_replicate, coeffAt_replicate_zero, coeffAt_canonical]

/-- A canonical polynomial has its leading coefficient at the degree its length gives. -/
theorem Canonical.coeffAt_top {p : Poly} (h : Canonical p) (hp : p ≠ []) :
    coeffAt p (p.length - 1) = p.headD 0#8 ∧ p.headD 0#8 ≠ 0#8 := by
  rcases h with rfl | ⟨x, xs, rfl, hx⟩
  · exact absurd rfl hp
  · exact ⟨by simp [coeffAt_cons], hx⟩

theorem Canonical.length_le {p : Poly} (h : Canonical p) {n : Nat} (hn : ∀ d, n ≤ d → coeffAt p d = 0#8) :
    p.length ≤ n := by
  by_contra hlt
  have hp : p ≠ [] := by rintro rfl; exact hlt (Nat.zero_le n)
  obtain ⟨htop, hne⟩ := h.coeffAt_top hp
  exact hne (htop.symm.trans (hn _ (by omega)))

/-- Canonical polynomials that agree from degree `n` on, where one of them is longer than `n`, have the same
length and leading coefficient. -/
theorem Canonical.same_top {p q : Poly} (hp : Canonical p) (hq : Canonical q) {n : Nat} (hlen : n < p.length)
    (h : ∀ d, n ≤ d → coeffAt q d = coeffAt p d) : q.length = p.length ∧ q.headD 0#8 = p.headD 0#8 := by
  have hpne : p ≠ [] := List.ne_nil_of_length_pos (by omega)
  obtain ⟨htop, hne⟩ := hp.coeffAt_top hpne
  have hqtop := h (p.length - 1) (by omega)
  have hle : q.length ≤ p.length := hq.length_le fun d hd => by rw [h d (by omega), coeffAt_above hd]
  have hge : p.length ≤ q.length := by
    by_contra hlt
    rw [coeffAt_above (by omega), htop] at hqtop
    exact hne hqtop.symm
  have heq : q.length = p.length := le_antisymm hle hge
  have hqne : q ≠ [] := List.ne_nil_of_length_pos (by omega)
  refine ⟨heq, ?_⟩
  rw [← (hq.coeffAt_top hqne).1, heq, hqtop, htop]

/-- A pass of `mod` adds a row that depends on the dividend's leading coefficient alone. -/
theorem modPass_row {a b p : Poly} (h : modPass a b = .ok p) : ∃ row : List Byte, row.length = b.length
    ∧ p = canonical (xorInto row a) 0
    ∧ ∀ a' : Poly, a'.headD 0#8 = a.headD 0#8 → modPass a' b = .ok (canonical (xorInto row a') 0) := by
  obtain ⟨la, hla, h⟩ := bind_eq_ok.1 h
  obtain ⟨lb, hlb, h⟩ := bind_eq_ok.1 h
  obtain ⟨row, hrow, h⟩ := bind_eq_ok.1 h
  cases h
  refine ⟨row, mapM_length hrow, rfl, fun a' ha' => ?_⟩
  rw [modPass, ha', hla, ok_bind, hlb, ok_bind, hrow]
  rfl

theorem modLoop_of_shorter {a b : Poly} (h : a.length < b.length) (fuel : Nat) : modLoop b fuel a = .ok a := by
  cases fuel with
  | zero => rfl
  | succ fuel => rw [modLoop, if_pos h]

/-- A polynomial too short to divide is its own remainder, and adding it to itself leaves nothing. -/
theorem modLoop_add_self {b : Poly} {fuel : Nat} {a a' r : Poly} (ha' : Canonical a') (hlt : a.length < b.length)
    (h : modLoop b fuel a = .ok r) (hadd : ∀ d, coeffAt a' d = coeffAt a d ^^^ coeffAt r d) :
    modLoop b fuel a' = .ok [] := by
  obtain rfl : a = r := Except.ok.inj ((modLoop_of_shorter hlt fuel).symm.trans h)
  have hzero : a'.length ≤ 0 := ha'.length_le fun d _ => by rw [hadd, BitVec.xor_self]
  obtain rfl : a' = [] := List.length_eq_zero_iff.1 (Nat.le_zero.1 hzero)
  exact modLoop_of_shorter (a := []) (Nat.zero_lt_of_lt hlt) fuel

/-- Division passes do not see the coefficients below the divisor's degree: adding the remainder to the dividend
makes it divisible. -/
theorem modLoop_add_remainder {b : Poly} {fuel : Nat} {a a' r : Poly} (hfuel : a.length ≤ fuel)
    (ha : Canonical a) (ha' : Canonical a') (hr : r.length < b.length) (h : modLoop b fuel a = .ok r)
    (hadd : ∀ d, coeffAt a' d = coeffAt a d ^^^ coeffAt r d) : modLoop b fuel a' = .ok [] := by
  induction fuel generalizing a a' with
  | zero => exact modLoop_add_self ha' (by omega) h hadd
  | succ fuel ih =>
    by_cases hlt : a.length < b.length
    · exact modLoop_add_self ha' hlt h hadd
    · rw [modLoop, if_neg hlt] at h
      obtain ⟨p, hpass, h⟩ := bind_eq_ok.1 h
      have hbe : b ≠ [] := List.ne_nil_of_length_pos (by omega)
      have hshorter := modPass_shorter hbe (Nat.le_of_not_lt hlt) hpass
      obtain ⟨row, hrow, rfl, hsame⟩ := modPass_row hpass
      obtain ⟨hlen, hhead⟩ := ha.same_top ha' (n := r.length) (by omega) fun d hd => by
        rw [hadd, coeffAt_above hd, BitVec.xor_zero]
      rw [modLoop, if_neg (by omega), hsame a' hhead, ok_bind]
      refine ih (by omega) (canonical_canonical _ 0) (canonical_canonical _ 0) h fun d => ?_
      rw [coeffAt_canonical, coeffAt_canonical, coeffAt_xorInto (by omega), coeffAt_xorInto (by omega), hadd, hlen,
        BitVec.xor_assoc, BitVec.xor_comm (coeffAt r d), ← BitVec.xor_assoc]

/-- The same of `mod`: where a pass is made at all, the two dividends have one length. -/
theorem polyMod_add_remainder {a a' b r : Poly} (ha : Canonical a) (ha' : Canonical a') (h : polyMod a b = .ok r)
    (hadd : ∀ d, coeffAt a' d = coeffAt a d ^^^ coeffAt r d) : polyMod a' b = .ok [] := by
  have hr := polyMod_length h
  cases b with
  | nil => exact absurd hr (Nat.not_lt_zero _)
  | cons y ys =>
    rw [polyMod] at h ⊢
    by_cases hlt : a.length < (y :: ys).length
    · rw [modLoop_of_shorter hlt] at h
      exact modLoop_add_self ha' hlt ((modLoop_of_shorter hlt _).trans h) hadd
    · obtain ⟨hlen, -⟩ := ha.same_top ha' (n := r.length) (by omega) fun d hd => by
        rw [hadd, coeffAt_above hd, BitVec.xor_zero]
      rw [hlen]
      exact modLoop_add_remainder (Nat.le_refl _) ha ha' hr h hadd

/-- Settles O30: appending the EC codewords adds the remainder to the shifted data. -/
theorem rsEccSystematic : Obligations.RsEccSystematic := by
  intro d ec k hk h
  have hlen := rsEcc_length h
  rw [rsEcc, gen_eq hk, ok_bind] at h
  obtain ⟨r, hr, h⟩ := bind_eq_ok.1 h
  have hec : List.replicate (k - r.length) 0#8 ++ r = ec := Except.ok.inj h
  have hrlt : r.length < k + 1 := genCoeffs_length k ▸ polyMod_length hr
  refine ⟨_, gen_eq hk, polyMod_add_remainder (canonical_canonical d k) (canonical_canonical _ 0) hr fun j => ?_⟩
  have hecr : coeffAt ec j = coeffAt r j := by
    rw [← hec, coeffAt_append, coeffAt_replicate_zero]
    split
    · rfl
    · exact (coeffAt_above (by omega)).symm
  rw [coeffAt_canonical, coeffAt_append, coeffAt_canonical_shift, hlen, ← hecr]
  split
  · rw [BitVec.zero_xor]
  · rw [coeffAt_above (p := ec) (by omega), BitVec.xor_zero]

/-! ## The data codewords bit for bit (41_rs_codec.md R156 to R158) -/

theorem bitsOf_length (x n : Nat) : (bitsOf x n).length = n := by simp [bitsOf]

theorem codewordBits_cons (b : Byte) (cw : List Byte) :
    codewordBits (b :: cw) = bitsOf b.toNat 8 ++ codewordBits cw := List.flatMap_cons

theorem codewordBits_length (cw : List Byte) : (codewordBits cw).length = 8 * cw.length := by
  simp [codewordBits, bitsOf_length, Nat.mul_comm]

theorem bitsOf_byteOfBits (b7 b6 b5 b4 b3 b2 b1 b0 : Bool) :
    bitsOf (byteOfBits b7 b6 b5 b4 b3 b2 b1 b0).toNat 8 = [b7, b6, b5, b4, b3, b2, b1, b0] := by
  revert b7 b6 b5 b4 b3 b2 b1 b0
  decide +kernel

/-- Cutting a stream of whole bytes loses no bit (20_memory.md R70). -/
theorem codewordBits_packBits {n : Nat} {bits : List Bool} (h : bits.length = 8 * n) :
    codewordBits (packBits bits) = bits := by
  induction n generalizing bits with
  | zero => rw [List.length_eq_zero_iff.1 h]; rfl
  | succ n ih =>
    match bits, h with
    | b7 :: b6 :: b5 :: b4 :: b3 :: b2 :: b1 :: b0 :: rest, h =>
      simp only [List.length_cons] at h
      rw [packBits, codewordBits_cons, bitsOf_byteOfBits, ih (by omega)]
      rfl

theorem packBits_length {n : Nat} {bits : List Bool} (h : bits.length = 8 * n) : (packBits bits).length = n := by
  have hlen := codewordBits_length (packBits bits)
  rw [codewordBits_packBits h] at hlen
  omega

theorem segHeaderAndData_length (v : Nat) (p : List Byte) : (segHeaderAndData v p).length = segBits v p.length := by
  simp only [segHeaderAndData, List.length_append, bitsOf_length, codewordBits_length, segBits]

/-- The header leaves 4 bits of its last byte, for the terminator (41_rs_codec.md R158). -/
theorem segBits_mod (v len : Nat) : segBits v len % 8 = 4 := by
  unfold segBits lengthWidth
  split <;> omega

/-- The pad bytes 0xEC and 0x11 in turn (41_rs_codec.md R157). -/
def padBytes (n : Nat) : List Byte := (List.range n).map (fun k => if k % 2 = 0 then 0xEC#8 else 0x11#8)

theorem padBytes_length (n : Nat) : (padBytes n).length = n := by simp [padBytes]

/-- Padding a stream of whole bytes below the capacity appends pad bytes. -/
theorem addPads_eq {total m : Nat} {bits : List Bool} (h : bits.length = 8 * m) (hm : m ≤ total) :
    addPads (8 * total) bits = bits ++ codewordBits (padBytes (total - m)) := by
  have hcount : (8 * total - bits.length + 7) / 8 = total - m := by omega
  rw [addPads, hcount, codewordBits, padBytes, List.flatMap_map]
  congr 2
  funext k
  split <;> rfl

/-- The bit stream of a payload that fits: the terminator fits, and no bit is needed to end a byte
(41_rs_codec.md R158). -/
theorem segStream_eq {v total : Nat} {p : List Byte} (h : segBits v p.length ≤ 8 * total) :
    addPads (8 * total) (alignBits (addTerminator (8 * total) (segHeaderAndData v p)))
      = segHeaderAndData v p ++ bitsOf 0 4 ++ codewordBits (padBytes (total - (segBits v p.length + 4) / 8)) := by
  have hmod := segBits_mod v p.length
  have hlen := segHeaderAndData_length v p
  have hterminated : (segHeaderAndData v p ++ bitsOf 0 4).length = 8 * ((segBits v p.length + 4) / 8) := by
    rw [List.length_append, hlen, bitsOf_length]
    omega
  rw [addTerminator, if_pos (by omega), alignBits, hterminated, Nat.mul_mod_right, Nat.sub_zero, Nat.mod_self,
    List.replicate_zero, List.append_nil, addPads_eq hterminated (by omega)]

theorem segCodewords_eq {v total : Nat} {p : List Byte} (h : segBits v p.length ≤ 8 * total) :
    (segCodewords v total p).length = total ∧ codewordBits (segCodewords v total p)
      = segHeaderAndData v p ++ bitsOf 0 4 ++ codewordBits (padBytes (total - (segBits v p.length + 4) / 8)) := by
  have hmod := segBits_mod v p.length
  have hwhole : (segHeaderAndData v p ++ bitsOf 0 4
      ++ codewordBits (padBytes (total - (segBits v p.length + 4) / 8))).length = 8 * total := by
    rw [List.length_append, List.length_append, segHeaderAndData_length, bitsOf_length, codewordBits_length,
      padBytes_length]
    omega
  rw [segCodewords, segStream_eq h]
  exact ⟨packBits_length hwhole, codewordBits_packBits hwhole⟩

/-- Settles O32: the stream is of whole bytes, and cutting it into bytes loses no bit. -/
theorem segCodewordsClosedForm : Obligations.SegCodewordsClosedForm := fun _ _ _ h => segCodewords_eq h

/-! ## SEG.ENCODE (41_rs_codec.md R159, R164) -/

/-- The bytes of a state whose memory is that of `s` with one region written: the region holds the result and
then zeros. -/
theorem byteAt_of_writeBuffer {s t : State} {r : Region} {bs : List Byte} (hmem : t.mem = (s.writeBuffer r bs).mem)
    (hdraw : t.ramDraw = s.ramDraw) (x : Nat) : t.byteAt x
      = if r.base ≤ x ∧ x < r.base + r.size then bs.getD (x - r.base) 0#8 else s.byteAt x := by
  have h := s.writeBuffer_byteAt r bs x
  simp only [Region.holds_iff] at h
  rw [← h, State.byteAt, State.byteAt, hmem, hdraw]
  rfl

/-- Settles O31: the capacity check admits the payload, and the data codewords are T bytes. -/
theorem segEncodeCompletes : Obligations.SegEncodeCompletes := by
  intro s bs hbs hfits data
  have hpayload : (s.payload s.payloadLen).length = s.payloadLen := s.bufferBytes_length .pbuf _
  refine ⟨(segCodewords_eq (by rwa [hpayload])).1, _, exec_ok (i := .segEncode)
    (segEncodeBody_ok.2 ⟨_, segAdmit_ok.2 ⟨bs, hbs, rfl, hfits⟩, rfl⟩), rfl, ?_⟩
  exact byteAt_of_writeBuffer (r := .dbuf) rfl rfl

theorem symEncodeBody_error_of_segEncode {s : State} {f : Failure} (h : segEncodeBody s = .error f) :
    symEncodeBody s = .error f := by
  rw [symEncodeBody, h, error_bind]

/-- A failing command invalidates its stage and leaves the failure record, nothing else (60_exceptions.md R279). -/
theorem exec_error_stage {i : Instr} {s : State} {code : FailCode} {detail : Nat} (hd : detail < 2 ^ 24)
    (h : bodyOf i s = .error ⟨code, detail⟩) :
    exec i s = .next ((s.invalidateFor (stageOf i)).asFailed (i.opcode.toNat + 2 ^ 8 * detail) code.code) := by
  rw [exec_eq_runCommand, runCommand_error h, State.onFailure_eq_asFailed, Nat.mod_eq_of_lt hd]

/-- Where the segment is refused, SEG.ENCODE and SYM.ENCODE fail alike, each under its own opcode. -/
theorem exec_segment_refused {s : State} {code : FailCode} {detail : Nat} (hd : detail < 2 ^ 24)
    (h : segAdmit s.version s.cfgLevel s.payloadLen = .error ⟨code, detail⟩) :
    exec .segEncode s = .next ((s.invalidate .seg).asFailed (0x22 + 2 ^ 8 * detail) code.code)
      ∧ exec .symEncode s = .next ((s.invalidate .seg).asFailed (0x50 + 2 ^ 8 * detail) code.code) :=
  have hseg := segEncodeBody_error.2 h
  ⟨exec_error_stage (i := .segEncode) hd hseg,
    exec_error_stage (i := .symEncode) hd (symEncodeBody_error_of_segEncode hseg)⟩

theorem segBits_lt {v len : Nat} (h : len < 2 ^ 16) : segBits v len < 2 ^ 24 := by
  unfold segBits lengthWidth
  split <;> omega

/-- Settles O33: the table lookup, then the capacity, refuse the segment. -/
theorem segmentRefused : Obligations.SegmentRefused := by
  intro s v u
  refine ⟨fun hv => ?_, fun bs hbs hlt => ?_⟩
  · have hv64 : v < 64 := s.cfgVersion.isLt
    exact exec_segment_refused (by omega) (segAdmit_error.2 (.inl ⟨by omega, rfl⟩))
  · exact exec_segment_refused (segBits_lt s.plen.isLt) (segAdmit_error.2 (.inr ⟨bs, hbs, hlt, rfl⟩))

/-! ## The interleaver (41_rs_codec.md R162, R166, 90_conflicts.md C7) -/

/-- The entries of index `i` of some sequences, in order: round `i` of the interleaver. -/
def roundOf (cols : List (List Byte)) (i : Nat) : List Byte := cols.filterMap (fun col => col[i]?)

theorem interleave_eq (cols : List (List Byte)) :
    interleave cols = (List.range (maxLength cols)).flatMap (roundOf cols) := rfl

theorem roundOf_cons (col : List Byte) (cols : List (List Byte)) (i : Nat) :
    roundOf (col :: cols) i = (col[i]?).toList ++ roundOf cols i := by
  cases h : col[i]? <;> simp [roundOf, h]

/-- `m` rounds take the first `m` entries of every sequence. -/
theorem rounds_length (cols : List (List Byte)) (m : Nat) :
    ((List.range m).flatMap (roundOf cols)).length = (cols.map (fun d => min m d.length)).sum := by
  induction cols with
  | nil => simp [roundOf]
  | cons col cols ih =>
    have hround : ∀ i, (roundOf (col :: cols) i).length
        = (if i < col.length then 1 else 0) + (roundOf cols i).length := fun i => by
      rw [roundOf_cons, List.length_append]
      by_cases hi : i < col.length <;> simp [hi]
    rw [List.length_flatMap] at ih ⊢
    simp only [hround]
    rw [List.sum_map_add, sum_range_indicator, ih, List.map_cons, List.sum_cons]

/-- In round `i` a sequence's entry comes after those of the earlier sequences longer than `i`. -/
theorem roundOf_getElem? {cols : List (List Byte)} {i j : Nat} {col : List Byte} {x : Byte}
    (hcol : cols[j]? = some col) (hx : col[i]? = some x) :
    (roundOf cols i)[(cols.take j).countP (fun d => decide (i < d.length))]? = some x := by
  induction cols generalizing j with
  | nil => simp at hcol
  | cons d cols ih =>
    rw [roundOf_cons]
    cases j with
    | zero =>
      obtain rfl : d = col := by simpa using hcol
      simp [hx]
    | succ j =>
      have hrest := ih (j := j) (by simpa using hcol)
      rw [List.take_succ_cons]
      by_cases hi : i < d.length
      · rw [List.countP_cons_of_pos (by simpa using hi), List.getElem?_eq_getElem hi]
        exact hrest
      · rw [List.countP_cons_of_neg (by simpa using hi), List.getElem?_eq_none (Nat.le_of_not_lt hi)]
        exact hrest

/-- Entry `i` of sequence `j` in the interleaved sequence. -/
theorem interleave_getElem? {cols : List (List Byte)} {i j : Nat} {col : List Byte} {x : Byte}
    (hcol : cols[j]? = some col) (hx : col[i]? = some x) :
    (interleave cols)[(cols.map (fun d => min i d.length)).sum
      + (cols.take j).countP (fun d => decide (i < d.length))]? = some x := by
  have hi : i < maxLength cols :=
    (List.getElem?_eq_some_iff.1 hx).1.trans_le (length_le_maxLength col (List.mem_of_getElem? hcol))
  obtain ⟨k, hk⟩ := Nat.exists_eq_add_of_lt hi
  have hround := roundOf_getElem? hcol hx
  have hpos := (List.getElem?_eq_some_iff.1 hround).1
  rw [interleave_eq, hk, Nat.add_assoc, List.range_add, List.flatMap_append, ← rounds_length,
    List.getElem?_append_right (Nat.le_add_right _ _), Nat.add_sub_cancel_left, List.range_succ_eq_map,
    List.map_cons, List.flatMap_cons]
  exact (List.getElem?_append_left hpos).trans hround

/-- After `m` rounds a sequence has contributed its first `m` entries, in order. -/
theorem flatMap_range_getElem? (col : List Byte) (m : Nat) :
    (List.range m).flatMap (fun i => (col[i]?).toList) = col.take m := by
  induction m with
  | zero => rfl
  | succ m ih => rw [List.range_succ, List.flatMap_append, ih, List.flatMap_singleton, List.take_add_one]

/-- Over enough rounds every sequence contributes each of its entries once. -/
theorem rounds_perm_flatten {cols : List (List Byte)} {m : Nat} (h : ∀ col ∈ cols, col.length ≤ m) :
    ((List.range m).flatMap (roundOf cols)).Perm cols.flatten := by
  induction cols with
  | nil => simp [roundOf]
  | cons col cols ih =>
    obtain ⟨hcol, hcols⟩ := List.forall_mem_cons.1 h
    have hsplit : roundOf (col :: cols) = fun i => (col[i]?).toList ++ roundOf cols i := funext (roundOf_cons col cols)
    rw [hsplit, List.flatten_cons]
    refine (List.flatMap_append_perm _ _ _).symm.trans ?_
    rw [flatMap_range_getElem?, List.take_of_length_le hcol]
    exact (ih hcols).append_left col

/-- For `B` sequences of one length, position `k` holds entry `k / B` of sequence `k % B`. -/
theorem interleave_getElem?_of_length {cols : List (List Byte)} {n k : Nat} (hlen : ∀ col ∈ cols, col.length = n)
    (hk : k < cols.length * n) :
    (interleave cols)[k]? = (cols[k % cols.length]?).bind (fun col => col[k / cols.length]?) := by
  have hpos : 0 < cols.length := Nat.pos_of_mul_pos_right (Nat.zero_lt_of_lt hk)
  have hi : k / cols.length < n := Nat.div_lt_of_lt_mul hk
  have hcol := List.getElem?_eq_getElem (Nat.mod_lt k hpos)
  have hn := hlen _ (List.mem_of_getElem? hcol)
  have hx := List.getElem?_eq_getElem (hn.symm ▸ hi)
  have hbefore : (cols.map (fun d => min (k / cols.length) d.length)).sum = cols.length * (k / cols.length) := by
    rw [List.map_congr_left fun d hd => by rw [hlen d hd, Nat.min_eq_left hi.le], List.map_const', List.sum_replicate,
      smul_eq_mul]
  have hearlier : (cols.take (k % cols.length)).countP (fun d => decide (k / cols.length < d.length))
      = k % cols.length := by
    rw [List.countP_eq_length.2 fun d hd => by
      rw [hlen d (List.mem_of_mem_take hd)]
      exact decide_eq_true hi]
    exact List.length_take_of_le (Nat.mod_lt k hpos).le
  have hentry := interleave_getElem? hcol hx
  rw [hbefore, hearlier, Nat.div_add_mod] at hentry
  rw [hentry, hcol, Option.bind_some, hx]

/-- Settles O35: the rounds before an entry's, and the earlier sequences of its own round, are counted; and
round by round each sequence contributes its entries once. -/
theorem interleaveOrder : Obligations.InterleaveOrder :=
  ⟨fun _ _ _ _ _ => interleave_getElem?,
    fun cols => ⟨rounds_perm_flatten length_le_maxLength, interleave_length cols⟩,
    fun _ _ _ _ hlen hk => interleave_getElem?_of_length hlen hk⟩

/-! ## CW.BUILD (41_rs_codec.md R162, R165) -/

theorem splitBlocks_getElem? {bs : List Block} {data : List Byte} {k : Nat} {b : Block} (h : bs[k]? = some b) :
    (splitBlocks bs data)[k]? = some (blockData bs data k b) := by
  induction bs generalizing data k with
  | nil => simp at h
  | cons c bs ih =>
    cases k with
    | zero =>
      obtain rfl : c = b := by simpa using h
      rfl
    | succ k =>
      rw [splitBlocks, List.getElem?_cons_succ, ih (by simpa using h)]
      simp [blockData, List.drop_drop]

/-- The data holds every block's data codewords. -/
theorem blockData_length {bs : List Block} {data : List Byte} {k : Nat} {b : Block} (h : bs[k]? = some b)
    (hdata : totalData bs ≤ data.length) : (blockData bs data k b).length = b.data := by
  have hlens := congrArg (·[k]?) (splitBlocks_lengths hdata)
  simpa [splitBlocks_getElem? h, h] using hlens

theorem mapM_getElem? {α β : Type} {f : α → Except Failure β} {xs : List α} {ys : List β}
    (h : xs.mapM f = .ok ys) {k : Nat} {x : α} (hx : xs[k]? = some x) : ∃ y, ys[k]? = some y ∧ f x = .ok y := by
  have hall := mapM_ok_iff.1 h
  clear h
  induction hall generalizing k with
  | nil => simp at hx
  | cons hy _ ih =>
    cases k with
    | zero =>
      obtain rfl : _ = x := by simpa using hx
      exact ⟨_, rfl, hy⟩
    | succ k => exact ih (by simpa using hx)

/-- `cw_build` answers for the table's blocks: EC codewords for each, and both sequences interleaved
(41_rs_codec.md R162). -/
theorem cwBuild_ok {v : Nat} {l : BitVec 2} {bs : List Block} (hbs : rsBlocks v l = .ok bs) (data : List Byte) :
    ∃ ecs, (bs.zip (splitBlocks bs data)).mapM (fun p => rsEcc p.2 (p.1.total - p.1.data)) = .ok ecs
      ∧ cwBuild data v l = .ok (interleave (splitBlocks bs data) ++ interleave ecs) := by
  obtain ⟨ecs, hecs⟩ := mapM_ok_of_forall (f := fun p : Block × List Byte => rsEcc p.2 (p.1.total - p.1.data))
    (xs := bs.zip (splitBlocks bs data)) fun p hp => by
      have htotal := rsBlocks_total_le hbs p.1 (List.of_mem_zip hp).1
      exact rsEcc_ok (by omega) (.inl (by omega))
  exact ⟨ecs, hecs, by rw [cwBuild, hbs, ok_bind]; dsimp only; rw [hecs]; rfl⟩

/-- Settles O34: the table's blocks split the data, and the EC generator answers for each of them. -/
theorem cwBuildCompletes : Obligations.CwBuildCompletes := by
  intro s i bs hseg hbs hcount data
  have hdata : data.length = totalData bs := (s.bufferBytes_length .dbuf _).trans hcount
  obtain ⟨ecs, hecs, hcw⟩ := cwBuild_ok hbs data
  have hds : (splitBlocks bs data).length = bs.length := by
    simpa using congrArg List.length (splitBlocks_lengths hdata.ge)
  refine ⟨splitBlocks bs data, ecs, _, _, ⟨hds, ?_, fun k b hb => ?_, rfl, cwBuild_length hbs hdata hcw⟩,
    exec_ok (i := .cwBuild) (cwBuildBody_ok.2 ⟨i, _, hseg, hcw, rfl⟩), rfl,
    byteAt_of_writeBuffer (r := .cwbuf) rfl rfl⟩
  · rw [mapM_length hecs, List.length_zip, hds, Nat.min_self]
  · have hd := splitBlocks_getElem? (data := data) hb
    obtain ⟨ec, hec, hrs⟩ := mapM_getElem? hecs (x := (b, _)) (List.getElem?_zip_eq_some.2 ⟨hb, hd⟩)
    exact ⟨hd, blockData_length hb hdata.ge, ec, hec, rsEcc_length hrs, hrs⟩

end Sys2Proof.Machine


/-! SUPPORT. The proofs of the statements about the BCH encoders and their commands (42_bch.md): the reduction
loop computes a remainder over GF(2), so each code is a product of the generator. -/

namespace Sys2Proof.Machine

/-! ## The reduction loop (42_bch.md R180 to R182) -/

theorem bitLength_eq_size (x : Nat) : bitLength x = x.size := by
  refine eq_of_forall_ge_iff fun n => ?_
  rw [Nat.size_le, bitLength]
  split
  next h => simp [h]
  next h => rw [Nat.succ_le_iff, Nat.log2_lt h]

/-- The XOR of two numbers with the highest bit n clears it. -/
theorem xor_lt_of_size_eq {a b n : Nat} (ha : a.size = n + 1) (hb : b.size = n + 1) : a ^^^ b < 2 ^ n := by
  have hdiv : ∀ {x : Nat}, x.size = n + 1 → x / 2 ^ n = 1 := fun {x} hx =>
    Nat.div_eq_of_lt_le (by simpa using Nat.lt_size.1 (by omega : n < x.size))
      (by simpa [Nat.pow_succ'] using Nat.size_le.1 hx.le)
  refine Nat.lt_of_div_eq_zero (by positivity) ?_
  rw [Nat.xor_div_two_pow, hdiv ha, hdiv hb, Nat.xor_self]

/-- Each pass clears the highest bit (42_bch.md R181). -/
theorem bitLength_bchPass_lt {g d : Nat} (hg : 0 < g) (h : bitLength g ≤ bitLength d) :
    bitLength (d ^^^ g <<< (bitLength d - bitLength g)) < bitLength d := by
  simp only [bitLength_eq_size] at h ⊢
  have hpos := Nat.size_pos.2 hg
  have hshift : (g <<< (d.size - g.size)).size = d.size := by
    rw [Nat.size_shiftLeft hg.ne']
    omega
  obtain ⟨n, hn⟩ : ∃ n, d.size = n + 1 := ⟨d.size - 1, by omega⟩
  have := Nat.size_le.2 (xor_lt_of_size_eq hn (hshift.trans hn))
  omega

/-- With a pass for each bit of d, the loop ends below the generator's degree. -/
theorem bitLength_bchReduce_lt {g fuel d : Nat} (hg : 0 < g) (h : bitLength d ≤ fuel) :
    bitLength (bchReduce g fuel d) < bitLength g := by
  induction fuel generalizing d with
  | zero =>
    have hpos : 0 < bitLength g := by rwa [bitLength_eq_size, Nat.size_pos]
    exact Nat.lt_of_le_of_lt h hpos
  | succ fuel ih =>
    rw [bchReduce]
    split
    next hlt => exact hlt
    next hge =>
      have := bitLength_bchPass_lt hg (Nat.le_of_not_lt hge)
      exact ih (by omega)

/-! ## Products over GF(2) -/

theorem bitProduct_succ (g q w : Nat) :
    bitProduct g q (w + 1) = bitProduct g q w ^^^ if q.testBit w then g <<< w else 0 := by
  simp only [bitProduct, List.range_succ, List.map_append, List.map_cons, List.map_nil, List.foldr_append,
    List.foldr_cons, List.foldr_nil]
  rw [Nat.xor_comm _ 0]
  exact List.foldr_assoc (op := fun x y => x ^^^ y)

theorem bitProduct_zero (g w : Nat) : bitProduct g 0 w = 0 := by
  induction w with
  | zero => rfl
  | succ w ih => simp [bitProduct_succ, ih]

/-- Flipping bit k of the quotient adds the generator's shift by k. -/
theorem bitProduct_xor_two_pow (g q k w : Nat) :
    bitProduct g (q ^^^ 2 ^ k) w = bitProduct g q w ^^^ if k < w then g <<< k else 0 := by
  induction w with
  | zero => simp [bitProduct]
  | succ w ih =>
    rw [bitProduct_succ, bitProduct_succ, ih, Nat.testBit_xor, Nat.testBit_two_pow]
    rcases Nat.lt_trichotomy k w with hlt | rfl | hgt
    · simp [hlt, hlt.ne, Nat.lt_succ_of_lt hlt, Nat.xor_assoc, Nat.xor_comm (g <<< k)]
    · cases q.testBit k <;> simp
    · simp [hgt.ne', show ¬ k < w by omega, show ¬ k < w + 1 by omega]

/-- The loop adds a product of the generator (42_bch.md R181, R182). -/
theorem exists_bchReduce_eq {g d w : Nat} (fuel : Nat) (hg : 0 < g) (h : bitLength d < bitLength g + w) :
    ∃ q, q < 2 ^ w ∧ bchReduce g fuel d = d ^^^ bitProduct g q w := by
  have done : ∀ d, ∃ q, q < 2 ^ w ∧ d = d ^^^ bitProduct g q w := fun d =>
    ⟨0, by positivity, by rw [bitProduct_zero, Nat.xor_zero]⟩
  induction fuel generalizing d with
  | zero => exact done d
  | succ fuel ih =>
    rw [bchReduce]
    split
    next => exact done d
    next hge =>
      have hpass := bitLength_bchPass_lt hg (Nat.le_of_not_lt hge)
      have hk : bitLength d - bitLength g < w := by omega
      obtain ⟨q, hq, heq⟩ := ih (hpass.trans h)
      refine ⟨q ^^^ 2 ^ (bitLength d - bitLength g),
        Nat.xor_lt_two_pow hq (Nat.pow_lt_pow_right (by decide) hk), ?_⟩
      rw [heq, bitProduct_xor_two_pow, if_pos hk, Nat.xor_assoc, Nat.xor_comm (g <<< _)]

/-! ## The codes -/

/-- The data followed by its n-bit remainder, as both encoders build it before the final XOR
(42_bch.md R181, R182). -/
def bchCodeword (n g data : Nat) : Nat :=
  (data <<< n) ||| bchReduce g (bitLength (data <<< n)) (data <<< n)

theorem encodeFormatInfo_eq (data : Nat) : encodeFormatInfo data = bchCodeword 10 0x537 data ^^^ 0x5412 := rfl

theorem encodeVersionInfo_eq (data : Nat) : encodeVersionInfo data = bchCodeword 12 0x1F25 data := rfl

section
variable {n g data w : Nat}

theorem pos_of_bitLength (hg : bitLength g = n + 1) : 0 < g := by
  rw [← Nat.size_pos, ← bitLength_eq_size, hg]
  exact n.succ_pos

theorem bchReduce_lt_two_pow (hg : bitLength g = n + 1) :
    bchReduce g (bitLength (data <<< n)) (data <<< n) < 2 ^ n := by
  have hlt := bitLength_bchReduce_lt (pos_of_bitLength hg) (Nat.le_refl (bitLength (data <<< n)))
  rw [hg, Nat.lt_succ_iff, bitLength_eq_size (bchReduce ..), Nat.size_le] at hlt
  exact hlt

theorem bchCodeword_div (hg : bitLength g = n + 1) : bchCodeword n g data / 2 ^ n = data := by
  rw [bchCodeword, Nat.or_div_two_pow, Nat.div_eq_of_lt (bchReduce_lt_two_pow hg), Nat.or_zero,
    Nat.shiftLeft_eq, Nat.mul_div_cancel _ (by positivity)]

theorem bchCodeword_lt (hg : bitLength g = n + 1) (hd : data < 2 ^ w) : bchCodeword n g data < 2 ^ (w + n) := by
  rwa [Nat.pow_add, ← Nat.div_lt_iff_lt_mul (by positivity), bchCodeword_div hg]

/-- The remainder added to the data's multiple leaves a product of the generator. -/
theorem bchCodeword_eq_bitProduct (hg : bitLength g = n + 1) (hd : data < 2 ^ w) :
    ∃ q, q < 2 ^ w ∧ bchCodeword n g data = bitProduct g q w := by
  have hlen : bitLength (data <<< n) < bitLength g + w := by
    have : bitLength (data <<< n) ≤ n + w := by
      rw [bitLength_eq_size, Nat.size_le, Nat.shiftLeft_eq, Nat.pow_add, Nat.mul_comm]
      exact Nat.mul_lt_mul_of_pos_left hd (by positivity)
    omega
  obtain ⟨q, hq, heq⟩ := exists_bchReduce_eq (bitLength (data <<< n)) (pos_of_bitLength hg) hlen
  have hor : bchCodeword n g data
      = data <<< n ^^^ bchReduce g (bitLength (data <<< n)) (data <<< n) := by
    refine Nat.eq_of_testBit_eq fun i => ?_
    rw [bchCodeword, Nat.testBit_or, Nat.testBit_xor, Nat.testBit_shiftLeft]
    by_cases hi : n ≤ i
    · rw [Nat.testBit_lt_two_pow ((bchReduce_lt_two_pow hg).trans_le (Nat.pow_le_pow_right (by decide) hi)),
        Bool.or_false, Bool.xor_false]
    · simp [hi]
  exact ⟨q, hq, by rw [hor, heq, ← Nat.xor_assoc, Nat.xor_self, Nat.zero_xor]⟩

end

theorem encodeFormatInfo_div (data : Nat) : encodeFormatInfo data / 2 ^ 10 = data ^^^ 0b10101 := by
  rw [encodeFormatInfo_eq, Nat.xor_div_two_pow, bchCodeword_div (by decide)]

theorem encodeFormatInfo_lt {data : Nat} (h : data < 2 ^ 5) : encodeFormatInfo data < 2 ^ 15 :=
  Nat.xor_lt_two_pow (bchCodeword_lt (by decide) h) (by decide)

/-- Two equal format codes have the same data bits. -/
theorem encodeFormatInfo_injective : Function.Injective encodeFormatInfo := fun d e h => by
  have hdata := congrArg (· / 2 ^ 10) h
  simpa only [encodeFormatInfo_div, Nat.xor_left_inj] using hdata

/-- Settles O37: both codes are codewords of their generators, the format code masked. -/
theorem bchCodesSound : Obligations.BchCodesSound := by
  refine ⟨fun d hd => ⟨encodeFormatInfo_lt hd, encodeFormatInfo_div d, ?_⟩,
    fun d e _ _ h => encodeFormatInfo_injective h,
    fun d hd => ⟨bchCodeword_lt (w := 6) (by decide) hd, bchCodeword_div (by decide),
      bchCodeword_eq_bitProduct (by decide) hd⟩⟩
  rw [encodeFormatInfo_eq, Nat.xor_assoc, Nat.xor_self, Nat.xor_zero]
  exact bchCodeword_eq_bitProduct (by decide) hd

/-! ## The commands (42_bch.md R183, R184) -/

/-- A command whose pseudocode writes RES0 alone. -/
theorem exec_setRes_zero {i : Instr} {s : State} {v : Nat} (h : bodyOf i s = .ok (s.setRes 0 v)) :
    exec i s = .next { s with res := s.res.set 0 (BitVec.ofNat 32 v) }.asSucceeded :=
  exec_ok h

theorem State.arg0Low_eq (s : State) (w : Nat) : s.arg0Low w = s.arg0.toNat % 2 ^ w := by
  rw [State.arg0Low, BitVec.extractLsb'_toNat, Nat.shiftRight_zero]

/-- Settles O36: the pseudocode writes the code of ARG0's low bits, and cannot fail. -/
theorem bchEffect : Obligations.BchEffect := by
  refine ⟨by decide, by decide, fun s => ?_⟩
  rw [← s.arg0Low_eq 5, ← s.arg0Low_eq 6]
  exact ⟨exec_setRes_zero (i := .bchFmt) rfl, exec_setRes_zero (i := .bchVer) rfl⟩

end Sys2Proof.Machine

/-! SUPPORT. The proofs of the statements about the matrix layout engine and MAT.BUILD (43_matrix.md): the cells
of a build layer by layer, function patterns, metadata and data. -/

namespace Sys2Proof.Machine

/-! ## MAT.BUILD (43_matrix.md R218) -/

/-- A cell outside the corner just written is the store's (10_state.md R39). -/
theorem overlay_cell?_outside {new old : Grid} {r c : Nat} (h : r < new.length → (new.getD r []).length ≤ c) :
    Grid.cell? (new.overlay old) r c = Grid.cell? old r c := by
  induction new generalizing old r with
  | nil => rfl
  | cons x new ih =>
    cases old with
    | nil =>
      rw [Grid.overlay]
      cases r with
      | zero => simpa [Grid.cell?] using h (by simp)
      | succ r => exact ih (old := []) fun hr => h (Nat.succ_lt_succ hr)
    | cons o old =>
      rw [Grid.overlay]
      cases r with
      | zero =>
        have hc : x.length ≤ c := h (by simp)
        simp [Grid.cell?, List.getElem?_append_right hc, Nat.add_sub_cancel' hc]
      | succ r => exact ih (old := old) fun hr => h (Nat.succ_lt_succ hr)

theorem State.matCell_eq (s : State) (r c : Nat) :
    s.matCell r c = (Grid.cell? s.mat r c).getD (Config.unknownColour s.matDraw r c) := by
  unfold State.matCell Grid.cell?
  cases s.mat[r]? with
  | none => rfl
  | some row =>
    dsimp only [Option.bind_some]
    cases row[c]? <;> rfl

theorem State.writeMat_matCell_inside {s : State} {g : Grid} {n : Nat} (hg : g.Square n) {r c : Nat} (hr : r < n)
    (hc : c < n) : (s.writeMat g).matCell r c = g.get r c := by
  have hcell : Grid.cell? (g.overlay s.mat) r c = Grid.cell? g r c :=
    overlay_cell? (by rw [hg.1]; exact hr) (by rw [hg.row_length hr]; exact hc)
  rw [State.matCell_eq, State.writeMat_mat, hcell, Grid.cell?_eq_get hg hr hc, Option.getD_some]

theorem State.writeMat_matCell_outside {s : State} {g : Grid} {n : Nat} (hg : g.Square n) {r c : Nat}
    (h : ¬ (r < n ∧ c < n)) : (s.writeMat g).matCell r c = s.matCell r c := by
  have hcell : Grid.cell? (g.overlay s.mat) r c = Grid.cell? s.mat r c := by
    refine overlay_cell?_outside fun hr => ?_
    rw [hg.1] at hr
    rw [hg.row_length hr]
    omega
  rw [State.matCell_eq, State.matCell_eq, State.writeMat_mat, hcell]
  rfl

theorem State.buildMatrix_matCell (s : State) (i : CwInfo) (m : BitVec 3) (t : Bool) (r c : Nat) :
    (s.buildMatrix i m t).matCell r c
      = (s.writeMat (build (s.codewords i) i.version.toNat i.level m t)).matCell r c := by
  unfold State.buildMatrix
  rfl

theorem matBuildBody_invalidMask {s : State} {i : CwInfo} {m : Nat} (t : Bool) (hi : s.cw = some i) (hm : 7 < m) :
    matBuildBody m t s = .error ⟨.invalidMaskId, m⟩ := by
  rw [matBuildBody, requireStage_ok.2 hi, ok_bind, maskOperand_error.2 ⟨hm, rfl⟩, error_bind]

/-- Settles O39: the build is square, so that it is written over its corner of the store alone. -/
theorem matBuildEffect : Obligations.MatBuildEffect := by
  intro s i m t hi hm n g
  refine ⟨fun hm7 => ?_, fun hm7 => ?_⟩
  · have hg : g.Square n := (build_coloured _ _ _ _ t).1
    refine ⟨_, exec_ok (i := .matBuild m t) (matBuildBody_ok.2 ⟨hm7, i, hi, rfl⟩), ?_, fun r c hr hc => ?_,
      fun r c h => ?_⟩
    · unfold State.buildMatrix
      rfl
    · rw [State.onSuccess_matCell, State.buildMatrix_matCell]
      exact State.writeMat_matCell_inside hg hr hc
    · rw [State.onSuccess_matCell, State.buildMatrix_matCell]
      exact State.writeMat_matCell_outside hg h
  · exact exec_error_stage (i := .matBuild m t) (by omega) (matBuildBody_invalidMask t hi hm7)

/-! ## Every cell of a build is set (43_matrix.md R216) -/

/-- Settles O40: `build_coloured` says it of the cells the build lists, which are the whole square. -/
theorem buildLeavesNoUnset : Obligations.BuildLeavesNoUnset := by
  intro cw v l m t _ _
  obtain ⟨hsquare, hcoloured⟩ := build_coloured cw v l m t
  refine ⟨hsquare, fun r c hr hc => ?_⟩
  have hcell := hcoloured r c hr hc
  rwa [Grid.cell?_eq_get hsquare hr hc, Option.some.injEq, Option.some.injEq] at hcell

/-! ## What painting and data placement make of a cell -/

section Layers

variable {g : Grid} {n : Nat}

/-- A cell of the grid that some write names takes the colour that every write naming it has. -/
theorem paint_get_eq (hg : g.Square n) {ws : List CellWrite} {r c : Nat} {x : Colour} (hr : r < n) (hc : c < n)
    (hm : ∃ w ∈ ws, w.row = r ∧ w.col = c) (hx : ∀ w ∈ ws, w.row = r → w.col = c → w.colour = x) :
    (paint ws g).get r c = x := by
  obtain ⟨w, hw, hrow, hcol, hget⟩ := paint_get_mem hg ws hr hc hm
  rw [hget, hx w hw hrow hcol]

/-- After writes to still-Unset cells a cell has its colour from before, or that of a write naming it. -/
theorem paintUnset_get_cases (hg : g.Square n) (ws : List CellWrite) (r c : Nat) :
    (paintUnset ws g).get r c = g.get r c
      ∨ ∃ w ∈ ws, w.row = r ∧ w.col = c ∧ (paintUnset ws g).get r c = w.colour := by
  induction ws generalizing g with
  | nil => exact .inl rfl
  | cons w ws ih =>
    have hput : (g.putIfUnset w).get r c = g.get r c
        ∨ (w.row = r ∧ w.col = c ∧ (g.putIfUnset w).get r c = w.colour) := by
      unfold Grid.putIfUnset
      split
      · rw [Grid.put, Grid.get_set hg]
        split
        · next h =>
          obtain ⟨rfl, rfl, -⟩ := h
          exact .inr ⟨rfl, rfl, rfl⟩
        · exact .inl rfl
      · exact .inl rfl
    rcases ih (putIfUnset_square hg w) with h | ⟨w', hw', hrow, hcol, h⟩
    · rcases hput with h' | ⟨hrow, hcol, h'⟩
      · exact .inl (h.trans h')
      · exact .inr ⟨w, List.mem_cons_self, hrow, hcol, h.trans h'⟩
    · exact .inr ⟨w', List.mem_cons_of_mem w hw', hrow, hcol, h⟩

/-- A cell that some write to a still-Unset cell names, and that was Unset or of colour `x`, has colour `x` if
every write naming it has. -/
theorem paintUnset_get_eq (hg : g.Square n) {ws : List CellWrite} (hws : ∀ w ∈ ws, w.colour ≠ .unset) {r c : Nat}
    {x : Colour} (hr : r < n) (hc : c < n) (hm : ∃ w ∈ ws, w.row = r ∧ w.col = c)
    (hbefore : g.get r c ≠ .unset → g.get r c = x) (hx : ∀ w ∈ ws, w.row = r → w.col = c → w.colour = x) :
    (paintUnset ws g).get r c = x := by
  rcases paintUnset_get_cases hg ws r c with h | ⟨w, hw, hrow, hcol, h⟩
  · have hset := paintUnset_sets hg ws hws hr hc hm
    rw [h] at hset ⊢
    exact hbefore hset
  · rw [h, hx w hw hrow hcol]

/-- A cell set before data placement is the build's. -/
theorem build_get_of_set {cw : List Byte} {v : Nat} {l : BitVec 2} {m : BitVec 3} {t : Bool} {r c : Nat} {x : Colour}
    (hx : x ≠ .unset) (h : (placeMetadata v l m t (placeFunctionPatterns v)).get r c = x) :
    (build cw v l m t).get r c = x := by
  have hsquare := (placeMetadata_extends (placeFunctionPatterns_column6 v).1 l m t).square
  rw [build, placeData, placeBits_get_of_set hsquare m _ _ (by rw [h]; exact hx), h]

/-- Data placement sees of a grid only which cells are Unset (43_matrix.md R211). -/
theorem placeBits_get_congr {h : Grid} (m : BitVec 3) {ps : List (Nat × Nat)} {bits : List Bool} (hg : g.Square n)
    (hh : h.Square n) (hunset : ∀ r c, g.get r c = .unset ↔ h.get r c = .unset) {r c : Nat}
    (heq : g.get r c = h.get r c) : (placeBits m ps bits g).get r c = (placeBits m ps bits h).get r c := by
  induction ps generalizing g h bits with
  | nil => exact heq
  | cons p ps ih =>
    rw [placeBits, placeBits]
    by_cases hu : g.get p.1 p.2 = .unset
    · rw [if_pos hu, if_pos ((hunset _ _).1 hu)]
      refine ih (Grid.set_square hg _ _ _) (Grid.set_square hh _ _ _) (fun i j => ?_) ?_
      · rw [Grid.get_set hg, Grid.get_set hh]
        split
        · exact Iff.rfl
        · exact hunset i j
      · rw [Grid.get_set hg, Grid.get_set hh, heq]
    · rw [if_neg hu, if_neg (mt (hunset _ _).2 hu)]
      exact ih hg hh hunset heq

end Layers

/-! ## The metadata cells (43_matrix.md R205 to R210) -/

/-- The writes of the metadata: the format cells, the fixed Dark cell, the version cells. -/
def metadataWrites (v : Nat) (l : BitVec 2) (m : BitVec 3) (t : Bool) : List CellWrite :=
  formatWrites (moduleCount v) l m t ++ (⟨moduleCount v - 8, 8, .dark⟩
    :: if v ≥ 7 then versionWrites (moduleCount v) v t else [])

theorem placeMetadata_eq_paint (v : Nat) (l : BitVec 2) (m : BitVec 3) (t : Bool) (g : Grid) :
    placeMetadata v l m t g = paint (metadataWrites v l m t) g := by
  unfold placeMetadata placeVersion metadataWrites paint
  split <;> simp [List.foldl_append, Grid.put]

/-- The fixed Dark cell of a version (43_matrix.md R207). -/
def FixedCell (v r c : Nat) : Prop := r + 8 = moduleCount v ∧ c = 8

/-- The cells whose colour placing the metadata determines: the format cells, the fixed Dark cell and, for versions
7 and up, the version cells. -/
def MetadataCell (v r c : Nat) : Prop :=
  (∃ i, FormatCellOf (moduleCount v) i r c) ∨ FixedCell v r c ∨ (7 ≤ v ∧ ∃ i, VersionCellOf (moduleCount v) i r c)

theorem formatCellOf_iff {n i r c : Nat} (hn : 15 ≤ n) : FormatCellOf n i r c ↔
    i < 15 ∧ ((r = formatRow n i ∧ c = 8) ∨ (r = 8 ∧ c = formatCol n i)) := by
  unfold FormatCellOf formatRow formatCol
  split_ifs <;> omega

theorem versionCellOf_iff {n i r c : Nat} (hn : 11 ≤ n) : VersionCellOf n i r c ↔
    i < 18 ∧ ((r = i / 3 ∧ c = i % 3 + (n - 11)) ∨ (r = i % 3 + (n - 11) ∧ c = i / 3)) := by
  unfold VersionCellOf
  omega

theorem mem_formatWrites {n : Nat} (hn : 15 ≤ n) {l : BitVec 2} {m : BitVec 3} {t : Bool} {w : CellWrite} :
    w ∈ formatWrites n l m t ↔ ∃ i, FormatCellOf n i w.row w.col
      ∧ w.colour = darkIf (!t && (formatCode l m).testBit i) := by
  obtain ⟨r, c, x⟩ := w
  simp only [formatWrites, List.mem_flatMap, List.mem_range, List.mem_cons, CellWrite.mk.injEq, List.not_mem_nil,
    or_false, formatCellOf_iff hn]
  exact exists_congr fun i => by tauto

theorem mem_versionWrites {n v : Nat} (hn : 11 ≤ n) {t : Bool} {w : CellWrite} :
    w ∈ versionWrites n v t ↔ ∃ i, VersionCellOf n i w.row w.col
      ∧ w.colour = darkIf (!t && (encodeVersionInfo v).testBit i) := by
  obtain ⟨r, c, x⟩ := w
  simp only [versionWrites, List.mem_flatMap, List.mem_range, List.mem_cons, CellWrite.mk.injEq, List.not_mem_nil,
    or_false, versionCellOf_iff hn]
  exact exists_congr fun i => by tauto

/-- A cell holds one bit of the format code. -/
theorem FormatCellOf.unique {n i j r c : Nat} (hn : 21 ≤ n) (hi : FormatCellOf n i r c) (hj : FormatCellOf n j r c) :
    i = j := by
  unfold FormatCellOf at hi hj
  omega

/-- A cell holds one bit of the version code. -/
theorem VersionCellOf.unique {n i j r c : Nat} (hn : 21 ≤ n) (hi : VersionCellOf n i r c)
    (hj : VersionCellOf n j r c) : i = j := by
  unfold VersionCellOf at hi hj
  omega

/-- The format cells lie in row 8 and column 8, at their ends, and not on the timing pattern. -/
theorem FormatCellOf.place {n i r c : Nat} (hn : 21 ≤ n) (h : FormatCellOf n i r c) :
    (c = 8 ∧ r ≠ 6 ∧ (r ≤ 8 ∨ (n < r + 8 ∧ r < n))) ∨ (r = 8 ∧ c ≠ 6 ∧ (c ≤ 8 ∨ (n ≤ c + 8 ∧ c < n))) := by
  unfold FormatCellOf at h
  omega

/-- The version cells are two blocks beside the finders. -/
theorem VersionCellOf.place {n i r c : Nat} (h : VersionCellOf n i r c) :
    (r ≤ 5 ∧ n ≤ c + 11 ∧ c + 9 ≤ n) ∨ (n ≤ r + 11 ∧ r + 9 ≤ n ∧ c ≤ 5) := by
  unfold VersionCellOf at h
  omega

section Metadata

variable {v : Nat} {l : BitVec 2} {m : BitVec 3} {t : Bool} {r c : Nat} {g : Grid}

theorem mem_metadataWrites (hv : 1 ≤ v) {w : CellWrite} : w ∈ metadataWrites v l m t ↔
    (∃ i, FormatCellOf (moduleCount v) i w.row w.col ∧ w.colour = darkIf (!t && (formatCode l m).testBit i))
      ∨ (FixedCell v w.row w.col ∧ w.colour = .dark)
      ∨ (7 ≤ v ∧ ∃ i, VersionCellOf (moduleCount v) i w.row w.col
          ∧ w.colour = darkIf (!t && (encodeVersionInfo v).testBit i)) := by
  have hn : moduleCount v = 4 * v + 17 := rfl
  have hfixed : w = ⟨moduleCount v - 8, 8, .dark⟩ ↔ FixedCell v w.row w.col ∧ w.colour = .dark := by
    obtain ⟨r, c, x⟩ := w
    rw [CellWrite.mk.injEq, FixedCell]
    constructor
    · rintro ⟨rfl, rfl, rfl⟩; exact ⟨⟨Nat.sub_add_cancel (by omega), rfl⟩, rfl⟩
    · rintro ⟨⟨hr, hc⟩, hx⟩; exact ⟨Nat.eq_sub_of_add_eq hr, hc, hx⟩
  rw [metadataWrites, List.mem_append, List.mem_cons, mem_formatWrites (by omega), hfixed]
  by_cases h7 : 7 ≤ v
  · rw [if_pos h7, mem_versionWrites (by omega)]
    simp only [h7, true_and]
  · rw [if_neg h7]
    simp only [h7, List.not_mem_nil, false_and]

theorem placeMetadata_get_other (hv : 1 ≤ v) (hg : g.Square (moduleCount v)) (h : ¬ MetadataCell v r c) :
    (placeMetadata v l m t g).get r c = g.get r c := by
  rw [placeMetadata_eq_paint]
  refine paint_get_other hg _ fun w hw hrc => h ?_
  obtain ⟨rfl, rfl⟩ := hrc
  rcases (mem_metadataWrites hv).1 hw with ⟨i, hi, -⟩ | ⟨hf, -⟩ | ⟨h7, i, hi, -⟩
  · exact .inl ⟨i, hi⟩
  · exact .inr (.inl hf)
  · exact .inr (.inr ⟨h7, i, hi⟩)

theorem placeMetadata_get_format (hv : 1 ≤ v) (hg : g.Square (moduleCount v)) {i : Nat}
    (hi : FormatCellOf (moduleCount v) i r c) :
    (placeMetadata v l m t g).get r c = darkIf (!t && (formatCode l m).testBit i) := by
  have hn : moduleCount v = 4 * v + 17 := rfl
  have hplace := hi.place (by omega)
  rw [placeMetadata_eq_paint]
  refine paint_get_eq hg (by omega) (by omega)
    ⟨⟨r, c, _⟩, (mem_metadataWrites hv).2 (.inl ⟨i, hi, rfl⟩), rfl, rfl⟩ fun w hw hr hc => ?_
  subst hr hc
  rcases (mem_metadataWrites hv).1 hw with ⟨j, hj, hx⟩ | ⟨⟨hr, hc⟩, -⟩ | ⟨h7, j, hj, -⟩
  · rw [hx, hj.unique (by omega) hi]
  · omega
  · have := hj.place
    omega

theorem placeMetadata_get_fixed (hv : 1 ≤ v) (hg : g.Square (moduleCount v)) (hf : FixedCell v r c) :
    (placeMetadata v l m t g).get r c = .dark := by
  have hn : moduleCount v = 4 * v + 17 := rfl
  have hrc := hf
  obtain ⟨hr, hc⟩ := hrc
  rw [placeMetadata_eq_paint]
  refine paint_get_eq hg (by omega) (by omega)
    ⟨⟨r, c, .dark⟩, (mem_metadataWrites hv).2 (.inr (.inl ⟨hf, rfl⟩)), rfl, rfl⟩ fun w hw hwr hwc => ?_
  subst hwr hwc
  rcases (mem_metadataWrites hv).1 hw with ⟨j, hj, -⟩ | ⟨-, hx⟩ | ⟨h7, j, hj, -⟩
  · have := hj.place (by omega)
    omega
  · exact hx
  · have := hj.place
    omega

theorem placeMetadata_get_version (h7 : 7 ≤ v) (hg : g.Square (moduleCount v)) {i : Nat}
    (hi : VersionCellOf (moduleCount v) i r c) :
    (placeMetadata v l m t g).get r c = darkIf (!t && (encodeVersionInfo v).testBit i) := by
  have hn : moduleCount v = 4 * v + 17 := rfl
  have hv : 1 ≤ v := by omega
  have hplace := hi.place
  rw [placeMetadata_eq_paint]
  refine paint_get_eq hg (by omega) (by omega)
    ⟨⟨r, c, _⟩, (mem_metadataWrites hv).2 (.inr (.inr ⟨h7, i, hi, rfl⟩)), rfl, rfl⟩ fun w hw hr hc => ?_
  subst hr hc
  rcases (mem_metadataWrites hv).1 hw with ⟨j, hj, -⟩ | ⟨⟨hr, hc⟩, -⟩ | ⟨-, j, hj, hx⟩
  · have := hj.place (by omega)
    omega
  · omega
  · rw [hx, hj.unique (by omega) hi]

end Metadata

/-- No metadata cell lies on a finder, its separator, an alignment pattern or the timing pattern: they lie in row 8
and column 8 at their ends, but for the timing pattern, and beside the finders. -/
theorem MetadataCell.place {v r c : Nat} (hv : 1 ≤ v) (h : MetadataCell v r c) :
    (c = 8 ∧ r ≠ 6 ∧ (r ≤ 8 ∨ moduleCount v ≤ r + 8)) ∨ (r = 8 ∧ c ≠ 6 ∧ (c ≤ 8 ∨ moduleCount v ≤ c + 8))
      ∨ (45 ≤ moduleCount v ∧ ((r ≤ 5 ∧ moduleCount v ≤ c + 11 ∧ c + 9 ≤ moduleCount v)
        ∨ (moduleCount v ≤ r + 11 ∧ r + 9 ≤ moduleCount v ∧ c ≤ 5))) := by
  have hn : moduleCount v = 4 * v + 17 := rfl
  rcases h with ⟨i, hi⟩ | ⟨hr, hc⟩ | ⟨h7, i, hi⟩
  · have hplace := hi.place (by omega)
    omega
  · omega
  · have hplace := hi.place
    omega

theorem formatCode_eq (l : BitVec 2) (m : BitVec 3) : formatCode l m = encodeFormatInfo (8 * l.toNat + m.toNat) := by
  rw [formatCode, ← Nat.shiftLeft_add_eq_or_of_lt m.isLt, Nat.shiftLeft_eq, Nat.mul_comm]

/-- A code bit as its cell shows it: Light in a trial build (43_matrix.md R215). -/
theorem darkIf_trial (t b : Bool) : darkIf (!t && b) = if t then .light else Colour.ofBit b := by
  cases t <;> rfl

/-- Settles O41: the fixed cell is no format and no version cell, and data placement keeps it. -/
theorem fixedCellDark : Obligations.FixedCellDark := by
  intro cw v l m t hv _
  have hn : moduleCount v = 4 * v + 17 := rfl
  exact build_get_of_set (by decide)
    (placeMetadata_get_fixed hv (placeFunctionPatterns_column6 v).1 ⟨by omega, rfl⟩)

/-- Settles O43: every metadata cell holds one bit of one code, and data placement keeps it. -/
theorem metadataCells : Obligations.MetadataCells := by
  intro cw v l m t i r c hv _
  have hsquare := (placeFunctionPatterns_column6 v).1
  refine ⟨fun hi => ?_, fun h7 hi => ?_⟩
  · rw [← darkIf_trial, ← formatCode_eq]
    exact build_get_of_set (darkIf_ne_unset _) (placeMetadata_get_format hv hsquare hi)
  · rw [← darkIf_trial]
    exact build_get_of_set (darkIf_ne_unset _) (placeMetadata_get_version h7 hsquare hi)

/-- A trial build's metadata differ from a final one's in the format and version cells alone, which both set. -/
theorem placeMetadata_trial {v : Nat} (l : BitVec 2) (m : BitVec 3) {g : Grid} (hv : 1 ≤ v)
    (hg : g.Square (moduleCount v)) (r c : Nat) :
    ((placeMetadata v l m true g).get r c = .unset ↔ (placeMetadata v l m false g).get r c = .unset)
      ∧ ((∀ i, ¬ FormatCellOf (moduleCount v) i r c) → (7 ≤ v → ∀ i, ¬ VersionCellOf (moduleCount v) i r c) →
        (placeMetadata v l m true g).get r c = (placeMetadata v l m false g).get r c) := by
  by_cases hcell : MetadataCell v r c
  · rcases hcell with ⟨i, hi⟩ | hf | ⟨h7, i, hi⟩
    · refine ⟨?_, fun hformat _ => absurd hi (hformat i)⟩
      rw [placeMetadata_get_format hv hg hi, placeMetadata_get_format hv hg hi]
      exact iff_of_false (darkIf_ne_unset _) (darkIf_ne_unset _)
    · rw [placeMetadata_get_fixed hv hg hf, placeMetadata_get_fixed hv hg hf]
      exact ⟨Iff.rfl, fun _ _ => rfl⟩
    · refine ⟨?_, fun _ hversion => absurd hi (hversion h7 i)⟩
      rw [placeMetadata_get_version h7 hg hi, placeMetadata_get_version h7 hg hi]
      exact iff_of_false (darkIf_ne_unset _) (darkIf_ne_unset _)
  · rw [placeMetadata_get_other hv hg hcell, placeMetadata_get_other hv hg hcell]
    exact ⟨Iff.rfl, fun _ _ => rfl⟩

/-- Settles O44: the same cells are Unset before data placement, which therefore goes alike. -/
theorem trialChangesOnlyMetadata : Obligations.TrialChangesOnlyMetadata := by
  intro cw v l m r c hv _ hformat hversion
  have hsquare := (placeFunctionPatterns_column6 v).1
  have htrial := placeMetadata_trial l m hv hsquare
  exact placeBits_get_congr m (placeMetadata_extends hsquare l m true).square
    (placeMetadata_extends hsquare l m false).square (fun i j => (htrial i j).1) ((htrial r c).2 hformat hversion)

/-! ## Finders and alignment patterns (43_matrix.md R192 to R195) -/

section Finders

variable {g : Grid} {n : Nat}

/-- The upper left corners of the three finders (43_matrix.md R192). -/
def finderCorners (n : Nat) : List (Nat × Nat) := [(0, 0), (n - 7, 0), (0, n - 7)]

/-- Cell (r, c) lies on the finder of corner `p` or on its separator. -/
def InFinder (p : Nat × Nat) (r c : Nat) : Prop := (p.1 ≤ r + 1 ∧ r ≤ p.1 + 7) ∧ (p.2 ≤ c + 1 ∧ c ≤ p.2 + 7)

/-- The colour of the finder of corner `p`, or of its separator, at cell (r, c). -/
def finderColour (p : Nat × Nat) (r c : Nat) : Colour := darkIf (finderDark ((r : Int) - p.1) ((c : Int) - p.2))

/-- The separator is Light (43_matrix.md R193). -/
theorem finderColour_separator {p : Nat × Nat} {r c : Nat}
    (h : r + 1 = p.1 ∨ r = p.1 + 7 ∨ c + 1 = p.2 ∨ c = p.2 + 7) : finderColour p r c = .light := by
  have hlight : finderDark ((r : Int) - p.1) ((c : Int) - p.2) = false := by
    simp only [finderDark, Bool.or_eq_false_iff, decide_eq_false_iff_not]
    omega
  rw [finderColour, hlight]
  rfl

theorem finderDark_template : ∀ r < 7, ∀ c < 7,
    finderDark (r : Nat) (c : Nat) = (finderTemplate.getD r []).getD c false := by decide

theorem finderColour_template (p : Nat × Nat) {r c : Nat} (hr : r < 7) (hc : c < 7) :
    finderColour p (p.1 + r) (p.2 + c) = Colour.ofBit ((finderTemplate.getD r []).getD c false) := by
  rw [finderColour, Nat.cast_add, Nat.cast_add, add_sub_cancel_left, add_sub_cancel_left, finderDark_template r hr c hc]
  rfl

theorem finderWrite_cell {R C : Nat} {w : CellWrite} (hw : w ∈ finderWrites n R C) :
    InFinder (R, C) w.row w.col ∧ w.colour = finderColour (R, C) w.row w.col := by
  obtain ⟨r, hr, hw⟩ := List.mem_flatMap.1 hw
  obtain ⟨k, hk, hw⟩ := List.mem_filterMap.1 hw
  simp only [finderOffsets, List.mem_cons, List.not_mem_nil, or_false] at hr hk
  split at hw
  · next hin =>
    cases hw
    have hrow : (((R : Int) + r).toNat : Int) - R = r := by omega
    have hcol : (((C : Int) + k).toNat : Int) - C = k := by omega
    dsimp only [InFinder, finderColour]
    rw [hrow, hcol]
    exact ⟨by omega, rfl⟩
  · cases hw

theorem mem_finders {w : CellWrite} :
    w ∈ finderWrites n 0 0 ++ finderWrites n (n - 7) 0 ++ finderWrites n 0 (n - 7)
      ↔ ∃ p ∈ finderCorners n, w ∈ finderWrites n p.1 p.2 := by
  simp [finderCorners]

/-- The three finders with their separators lie apart. -/
theorem InFinder.unique {p q : Nat × Nat} {r c : Nat} (hn : 21 ≤ n) (hp : p ∈ finderCorners n)
    (hq : q ∈ finderCorners n) (hinp : InFinder p r c) (hinq : InFinder q r c) : p = q := by
  simp only [finderCorners, List.mem_cons, List.not_mem_nil, or_false, Prod.ext_iff] at hp hq
  unfold InFinder at hinp hinq
  rw [Prod.ext_iff]
  omega

theorem placeFinders_get (hg : g.Square n) (hn : 21 ≤ n) {p : Nat × Nat} (hp : p ∈ finderCorners n) {r c : Nat}
    (hr : r < n) (hc : c < n) (hin : InFinder p r c) : (placeFinders n g).get r c = finderColour p r c := by
  obtain ⟨hrow, hcol⟩ := hin
  obtain ⟨w, hw, hwrc⟩ := exists_finderWrite hr hc hrow hcol
  refine paint_get_eq hg hr hc ⟨w, mem_finders.2 ⟨p, hp, hw⟩, hwrc⟩ fun w hw hwr hwc => ?_
  subst hwr hwc
  obtain ⟨q, hq, hw⟩ := mem_finders.1 hw
  obtain ⟨hinq, hx⟩ := finderWrite_cell hw
  rw [hx, InFinder.unique hn hp hq ⟨hrow, hcol⟩ hinq]

theorem placeFinders_get_other (hg : g.Square n) {r c : Nat} (h : ∀ p ∈ finderCorners n, ¬ InFinder p r c) :
    (placeFinders n g).get r c = g.get r c := by
  refine paint_get_other hg _ fun w hw hrc => ?_
  obtain ⟨rfl, rfl⟩ := hrc
  obtain ⟨p, hp, hw⟩ := mem_finders.1 hw
  exact h p hp (finderWrite_cell hw).1

/-- Cell (r, c) lies on the 5 by 5 alignment pattern centred at `p`. -/
def InAlignment (p : Nat × Nat) (r c : Nat) : Prop := (p.1 ≤ r + 2 ∧ r ≤ p.1 + 2) ∧ (p.2 ≤ c + 2 ∧ c ≤ p.2 + 2)

/-- The colour of the alignment pattern centred at `p` at cell (r, c). -/
def alignmentColour (p : Nat × Nat) (r c : Nat) : Colour :=
  darkIf (alignmentDark ((r : Int) - p.1) ((c : Int) - p.2))

theorem alignmentDark_template : ∀ r < 5, ∀ c < 5,
    alignmentDark ((r : Nat) - 2) ((c : Nat) - 2) = (alignmentTemplate.getD r []).getD c false := by decide

theorem alignmentColour_template {p : Nat × Nat} (hp : 2 ≤ p.1 ∧ 2 ≤ p.2) {r c : Nat} (hr : r < 5) (hc : c < 5) :
    alignmentColour p (p.1 - 2 + r) (p.2 - 2 + c) = Colour.ofBit ((alignmentTemplate.getD r []).getD c false) := by
  have hrow : ((p.1 - 2 + r : Nat) : Int) - p.1 = r - 2 := by omega
  have hcol : ((p.2 - 2 + c : Nat) : Int) - p.2 = c - 2 := by omega
  rw [alignmentColour, hrow, hcol, alignmentDark_template r hr c hc]
  rfl

theorem alignmentWrite_cell {p : Nat × Nat} (hp : 2 ≤ p.1 ∧ 2 ≤ p.2) {w : CellWrite}
    (hw : w ∈ alignmentWrites p.1 p.2) :
    InAlignment p w.row w.col ∧ w.colour = alignmentColour p w.row w.col := by
  obtain ⟨r, hr, hw⟩ := List.mem_flatMap.1 hw
  obtain ⟨k, hk, rfl⟩ := List.mem_map.1 hw
  simp only [alignmentOffsets, List.mem_cons, List.not_mem_nil, or_false] at hr hk
  have hrow : (((p.1 : Int) + r).toNat : Int) - p.1 = r := by omega
  have hcol : (((p.2 : Int) + k).toNat : Int) - p.2 = k := by omega
  dsimp only [InAlignment, alignmentColour]
  rw [hrow, hcol]
  exact ⟨by omega, rfl⟩

theorem exists_alignmentWrite {p : Nat × Nat} {r c : Nat} (hin : InAlignment p r c) :
    ∃ w ∈ alignmentWrites p.1 p.2, w.row = r ∧ w.col = c := by
  have offset : ∀ {a A : Nat}, A ≤ a + 2 ∧ a ≤ A + 2 → (a : Int) - A ∈ alignmentOffsets := by
    intro a A h
    simp only [alignmentOffsets, List.mem_cons, List.not_mem_nil, or_false]
    omega
  obtain ⟨hrow, hcol⟩ := hin
  refine ⟨_, List.mem_flatMap.2 ⟨_, offset hrow, List.mem_map.2 ⟨_, offset hcol, rfl⟩⟩, ?_, ?_⟩
  all_goals dsimp only; omega

/-- Where no alignment pattern reaches the centre of a later one, placing them paints those whose centre is Unset
at the start (43_matrix.md R195). -/
theorem foldl_placeAlignmentAt (hg : g.Square n) {ps : List (Nat × Nat)}
    (hps : ps.Pairwise fun p q => ∀ w ∈ alignmentWrites p.1 p.2, ¬ (w.row = q.1 ∧ w.col = q.2)) :
    ps.foldl placeAlignmentAt g = paint ((ps.filter fun p => decide (g.get p.1 p.2 = .unset)).flatMap
      fun p => alignmentWrites p.1 p.2) g := by
  induction ps generalizing g with
  | nil => rfl
  | cons p ps ih =>
    obtain ⟨hp, hps⟩ := List.pairwise_cons.1 hps
    rw [List.foldl_cons, placeAlignmentAt]
    by_cases hu : g.get p.1 p.2 = .unset
    · have hkept : ∀ q ∈ ps, decide ((paint (alignmentWrites p.1 p.2) g).get q.1 q.2 = .unset)
          = decide (g.get q.1 q.2 = .unset) := fun q hq => by rw [paint_get_other hg _ (hp q hq)]
      rw [if_pos hu, ih (paint_square hg _) hps, List.filter_congr hkept, List.filter_cons,
        if_pos (decide_eq_true hu), List.flatMap_cons, paint, paint, paint, List.foldl_append]
    · rw [if_neg hu, ih hg hps, List.filter_cons, if_neg (by simpa using hu)]

end Finders

/-! ## The alignment centres (43_matrix.md R194, R195) -/

theorem alignmentList_position : ∀ v < 41, ∀ p ∈ alignmentList v, p % 2 = 0 ∧ 25 ≤ moduleCount v
    ∧ (p = 6 ∨ p + 7 = moduleCount v ∨ (22 ≤ p ∧ p + 23 ≤ moduleCount v)) := by decide

theorem alignmentList_apart : ∀ v < 41, ∀ p ∈ alignmentList v, ∀ q ∈ alignmentList v,
    p = q ∨ p + 4 < q ∨ q + 4 < p := by decide

theorem alignmentList_nodup : ∀ v < 41, (alignmentList v).Nodup := by decide

theorem alignmentList_ends : ∀ v < 41, 1 ≤ v → if v = 1 then alignmentList v = []
    else (alignmentList v).head? = some 6 ∧ (alignmentList v).getLast? = some (4 * v + 17 - 7) := by decide

section Alignment

variable {v : Nat}

theorem mem_pairsOf {l : List Nat} {p : Nat × Nat} : p ∈ pairsOf l ↔ p.1 ∈ l ∧ p.2 ∈ l := List.pair_mem_product

theorem pairsOf_nodup {l : List Nat} (h : l.Nodup) : (pairsOf l).Nodup := h.product h

/-- The finders of a version on a blank grid. -/
def findersOf (v : Nat) : Grid := placeFinders (moduleCount v) (Grid.blank (moduleCount v))

theorem findersOf_square (v : Nat) : (findersOf v).Square (moduleCount v) :=
  (placeFinders_extends (Grid.blank_square _)).square

/-- The pairs of a version's alignment list whose cell no finder covers. -/
def alignmentCentres (v : Nat) : List (Nat × Nat) :=
  (pairsOf (alignmentList v)).filter fun p => decide ((findersOf v).get p.1 p.2 = .unset)

/-- Every pair of the list but the three that meet a finder is a centre. -/
theorem mem_alignmentCentres (hv : 1 ≤ v) (hv40 : v ≤ 40) {p : Nat × Nat} : p ∈ alignmentCentres v ↔
    (p.1 ∈ alignmentList v ∧ p.2 ∈ alignmentList v)
      ∧ ¬ (p.1 = 6 ∧ p.2 = 6) ∧ ¬ (p.1 = 6 ∧ p.2 = moduleCount v - 7) ∧ ¬ (p.1 = moduleCount v - 7 ∧ p.2 = 6) := by
  have hn : moduleCount v = 4 * v + 17 := rfl
  rw [alignmentCentres, List.mem_filter, mem_pairsOf, decide_eq_true_iff]
  refine and_congr_right fun ⟨h1, h2⟩ => ?_
  obtain ⟨-, -, h1⟩ := alignmentList_position v (by omega) _ h1
  obtain ⟨-, -, h2⟩ := alignmentList_position v (by omega) _ h2
  constructor
  · intro hu
    have outside : ∀ q ∈ finderCorners (moduleCount v), ¬ InFinder q p.1 p.2 := fun q hq hin =>
      darkIf_ne_unset _ ((placeFinders_get (Grid.blank_square _) (by omega) hq (by omega) (by omega) hin).symm.trans hu)
    simp only [finderCorners, List.forall_mem_cons, InFinder] at outside
    omega
  · intro hne
    refine (placeFinders_get_other (Grid.blank_square _) fun q hq hin => ?_).trans (Grid.blank_get _ _ _)
    simp only [finderCorners, List.mem_cons, List.not_mem_nil, or_false, Prod.ext_iff] at hq
    unfold InFinder at hin
    omega

/-- A centre has even coordinates, and lies in row 6, in column 6, or away from the finders' rows and columns. -/
theorem alignmentCentre_position (hv : 1 ≤ v) (hv40 : v ≤ 40) {p : Nat × Nat} (hp : p ∈ alignmentCentres v) :
    (p.1 % 2 = 0 ∧ p.2 % 2 = 0)
      ∧ ((p.1 = 6 ∧ 22 ≤ p.2 ∧ p.2 + 23 ≤ moduleCount v) ∨ (22 ≤ p.1 ∧ p.1 + 23 ≤ moduleCount v ∧ p.2 = 6)
        ∨ (18 ≤ p.1 ∧ p.1 + 7 ≤ moduleCount v ∧ 18 ≤ p.2 ∧ p.2 + 7 ≤ moduleCount v)) := by
  obtain ⟨⟨h1, h2⟩, hne⟩ := (mem_alignmentCentres hv hv40).1 hp
  obtain ⟨he1, hn, h1⟩ := alignmentList_position v (by omega) _ h1
  obtain ⟨he2, -, h2⟩ := alignmentList_position v (by omega) _ h2
  refine ⟨⟨he1, he2⟩, ?_⟩
  omega

/-- The alignment patterns lie apart. -/
theorem InAlignment.unique (hv40 : v ≤ 40) {p q : Nat × Nat} {r c : Nat} (hp : p ∈ pairsOf (alignmentList v))
    (hq : q ∈ pairsOf (alignmentList v)) (hinp : InAlignment p r c) (hinq : InAlignment q r c) : p = q := by
  obtain ⟨hp1, hp2⟩ := mem_pairsOf.1 hp
  obtain ⟨hq1, hq2⟩ := mem_pairsOf.1 hq
  have hrow := alignmentList_apart v (by omega) _ hp1 _ hq1
  have hcol := alignmentList_apart v (by omega) _ hp2 _ hq2
  unfold InAlignment at hinp hinq
  rw [Prod.ext_iff]
  omega

theorem two_le_of_mem_pairsOf (hv40 : v ≤ 40) {p : Nat × Nat} (hp : p ∈ pairsOf (alignmentList v)) :
    2 ≤ p.1 ∧ 2 ≤ p.2 := by
  obtain ⟨h1, h2⟩ := mem_pairsOf.1 hp
  have h1 := alignmentList_position v (by omega) _ h1
  have h2 := alignmentList_position v (by omega) _ h2
  omega

/-- The writes of a version's alignment patterns. -/
def alignmentsOf (v : Nat) : List CellWrite := (alignmentCentres v).flatMap fun p => alignmentWrites p.1 p.2

theorem placeAlignment_eq_paint (hv40 : v ≤ 40) :
    placeAlignment v (findersOf v) = paint (alignmentsOf v) (findersOf v) := by
  refine foldl_placeAlignmentAt (findersOf_square v) ?_
  refine (pairsOf_nodup (alignmentList_nodup v (by omega))).pairwise_of_forall_ne fun p hp q hq hne w hw hwq => hne ?_
  obtain ⟨hin, -⟩ := alignmentWrite_cell (two_le_of_mem_pairsOf hv40 hp) hw
  obtain ⟨hrow, hcol⟩ := hwq
  rw [hrow, hcol] at hin
  exact InAlignment.unique hv40 hp hq hin (by unfold InAlignment; omega)

theorem alignmentsOf_cell (hv40 : v ≤ 40) {w : CellWrite} (hw : w ∈ alignmentsOf v) :
    ∃ p ∈ alignmentCentres v, InAlignment p w.row w.col ∧ w.colour = alignmentColour p w.row w.col := by
  obtain ⟨p, hp, hw⟩ := List.mem_flatMap.1 hw
  exact ⟨p, hp, alignmentWrite_cell (two_le_of_mem_pairsOf hv40 (List.mem_of_mem_filter hp)) hw⟩

theorem placeAlignment_get (hv40 : v ≤ 40) {p : Nat × Nat} (hp : p ∈ alignmentCentres v) {r c : Nat}
    (hr : r < moduleCount v) (hc : c < moduleCount v) (hin : InAlignment p r c) :
    (placeAlignment v (findersOf v)).get r c = alignmentColour p r c := by
  rw [placeAlignment_eq_paint hv40]
  obtain ⟨w, hw, hrc⟩ := exists_alignmentWrite hin
  refine paint_get_eq (findersOf_square v) hr hc ⟨w, List.mem_flatMap.2 ⟨p, hp, hw⟩, hrc⟩ fun w hw hwr hwc => ?_
  subst hwr hwc
  obtain ⟨q, hq, hinq, hx⟩ := alignmentsOf_cell hv40 hw
  rw [hx, InAlignment.unique hv40 (List.mem_of_mem_filter hp) (List.mem_of_mem_filter hq) hin hinq]

theorem placeAlignment_get_other (hv40 : v ≤ 40) {r c : Nat} (h : ∀ p ∈ alignmentCentres v, ¬ InAlignment p r c) :
    (placeAlignment v (findersOf v)).get r c = (findersOf v).get r c := by
  rw [placeAlignment_eq_paint hv40]
  refine paint_get_other (findersOf_square v) _ fun w hw hrc => ?_
  obtain ⟨rfl, rfl⟩ := hrc
  obtain ⟨p, hp, hin, -⟩ := alignmentsOf_cell hv40 hw
  exact h p hp hin

end Alignment

/-! ## The function patterns of a build (43_matrix.md R192 to R196) -/

section Patterns

variable {v : Nat} {r c : Nat} {x : Colour}

/-- The timing pattern keeps what the finders and the alignment patterns set. -/
theorem placeFunctionPatterns_get_of_set (hx : x ≠ .unset) (h : (placeAlignment v (findersOf v)).get r c = x) :
    (placeFunctionPatterns v).get r c = x := by
  have hsquare := (placeAlignment_extends (findersOf_square v) v).square
  exact (paintUnset_get_of_set hsquare _ (by rw [h]; exact hx)).trans h

/-- No alignment pattern meets a finder or its separator. -/
theorem not_inAlignment_of_inFinder (hv : 1 ≤ v) (hv40 : v ≤ 40) {p q : Nat × Nat}
    (hp : p ∈ finderCorners (moduleCount v)) (hin : InFinder p r c) (hq : q ∈ alignmentCentres v) :
    ¬ InAlignment q r c := by
  have hpos := alignmentCentre_position hv hv40 hq
  simp only [finderCorners, List.mem_cons, List.not_mem_nil, or_false, Prod.ext_iff] at hp
  unfold InFinder at hin
  unfold InAlignment
  omega

theorem placeAlignment_get_finder (hv : 1 ≤ v) (hv40 : v ≤ 40) {p : Nat × Nat}
    (hp : p ∈ finderCorners (moduleCount v)) (hr : r < moduleCount v) (hc : c < moduleCount v)
    (hin : InFinder p r c) : (placeAlignment v (findersOf v)).get r c = finderColour p r c := by
  have hn : moduleCount v = 4 * v + 17 := rfl
  rw [placeAlignment_get_other hv40 fun q hq => not_inAlignment_of_inFinder hv hv40 hp hin hq]
  exact placeFinders_get (Grid.blank_square _) (by omega) hp hr hc hin

/-- A cell of the timing pattern: column 6 or row 6 at index `k`, from 8 to n - 8. -/
def TimingCellOf (n k r c : Nat) : Prop := (8 ≤ k ∧ k + 8 ≤ n) ∧ ((r = k ∧ c = 6) ∨ (r = 6 ∧ c = k))

theorem mem_timingWrites {n : Nat} {w : CellWrite} : w ∈ timingWrites n ↔
    ∃ k, TimingCellOf n k w.row w.col ∧ w.colour = darkIf (k % 2 == 0) := by
  obtain ⟨r, c, x⟩ := w
  simp only [timingWrites, List.mem_flatMap, List.mem_range, List.mem_cons, CellWrite.mk.injEq, List.not_mem_nil,
    or_false, TimingCellOf]
  constructor
  · rintro ⟨i, hi, h⟩
    exact ⟨i + 8, by omega, by tauto⟩
  · rintro ⟨k, ⟨⟨hk8, hkn⟩, hrc⟩, hx⟩
    obtain ⟨i, rfl⟩ := Nat.exists_eq_add_of_le' hk8
    exact ⟨i, by omega, by tauto⟩

theorem TimingCellOf.unique {n j k : Nat} (hj : TimingCellOf n j r c) (hk : TimingCellOf n k r c) : j = k := by
  unfold TimingCellOf at hj hk
  omega

theorem alignmentColour_timing (hv : 1 ≤ v) (hv40 : v ≤ 40) {p : Nat × Nat} (hp : p ∈ alignmentCentres v) {k : Nat}
    (hk : TimingCellOf (moduleCount v) k r c) (hin : InAlignment p r c) :
    alignmentColour p r c = darkIf (k % 2 == 0) := by
  have hpos := alignmentCentre_position hv hv40 hp
  unfold TimingCellOf at hk
  unfold InAlignment at hin
  rw [alignmentColour, darkIf, darkIf]
  congr 1
  rw [Bool.eq_iff_iff]
  simp only [alignmentDark, Bool.or_eq_true, decide_eq_true_eq, beq_iff_eq]
  omega

theorem finderColour_timing (hv : 1 ≤ v) {p : Nat × Nat} (hp : p ∈ finderCorners (moduleCount v)) {k : Nat}
    (hk : TimingCellOf (moduleCount v) k r c) (hin : InFinder p r c) : finderColour p r c = darkIf (k % 2 == 0) := by
  have hn : moduleCount v = 4 * v + 17 := rfl
  simp only [finderCorners, List.mem_cons, List.not_mem_nil, or_false, Prod.ext_iff] at hp
  unfold InFinder at hin
  unfold TimingCellOf at hk
  have hodd : (k % 2 == 0) = false := by rw [beq_eq_false_iff_ne]; omega
  rw [hodd]
  exact finderColour_separator (by omega)

/-- Alignment patterns on the timing pattern, and the separators at its ends, have its colours. -/
theorem placeAlignment_get_timing (hv : 1 ≤ v) (hv40 : v ≤ 40) {k : Nat} (hk : TimingCellOf (moduleCount v) k r c)
    (hset : (placeAlignment v (findersOf v)).get r c ≠ .unset) :
    (placeAlignment v (findersOf v)).get r c = darkIf (k % 2 == 0) := by
  have hn : moduleCount v = 4 * v + 17 := rfl
  have hrange : r < moduleCount v ∧ c < moduleCount v := by unfold TimingCellOf at hk; omega
  by_cases halign : ∃ p ∈ alignmentCentres v, InAlignment p r c
  · obtain ⟨p, hp, hin⟩ := halign
    rw [placeAlignment_get hv40 hp hrange.1 hrange.2 hin, alignmentColour_timing hv hv40 hp hk hin]
  · by_cases hfinder : ∃ p ∈ finderCorners (moduleCount v), InFinder p r c
    · obtain ⟨p, hp, hin⟩ := hfinder
      rw [placeAlignment_get_finder hv hv40 hp hrange.1 hrange.2 hin, finderColour_timing hv hp hk hin]
    · refine absurd ?_ hset
      rw [placeAlignment_get_other hv40 (by simpa using halign), findersOf,
        placeFinders_get_other (Grid.blank_square _) (by simpa using hfinder), Grid.blank_get]

theorem placeFunctionPatterns_get_timing (hv : 1 ≤ v) (hv40 : v ≤ 40) {k : Nat}
    (hk : TimingCellOf (moduleCount v) k r c) : (placeFunctionPatterns v).get r c = darkIf (k % 2 == 0) := by
  have hrange : r < moduleCount v ∧ c < moduleCount v := by unfold TimingCellOf at hk; omega
  refine paintUnset_get_eq (placeAlignment_extends (findersOf_square v) v).square (timingWrites_set _) hrange.1 hrange.2
    ⟨⟨r, c, _⟩, mem_timingWrites.2 ⟨k, hk, rfl⟩, rfl, rfl⟩ (placeAlignment_get_timing hv hv40 hk)
    fun w hw hr hc => ?_
  subst hr hc
  obtain ⟨j, hj, hx⟩ := mem_timingWrites.1 hw
  rw [hx, hj.unique hk]

variable (cw : List Byte) (l : BitVec 2) (m : BitVec 3) (t : Bool)

/-- A function pattern outside the metadata cells is the build's. -/
theorem build_get_of_functionPatterns (hv : 1 ≤ v)
    (hx : x ≠ .unset) (hcell : ¬ MetadataCell v r c) (h : (placeFunctionPatterns v).get r c = x) :
    (build cw v l m t).get r c = x :=
  build_get_of_set hx ((placeMetadata_get_other hv (placeFunctionPatterns_column6 v).1 hcell).trans h)

theorem build_get_finder (hv : 1 ≤ v) (hv40 : v ≤ 40)
    {p : Nat × Nat} (hp : p ∈ finderCorners (moduleCount v)) (hr : r < moduleCount v) (hc : c < moduleCount v)
    (hin : InFinder p r c) : (build cw v l m t).get r c = finderColour p r c := by
  refine build_get_of_functionPatterns cw l m t hv (darkIf_ne_unset _) (fun hcell => ?_)
    (placeFunctionPatterns_get_of_set (darkIf_ne_unset _) (placeAlignment_get_finder hv hv40 hp hr hc hin))
  have hn : moduleCount v = 4 * v + 17 := rfl
  have hplace := hcell.place hv
  simp only [finderCorners, List.mem_cons, List.not_mem_nil, or_false, Prod.ext_iff] at hp
  unfold InFinder at hin
  omega

theorem build_get_template (hv : 1 ≤ v) (hv40 : v ≤ 40) {p : Nat × Nat} (hp : p ∈ finderCorners (moduleCount v))
    (hr : r < 7) (hc : c < 7) : (build cw v l m t).get (p.1 + r) (p.2 + c)
      = Colour.ofBit ((finderTemplate.getD r []).getD c false) := by
  have hn : moduleCount v = 4 * v + 17 := rfl
  have hcorner : p.1 + 7 ≤ moduleCount v ∧ p.2 + 7 ≤ moduleCount v := by
    simp only [finderCorners, List.mem_cons, List.not_mem_nil, or_false, Prod.ext_iff] at hp
    omega
  rw [← finderColour_template p hr hc]
  exact build_get_finder cw l m t hv hv40 hp (by omega) (by omega) (by unfold InFinder; omega)

theorem build_get_separator (hv : 1 ≤ v) (hv40 : v ≤ 40) {p : Nat × Nat} (hp : p ∈ finderCorners (moduleCount v))
    (h : (r < moduleCount v ∧ c < moduleCount v) ∧ InFinder p r c
      ∧ (r + 1 = p.1 ∨ r = p.1 + 7 ∨ c + 1 = p.2 ∨ c = p.2 + 7)) : (build cw v l m t).get r c = .light := by
  obtain ⟨⟨hr, hc⟩, hin, hedge⟩ := h
  exact (build_get_finder cw l m t hv hv40 hp hr hc hin).trans (finderColour_separator hedge)

theorem build_get_alignment (hv : 1 ≤ v) (hv40 : v ≤ 40)
    {p : Nat × Nat} (hp : p ∈ alignmentCentres v) (hin : InAlignment p r c) :
    (build cw v l m t).get r c = alignmentColour p r c := by
  have hpos := alignmentCentre_position hv hv40 hp
  have hcell : ¬ MetadataCell v r c := fun hcell => by
    have hplace := hcell.place hv
    unfold InAlignment at hin
    omega
  have hrange : r < moduleCount v ∧ c < moduleCount v := by unfold InAlignment at hin; omega
  exact build_get_of_functionPatterns cw l m t hv (darkIf_ne_unset _) hcell
    (placeFunctionPatterns_get_of_set (darkIf_ne_unset _) (placeAlignment_get hv40 hp hrange.1 hrange.2 hin))

theorem build_get_timing (hv : 1 ≤ v) (hv40 : v ≤ 40)
    {k : Nat} (hk : TimingCellOf (moduleCount v) k r c) : (build cw v l m t).get r c = darkIf (k % 2 == 0) := by
  refine build_get_of_functionPatterns cw l m t hv (darkIf_ne_unset _) (fun hcell => ?_)
    (placeFunctionPatterns_get_timing hv hv40 hk)
  have hplace := hcell.place hv
  unfold TimingCellOf at hk
  omega

end Patterns

/-- Settles O42: no later placement reaches a function pattern, and the patterns agree where they overlap. -/
theorem functionPatterns : Obligations.FunctionPatterns := by
  intro cw v l m t hv hv40 n g ps
  have hn : moduleCount v = n := rfl
  have h00 : (0, 0) ∈ finderCorners n := by simp [finderCorners]
  have hn0 : (n - 7, 0) ∈ finderCorners n := by simp [finderCorners]
  have h0n : (0, n - 7) ∈ finderCorners n := by simp [finderCorners]
  refine ⟨?_, fun k hk => ?_, fun p q dr dc hp hq h66 h6n hn6 hdr hdc => ?_, fun k hk8 hkn => ?_,
    alignmentList_ends v (by omega) hv⟩
  · intro r c hr hc x
    have upperLeft := build_get_template cw l m t hv hv40 h00 hr hc
    have lowerLeft := build_get_template cw l m t hv hv40 hn0 hr hc
    have upperRight := build_get_template cw l m t hv hv40 h0n hr hc
    simp only [Nat.zero_add] at upperLeft lowerLeft upperRight
    exact ⟨upperLeft, lowerLeft, upperRight⟩
  · have upperLeft := fun r c => build_get_separator (r := r) (c := c) cw l m t hv hv40 h00
    have lowerLeft := fun r c => build_get_separator (r := r) (c := c) cw l m t hv hv40 hn0
    have upperRight := fun r c => build_get_separator (r := r) (c := c) cw l m t hv hv40 h0n
    refine ⟨upperLeft 7 k ?_, upperLeft k 7 ?_, lowerLeft (n - 8) k ?_, lowerLeft (n - 8 + k) 7 ?_,
      upperRight 7 (n - 8 + k) ?_, upperRight k (n - 8) ?_⟩
    all_goals unfold InFinder; omega
  · have hcentre : (p, q) ∈ alignmentCentres v := (mem_alignmentCentres hv hv40).2 ⟨⟨hp, hq⟩, h66, h6n, hn6⟩
    have hpos : 2 ≤ p ∧ 2 ≤ q := two_le_of_mem_pairsOf hv40 (List.mem_of_mem_filter hcentre)
    rw [← alignmentColour_template (p := (p, q)) hpos hdr hdc]
    exact build_get_alignment cw l m t hv hv40 hcentre (by unfold InAlignment; omega)
  · exact ⟨build_get_timing cw l m t hv hv40 (k := k) (by unfold TimingCellOf; omega),
      build_get_timing cw l m t hv hv40 (k := k) (by unfold TimingCellOf; omega)⟩

end Sys2Proof.Machine

/-! SUPPORT. The proofs of the statements about masks and the whole symbol (44_mask_symbol.md): the penalty
rules as counts over cells, the first smallest penalty, and the symbol commands. -/

namespace Sys2Proof.Machine

/-! ## MASK.EVAL (44_mask_symbol.md R230, R231) -/

theorem State.arg1Low_eq (s : State) (w : Nat) : s.arg1Low w = s.arg1.toNat % 2 ^ w := by
  rw [State.arg1Low, BitVec.extractLsb'_toNat, Nat.shiftRight_zero]

theorem maskfn_iff {m : Nat} (h : m ≤ 7) (i j : Nat) : maskfn (BitVec.ofNat 3 m) i j = true ↔ maskRule m i j := by
  interval_cases m <;> simp [maskfn, maskRule]

theorem maskEvalBody_invalidMask {s : State} {m : Nat} (h : 7 < m) :
    maskEvalBody m s = .error ⟨.invalidMaskId, m⟩ := by
  rw [maskEvalBody, maskOperand_error.2 ⟨h, rfl⟩, error_bind]

theorem decode_maskEval {m : Nat} (h : m < 256) :
    decode (BitVec.ofNat 32 (0x40 + 2 ^ 8 * m)) = .ok (.maskEval m) := by
  have hwf : (Instr.maskEval m).WellFormed := decide_eq_true h
  have hword : encode (.maskEval m) = BitVec.ofNat 32 (0x40 + 2 ^ 8 * m) :=
    BitVec.eq_of_toNat_eq (by
      rw [encode_toNat hwf, BitVec.toNat_ofNat]
      simp only [Instr.opcode, Instr.operandA, Instr.operandB, BitVec.toNat_ofNat]
      omega)
  rw [← hword]
  exact decodeEncode _ hwf

/-- Settles O38: the mask operand is admitted or refused, and the mask function is its rule. -/
theorem maskEvalEffect : Obligations.MaskEvalEffect := by
  intro s m hm
  refine ⟨decode_maskEval hm, fun h7 => ?_, fun h7 => ?_⟩
  · rw [← s.arg0Low_eq, ← s.arg1Low_eq]
    exact ⟨_, maskfn_iff h7 _ _, exec_setRes_zero (i := .maskEval m) (maskEvalBody_ok.2 ⟨h7, rfl⟩)⟩
  · exact exec_error (i := .maskEval m) rfl (by omega) (maskEvalBody_invalidMask h7)

/-! ## Sums over cells -/

theorem sumOver_eq_sum (a b : Nat) (f : Nat → Nat → Nat) :
    sumOver a b f = ∑ p ∈ Finset.range a ×ˢ Finset.range b, f p.1 p.2 := by
  rw [Finset.sum_product]
  rfl

theorem sumOver_le {a b m : Nat} {f : Nat → Nat → Nat} (h : ∀ r k, f r k ≤ m) : sumOver a b f ≤ m * (a * b) := by
  have hsum := Finset.sum_le_card_nsmul (Finset.range a ×ˢ Finset.range b) (fun p => f p.1 p.2) m
    fun p _ => h p.1 p.2
  rwa [← sumOver_eq_sum, Finset.card_product, Finset.card_range, Finset.card_range, smul_eq_mul,
    Nat.mul_comm] at hsum

/-- A sum of flags over a corner of the matrix counts the corner's cells whose flag is set. -/
theorem sumOver_toNat {n a b : Nat} {f : Nat → Nat → Bool} {P : Nat × Nat → Prop} [DecidablePred P]
    (h : ∀ r k, r < n ∧ k < n ∧ P (r, k) ↔ r < a ∧ k < b ∧ f r k = true) :
    sumOver a b (fun r k => (f r k).toNat) = ((cellsOf n).filter P).card := by
  have hcells : (cellsOf n).filter P = (Finset.range a ×ˢ Finset.range b).filter (fun p => f p.1 p.2 = true) := by
    ext ⟨r, k⟩
    simpa [cellsOf, and_assoc] using h r k
  rw [sumOver_eq_sum, hcells, Finset.card_filter]
  exact Finset.sum_congr rfl fun p _ => by cases f p.1 p.2 <;> rfl

/-! ## Rule 1 (44_mask_symbol.md R233) -/

/-- The cell at an offset from another. -/
def cellAt (p : Nat × Nat) (d : Int × Int) : Nat × Nat := ((p.1 + d.1).toNat, (p.2 + d.2).toNat)

/-- The offset of a cell from another. -/
def offsetOf (p q : Nat × Nat) : Int × Int := (q.1 - p.1, q.2 - p.2)

theorem mem_neighbourOffsets {d : Int × Int} :
    d ∈ neighbourOffsets ↔ d ≠ (0, 0) ∧ (-1 ≤ d.1 ∧ d.1 ≤ 1) ∧ (-1 ≤ d.2 ∧ d.2 ≤ 1) := by
  obtain ⟨x, y⟩ := d
  simp only [neighbourOffsets, List.mem_cons, List.not_mem_nil, Prod.mk.injEq, ne_eq, or_false]
  omega

/-- An offset of the list that stays inside leads to a cell that touches. -/
theorem touch_cellAt {p : Nat × Nat} {d : Int × Int} (hd : d ∈ neighbourOffsets) (hrow : 0 ≤ p.1 + d.1)
    (hcol : 0 ≤ p.2 + d.2) : Touch p (cellAt p d) := by
  obtain ⟨hne, hd1, hd2⟩ := mem_neighbourOffsets.1 hd
  simp only [Touch, cellAt, ne_eq, Prod.ext_iff] at hne ⊢
  omega

theorem offsetOf_mem {p q : Nat × Nat} (h : Touch p q) : offsetOf p q ∈ neighbourOffsets := by
  simp only [mem_neighbourOffsets, offsetOf, Touch, ne_eq, Prod.ext_iff] at h ⊢
  omega

theorem cellAt_offsetOf (p q : Nat × Nat) : cellAt p (offsetOf p q) = q := by
  simp [cellAt, offsetOf]

theorem offsetOf_cellAt {p : Nat × Nat} {d : Int × Int} (hrow : 0 ≤ p.1 + d.1) (hcol : 0 ≤ p.2 + d.2) :
    offsetOf p (cellAt p d) = d := by
  simp only [cellAt, offsetOf, Prod.ext_iff]
  omega

/-- The neighbours of a cell are the cells that touch it, each at one offset. -/
theorem sameNeighbours_eq_card (g : Grid) (n : Nat) (p : Nat × Nat) : sameNeighbours g n p.1 p.2
    = ((cellsOf n).filter (fun q => Touch p q ∧ g.get q.1 q.2 = g.get p.1 p.2)).card := by
  rw [sameNeighbours, List.countP_eq_length_filter,
    ← List.toFinset_card_of_nodup ((by decide : neighbourOffsets.Nodup).filter _)]
  refine Finset.card_bij' (fun d _ => cellAt p d) (fun q _ => offsetOf p q) (fun d hd => ?_) (fun q hq => ?_)
    (fun d hd => ?_) fun q _ => cellAt_offsetOf p q
  all_goals
    simp only [cellsOf, List.mem_toFinset, List.mem_filter, Bool.and_eq_true, decide_eq_true_eq, Finset.mem_filter,
      Finset.mem_product, Finset.mem_range] at *
  · obtain ⟨hmem, ⟨hr0, hrn, hc0, hcn⟩, hcolour⟩ := hd
    exact ⟨by simp only [cellAt]; omega, touch_cellAt hmem hr0 hc0, hcolour⟩
  · obtain ⟨hcell, htouch, hcolour⟩ := hq
    rw [← cellAt_offsetOf p q] at hcolour
    exact ⟨offsetOf_mem htouch, by simp only [offsetOf]; omega, hcolour⟩
  · obtain ⟨-, ⟨hr0, -, hc0, -⟩, -⟩ := hd
    exact offsetOf_cellAt hr0 hc0

theorem penalty1_eq_sum (g : Grid) (n : Nat) : penalty1 g n = ∑ p ∈ cellsOf n,
    neighbourPenalty ((cellsOf n).filter (fun q => Touch p q ∧ g.get q.1 q.2 = g.get p.1 p.2)).card := by
  rw [penalty1, sumOver_eq_sum]
  exact Finset.sum_congr rfl fun p _ => by rw [sameNeighbours_eq_card]

theorem neighbourPenalty_le (g : Grid) (n r k : Nat) : neighbourPenalty (sameNeighbours g n r k) ≤ 6 := by
  have h : sameNeighbours g n r k ≤ 8 := List.countP_le_length
  unfold neighbourPenalty
  split <;> omega

/-! ## Rules 2 to 4 (44_mask_symbol.md R234 to R237) -/

theorem penalty2_eq_card (g : Grid) (n : Nat) : penalty2 g n
    = 3 * ((cellsOf n).filter (fun p => p.1 + 1 < n ∧ p.2 + 1 < n
      ∧ g.get p.1 p.2 = g.get (p.1 + 1) p.2 ∧ g.get p.1 p.2 = g.get p.1 (p.2 + 1)
      ∧ g.get p.1 p.2 = g.get (p.1 + 1) (p.2 + 1))).card := by
  refine congrArg (3 * ·) (sumOver_toNat fun r k => ?_)
  simp only [uniformBlock, decide_eq_true_eq]
  grind

theorem rowRun_sum_eq_card (g : Grid) (n : Nat) : sumOver n (n - 6) (fun r k => (rowRun g r k).toNat)
    = ((cellsOf n).filter (fun p => p.2 + 7 ≤ n
      ∧ (List.range 7).map (fun i => g.get p.1 (p.2 + i)) = finderRun)).card := by
  refine sumOver_toNat fun r k => ?_
  simp only [rowRun, decide_eq_true_eq]
  grind

theorem colRun_sum_eq_card (g : Grid) (n : Nat) : sumOver (n - 6) n (fun r k => (colRun g r k).toNat)
    = ((cellsOf n).filter (fun p => p.1 + 7 ≤ n
      ∧ (List.range 7).map (fun i => g.get (p.1 + i) p.2) = finderRun)).card := by
  refine sumOver_toNat fun r k => ?_
  simp only [colRun, decide_eq_true_eq]
  grind

theorem darkCount_eq_card (g : Grid) (n : Nat) :
    darkCount g n = ((cellsOf n).filter (fun p => g.get p.1 p.2 = .dark)).card :=
  sumOver_toNat fun r k => by simp only [decide_eq_true_eq]

/-- The nearest integer of a quotient, a half rounded up (44_mask_symbol.md R236). -/
theorem nearest_div {a b : Nat} (hb : 0 < b) :
    2 * ((2 * a + b) / (2 * b)) * b ≤ 2 * a + b ∧ 2 * a + b < 2 * ((2 * a + b) / (2 * b) + 1) * b := by
  have hle := Nat.div_mul_le_self (2 * a + b) (2 * b)
  have hlt := Nat.lt_div_mul_add (a := 2 * a + b) (show 0 < 2 * b by omega)
  constructor <;> nlinarith

theorem darkCount_le (g : Grid) (n : Nat) : darkCount g n ≤ n * n := by
  have h := sumOver_le (m := 1) (a := n) (b := n) fun r k => Bool.toNat_le (decide (g.get r k = .dark))
  rwa [Nat.one_mul] at h

theorem darkBalance_le {dark n : Nat} (h : dark ≤ n * n) : darkBalance dark n ≤ 100 := by
  have hcast : ((n * n : Nat) : Int) = (n : Int) * n := Nat.cast_mul n n
  have hquot : (2 * ((20 * dark : Int) - 10 * (n * n)).natAbs + n * n) / (2 * (n * n)) < 11 := by
    rcases Nat.eq_zero_or_pos (n * n) with hzero | hpos
    · simp [hzero]
    · rw [Nat.div_lt_iff_lt_mul (by omega)]
      omega
  unfold darkBalance
  omega

theorem penalty4_nearest (g : Grid) {n : Nat} (hn : 0 < n) :
    let num := ((20 * darkCount g n : Int) - 10 * (n * n : Nat)).natAbs
    ∃ k, penalty4 g n = 10 * k ∧ 2 * k * (n * n) ≤ 2 * num + n * n ∧ 2 * num + n * n < 2 * (k + 1) * (n * n) := by
  refine ⟨_, rfl, ?_⟩
  rw [Nat.cast_mul]
  exact nearest_div (Nat.mul_pos hn hn)

/-! ## The penalty of a symbol (44_mask_symbol.md R237) -/

theorem penalty1_le (g : Grid) (n : Nat) : penalty1 g n ≤ 6 * (n * n) := sumOver_le (neighbourPenalty_le g n)

theorem penalty2_le (g : Grid) (n : Nat) : penalty2 g n ≤ 3 * ((n - 1) * (n - 1)) := by
  have h := sumOver_le (m := 1) (a := n - 1) (b := n - 1) fun r k => Bool.toNat_le (uniformBlock g r k)
  rw [penalty2]
  omega

theorem penalty3_le (g : Grid) (n : Nat) : penalty3 g n ≤ 80 * (n * (n - 6)) := by
  have hrow := sumOver_le (m := 1) (a := n) (b := n - 6) fun r k => Bool.toNat_le (rowRun g r k)
  have hcol := sumOver_le (m := 1) (a := n - 6) (b := n) fun r k => Bool.toNat_le (colRun g r k)
  rw [Nat.mul_comm (n - 6)] at hcol
  unfold penalty3
  omega

theorem penalty4_le (g : Grid) (n : Nat) : penalty4 g n ≤ 100 := darkBalance_le (darkCount_le g n)

theorem penalty_lt {n : Nat} (g : Grid) (hn : n ≤ 177) : penalty g n < 2 ^ 32 := by
  have h1 := penalty1_le g n
  have h2 := penalty2_le g n
  have h3 := penalty3_le g n
  have h4 := penalty4_le g n
  have hcells : n * n ≤ 177 * 177 := Nat.mul_le_mul hn hn
  have hblocks : (n - 1) * (n - 1) ≤ n * n := Nat.mul_le_mul (Nat.sub_le n 1) (Nat.sub_le n 1)
  have hruns : n * (n - 6) ≤ n * n := Nat.mul_le_mul_left n (Nat.sub_le n 6)
  rw [penalty]
  omega

/-- Settles O47: each rule is a sum over cells, and the rules' bounds add up. -/
theorem penaltyRules : Obligations.PenaltyRules := by
  intro g n run num
  refine ⟨penalty1_eq_sum g n, penalty2_eq_card g n, ?_, darkCount_eq_card g n, penalty4_nearest g, penalty1_le g n,
    penalty2_le g n, penalty3_le g n, penalty4_le g n, rfl, penalty_lt g⟩
  rw [penalty3, rowRun_sum_eq_card, colRun_sum_eq_card]
  rfl

/-! ## MAT.SCORE (44_mask_symbol.md R239) -/

theorem matScoreBody_notReady {s : State} (h : s.sym = none) : matScoreBody s = .error ⟨.notReady, 0⟩ := by
  rw [matScoreBody, requireStage_error.2 ⟨h, rfl⟩, error_bind]

/-- Settles O46: the corner is scored as soon as there is a matrix. -/
theorem matScoreEffect : Obligations.MatScoreEffect :=
  ⟨by decide, fun _ => ⟨fun i hi => exec_ok (i := .matScore) (matScoreBody_ok.2 ⟨i, hi, rfl⟩),
    fun h => exec_error (i := .matScore) rfl (by decide) (matScoreBody_notReady h)⟩⟩

/-! ## MASK.SELECT (44_mask_symbol.md R240, R241) -/

/-- `b` is the first index below `n` of the smallest value of `f` there. -/
def FirstMin (f : Nat → Nat) (n b : Nat) : Prop :=
  b < n ∧ (∀ k, k < n → f b ≤ f k) ∧ ∀ k, k < b → f b < f k

theorem FirstMin.next {f : Nat → Nat} {n b : Nat} (h : FirstMin f n b) :
    FirstMin f (n + 1) (if f n < f b then n else b) := by
  obtain ⟨hb, hle, hlt⟩ := h
  split
  next hn =>
    have hall : ∀ k, k < n → f n < f k := fun k hk => hn.trans_le (hle k hk)
    refine ⟨n.lt_succ_self, fun k hk => ?_, hall⟩
    rcases Nat.lt_succ_iff_lt_or_eq.1 hk with hk | rfl
    · exact (hall k hk).le
    · exact le_rfl
  next hn =>
    refine ⟨Nat.lt_succ_of_lt hb, fun k hk => ?_, hlt⟩
    rcases Nat.lt_succ_iff_lt_or_eq.1 hk with hk | rfl
    · exact hle k hk
    · exact Nat.le_of_not_lt hn

/-- The search keeps the first smallest value of those it has seen. -/
theorem bestFrom_firstMin {f : Nat → Nat} {i b : Nat} (h : FirstMin f i b) (m : Nat) :
    FirstMin f (i + m) (bestFrom i (b, f b) ((List.range' i m).map f)) := by
  induction m generalizing i b with
  | zero => exact h
  | succ m ih =>
    have hbest : (if f i < (b, f b).2 then (i, f i) else (b, f b))
        = (if f i < f b then i else b, f (if f i < f b then i else b)) := by split <;> rfl
    rw [List.range'_succ, List.map_cons, bestFrom, hbest, ← Nat.succ_add_eq_add_succ]
    exact ih h.next

theorem bestMask_firstMin (f : Nat → Nat) (n : Nat) : FirstMin f (n + 1) (bestMask ((List.range (n + 1)).map f)) := by
  have h : FirstMin f 1 0 := ⟨Nat.one_pos, fun k hk => by rw [Nat.lt_one_iff.1 hk], nofun⟩
  rw [List.range_eq_range', List.range'_succ, Nat.add_comm n 1]
  exact bestFrom_firstMin h n

theorem State.setAllRes_map_range (f : Nat → Nat) (s : State) : s.setAllRes ((List.range 8).map f)
    = { s with res := Vector.ofFn (fun k : Fin 8 => BitVec.ofNat 32 (f k.val)) } := by
  rw [State.setAllRes]
  simp

/-- Settles O48: the trial penalties go to RES, and the search keeps the first smallest. -/
theorem maskSelectCompletes : Obligations.MaskSelectCompletes := by
  intro s i hi n pen
  obtain ⟨hbest, hle, hlt⟩ := bestMask_firstMin pen 7
  have hpens : trialPenalties (s.codewords i) i.version.toNat i.level = (List.range 8).map pen := rfl
  refine ⟨_, hbest, hle, hlt, ?_⟩
  rw [exec_ok (i := .maskSelect) (maskSelectBody_ok.2 ⟨i, hi, rfl⟩), hpens, State.setAllRes_map_range]
  rfl

/-! ## SYM.FINAL (44_mask_symbol.md R242) -/

/-- SYM.FINAL is the non-trial MAT.BUILD of the selected mask. -/
theorem exec_symFinal_eq_matBuild {s : State} {i : CwInfo} {m : BitVec 3} (hm : s.sel = some m) (hi : s.cw = some i) :
    exec .symFinal s = exec (.matBuild m.toNat false) s := by
  have hm7 : m.toNat ≤ 7 := Nat.le_of_lt_succ m.isLt
  rw [exec_ok (i := .symFinal) (symFinalBody_ok.2 ⟨m, hm, rfl⟩),
    exec_ok (i := .matBuild m.toNat false) (matBuildBody_ok.2 ⟨hm7, i, hi, rfl⟩), State.cinfo, hi, Option.getD_some,
    BitVec.ofNat_toNat, BitVec.setWidth_eq]

/-- Settles O49: what MAT.BUILD does, for the selected mask. -/
theorem symFinalCompletes : Obligations.SymFinalCompletes := by
  intro s i m hm hi
  obtain ⟨hbuild, -⟩ := matBuildEffect s i m.toNat false hi (by omega)
  rw [BitVec.ofNat_toNat, BitVec.setWidth_eq, ← exec_symFinal_eq_matBuild hm hi] at hbuild
  exact hbuild (Nat.le_of_lt_succ m.isLt)

/-! ## SYM.ENCODE (44_mask_symbol.md R253) -/

theorem exec_cwBuild_onSuccess {s t : State} (h : cwBuildBody s = .ok t) :
    exec .cwBuild s.onSuccess = .next t.onSuccess := by
  obtain ⟨i, cw, hi, hcw, rfl⟩ := cwBuildBody_ok.1 h
  refine (exec_ok (i := .cwBuild) ((cwBuildBody_ok (s := s.onSuccess)).2 ⟨i, cw, hi, hcw, rfl⟩)).trans ?_
  rfl

theorem exec_maskSelect_onSuccess {s t : State} (h : maskSelectBody s = .ok t) :
    exec .maskSelect s.onSuccess = .next t.onSuccess := by
  obtain ⟨i, hi, rfl⟩ := maskSelectBody_ok.1 h
  refine (exec_ok (i := .maskSelect) ((maskSelectBody_ok (s := s.onSuccess)).2 ⟨i, hi, rfl⟩)).trans ?_
  rfl

theorem exec_symFinal_onSuccess {s t : State} (h : symFinalBody s = .ok t) :
    exec .symFinal s.onSuccess = .next t.onSuccess := by
  obtain ⟨m, hm, rfl⟩ := symFinalBody_ok.1 h
  refine (exec_ok (i := .symFinal) ((symFinalBody_ok (s := s.onSuccess)).2 ⟨m, hm, rfl⟩)).trans ?_
  unfold State.buildMatrix
  rfl

/-- The four stage commands' pseudocode, each on the outputs of the one before: every stage becomes valid, for the
version and level of CFG. -/
theorem stageBodies_ok {s : State} {bs : List Block} (hbs : rsBlocks s.version s.cfgLevel = .ok bs)
    (hfits : segBits s.version s.payloadLen ≤ 8 * totalData bs) :
    ∃ s1 s2 s3 s4, segEncodeBody s = .ok s1 ∧ cwBuildBody s1 = .ok s2 ∧ maskSelectBody s2 = .ok s3
      ∧ symFinalBody s3 = .ok s4 ∧ s4.seg.isSome = true ∧ s4.cw.isSome = true
      ∧ ∃ m, s4.sel = some m ∧ s4.sym = some ⟨s.cfgVersion, s.cfgLevel, m, false⟩ := by
  obtain ⟨s1, h1, hseg1⟩ : ∃ s1, segEncodeBody s = .ok s1
      ∧ s1.seg = some ⟨BitVec.ofNat 12 (totalData bs), s.cfgVersion, s.cfgLevel⟩ :=
    ⟨_, segEncodeBody_ok.2 ⟨_, segAdmit_ok.2 ⟨bs, hbs, rfl, hfits⟩, rfl⟩, rfl⟩
  obtain ⟨ecs, -, hcw⟩ := cwBuild_ok hbs (s1.dataCodewords _)
  obtain ⟨s2, h2, hseg2, ncw, hcw2⟩ : ∃ s2, cwBuildBody s1 = .ok s2 ∧ s2.seg = s1.seg
      ∧ ∃ ncw, s2.cw = some ⟨ncw, s.cfgVersion, s.cfgLevel⟩ :=
    ⟨_, cwBuildBody_ok.2 ⟨_, _, hseg1, hcw, rfl⟩, rfl, _, rfl⟩
  obtain ⟨s3, h3, hseg3, hcw3, m, hsel3⟩ : ∃ s3, maskSelectBody s2 = .ok s3 ∧ s3.seg = s2.seg ∧ s3.cw = s2.cw
      ∧ ∃ m, s3.sel = some m :=
    ⟨_, maskSelectBody_ok.2 ⟨_, hcw2, rfl⟩, rfl, rfl, _, rfl⟩
  have h4 := symFinalBody_ok.2 ⟨m, hsel3, rfl⟩
  exact ⟨s1, s2, s3, _, h1, h2, h3, h4, by simp [hseg3, hseg2, hseg1], by simp [hcw3, hcw2], m, by simp [hsel3],
    by simp [State.cinfo, hcw3, hcw2]⟩

/-- Settles O50: each stage makes what the next requires, and a command reads nothing that the completion of the
one before writes. -/
theorem symEncodeIsFourCommands : Obligations.SymEncodeIsFourCommands := by
  intro s bs hbs hfits
  obtain ⟨s1, s2, s3, s4, h1, h2, h3, h4, hstages⟩ := stageBodies_ok hbs hfits
  exact ⟨s1.onSuccess, s2.onSuccess, s3.onSuccess, s4.onSuccess, exec_ok (i := .segEncode) h1,
    exec_cwBuild_onSuccess h2, exec_maskSelect_onSuccess h3, exec_symFinal_onSuccess h4,
    exec_ok (i := .symEncode) (symEncodeBody_ok.2 ⟨s1, s2, s3, h1, h2, h3, h4⟩), rfl, hstages⟩

/-! ## SYM.QUERY (44_mask_symbol.md R254) -/

theorem symQueryBody_notReady {s : State} (h : s.sym = none) : symQueryBody s = .error ⟨.notReady, 0⟩ := by
  rw [symQueryBody, requireStage_error.2 ⟨h, rfl⟩, error_bind]

theorem symQueryBody_outside {s : State} {i : SymInfo} (hi : s.sym = some i)
    (h : ¬ (0 ≤ s.arg0Signed ∧ s.arg0Signed < i.n ∧ 0 ≤ s.arg1Signed ∧ s.arg1Signed < i.n)) :
    symQueryBody s = .error ⟨.indexOutOfRange, 0⟩ := by
  rw [symQueryBody, requireStage_ok.2 hi, ok_bind, admitQuery_error.2 ⟨h, rfl⟩, error_bind]

theorem ofNat_toNat_decide (p : Prop) [Decidable p] :
    BitVec.ofNat 32 (decide p).toNat = if p then 1#32 else 0#32 := by
  by_cases h : p <;> simp [h]

/-- Settles O51: the matrix is required first, then the signed coordinates are admitted or refused. -/
theorem symQueryEffect : Obligations.SymQueryEffect := by
  refine fun s => ⟨fun i hi => ⟨fun h => ?_, fun h => ?_⟩, fun h => ?_⟩
  · rw [← ofNat_toNat_decide]
    exact exec_setRes_zero (i := .symQuery) (symQueryBody_ok.2 ⟨i, hi, h, rfl⟩)
  · exact exec_error (i := .symQuery) rfl (by decide) (symQueryBody_outside hi h)
  · exact exec_error (i := .symQuery) rfl (by decide) (symQueryBody_notReady h)

end Sys2Proof.Machine

/-! SUPPORT. The proofs of the statements about failures (60_exceptions.md): every step answers a next state, a
missing stage fails a command before any other check, and a failing command leaves only its record and the
invalidation of its stage. -/

namespace Sys2Proof.Machine

/-! ## No step stops the block (60_exceptions.md R277, R281) -/

theorem exec_next (i : Instr) (s : State) : ∃ t, exec i s = .next t := by
  rw [exec_eq_runCommand]
  exact runCommand_next i.opcode (stageOf i) (bodyOf i) s

theorem step_idle {s : State} (hidle : s.seq = .idle) : step s = .next s.hostTurn := by
  simp only [step, hidle]

theorem step_waiting {s : State} {k : Nat} (hbusy : s.seq = .busy) (hwait : s.wait = k + 1) :
    step s = .next (State.hostTurn { s with wait := k }) := by
  simp only [step, hbusy, hwait]

theorem step_decoded {s : State} {i : Instr} (hbusy : s.seq = .busy) (hwait : s.wait = 0)
    (h : decode s.cmd = .ok i) : step s = exec i s := by
  simp only [step, hbusy, hwait, h]

/-- Settles O8: a host turn, a command and the completion of an illegal word each answer a next state. -/
theorem stepNeverStops : Obligations.StepNeverStops := by
  intro s
  cases hseq : s.seq with
  | idle => exact ⟨_, step_idle hseq⟩
  | busy =>
    cases hwait : s.wait with
    | succ k => exact ⟨_, step_waiting hseq hwait⟩
    | zero =>
      cases hdecode : decode s.cmd with
      | error e => exact ⟨_, step_illegal hseq hwait hdecode⟩
      | ok i =>
        obtain ⟨t, ht⟩ := exec_next i s
        exact ⟨t, (step_decoded hseq hwait hdecode).trans ht⟩

/-! ## A missing stage (60_exceptions.md R270, R273, R279) -/

/-- The check of a stage that is not valid ends the pseudocode, whatever comes after it. -/
theorem requireStage_none_bind {α β : Type} {stage : Option α} (h : stage = none) (rest : α → Except Failure β) :
    (requireStage stage >>= rest) = .error ⟨.notReady, 0⟩ := by
  rw [requireStage_error.2 ⟨h, rfl⟩, error_bind]

theorem exec_notReady {i : Instr} {s : State} (h : bodyOf i s = .error ⟨.notReady, 0⟩) :
    exec i s = .next ((s.invalidateFor (stageOf i)).asFailed i.opcode.toNat 7#4) :=
  exec_error_stage (by decide) h

/-- Settles O52: each of these commands checks its stage first. -/
theorem stageRequired : Obligations.StageRequired := fun _ m t =>
  ⟨fun hseg => exec_notReady (i := .cwBuild) (requireStage_none_bind hseg _),
    fun hcw => ⟨exec_notReady (i := .matBuild m t) (requireStage_none_bind hcw _),
      exec_notReady (i := .maskSelect) (requireStage_none_bind hcw _)⟩,
    fun hsel => exec_notReady (i := .symFinal) (requireStage_none_bind hsel _),
    fun hsym => ⟨exec_notReady (i := .matScore) (matScoreBody_notReady hsym),
      exec_notReady (i := .symQuery) (symQueryBody_notReady hsym)⟩⟩

/-! ## A failure discards the command's writes (60_exceptions.md R279, R283) -/

/-- A command that ends with ERR set has failed: a success clears ERR. -/
theorem exec_err {i : Instr} {s t : State} (h : exec i s = .next t) (herr : t.err = true) :
    ∃ f, bodyOf i s = .error f ∧ t = s.onFailure i.opcode (stageOf i) f := by
  rcases exec_cases h with ⟨u, -, rfl⟩ | hfail
  · rw [State.onSuccess_err] at herr
    cases herr
  · exact hfail

/-- Settles O54: the failing completion starts from the state before the command. -/
theorem failureDiscardsWrites : Obligations.FailureDiscardsWrites := by
  intro i s t h herr
  obtain ⟨f, -, rfl⟩ := exec_err h herr
  obtain ⟨hlow, hhigh⟩ := f.code.code_bounds
  refine ⟨s.invalidateFor (stageOf i), f.detail, f.code.code, hlow, hhigh, State.onFailure_eq_asFailed .., ?_⟩
  cases stageOf i with
  | none => rfl
  | some stage => cases stage <;> rfl

end Sys2Proof.Machine

/-! SUPPORT. The proofs of the statements about the step and the reset input (70_reset_and_hazards.md): whose turn
a step is, what a completion hands back to the host, and what reset leaves. -/

namespace Sys2Proof.Machine

/-! ## Whose turn a step is (70_reset_and_hazards.md R310) -/

/-- Settles O6: a step completes the decoded command when no host turn is left, else it is the host's. -/
theorem stepRunsDecoded : Obligations.StepRunsDecoded :=
  ⟨fun _ _ => step_decoded, fun _ => step_idle, fun _ _ => step_waiting⟩

/-! ## Reset values (70_reset_and_hazards.md R291) -/

theorem State.reset_res_getD (k : Nat) : State.reset.res.toList.getD k 0#32 = 0#32 := by
  rw [State.reset, Vector.toList_replicate, List.getD_eq_getElem?_getD, List.getElem?_getD_replicate_default_eq]

/-- No register but ID shows anything after reset: the branches of readReg are 14 register words, RES, and 0. -/
theorem State.reset_readReg_of_ne {off : Nat} (h : off ≠ 0) : State.reset.readReg off = 0#32 := by
  rw [State.readReg, if_neg h]
  iterate 14 refine ite_eq_iff'.2 ⟨fun _ => rfl, fun _ => ?_⟩
  exact ite_eq_iff'.2 ⟨fun _ => State.reset_res_getD _, fun _ => rfl⟩

theorem State.reset_readReg (off : Nat) :
    State.reset.readReg off = if off = 0 then 0x51524307#32 else 0#32 := by
  split
  next h => rw [h]; rfl
  next h => exact State.reset_readReg_of_ne h

/-- The reset input differs from power-up in the model's own fields only, and no register shows those. -/
theorem State.pulseReset_readReg (s : State) (off : Nat) :
    s.pulseReset.readReg off = State.reset.readReg off := rfl

/-- Settles O15: the bus map shows the registers of reset, whether by power-up or by the reset input. -/
theorem resetValues : Obligations.ResetValues := by
  refine ⟨fun off hoff h4 => ⟨?_, fun s => ?_⟩, rfl, fun _ => rfl⟩
  · rw [State.memRead_register hoff h4, State.reset_readReg]
  · rw [State.memRead_register hoff h4, State.pulseReset_readReg, State.reset_readReg]

/-! ## The reset input and a command in progress (70_reset_and_hazards.md R290, R292, R293) -/

theorem State.hostTurn_reset {s : State} {q : List HostEvent} (hq : s.hostQ = .reset :: q) :
    s.hostTurn = State.pulseReset { s with hostQ := q } := by
  rw [State.hostTurn, hq]
  rfl

/-- A pulse takes effect at the host's turn, IDLE or BUSY: how many turns were left does not matter. -/
theorem step_reset {s : State} {q : List HostEvent} (hq : s.hostQ = .reset :: q)
    (hturn : s.seq = .idle ∨ s.wait ≠ 0) : step s = .next (State.pulseReset { s with hostQ := q }) := by
  obtain ⟨t, ht⟩ := stepNeverStops s
  rw [ht]
  rcases step_cases ht with ⟨-, rfl⟩ | ⟨k, -, -, rfl⟩ | ⟨i, hbusy, hwait, -, -⟩ | ⟨e, hbusy, hwait, -, -⟩
  · rw [State.hostTurn_reset hq]
  · exact congrArg _ (State.hostTurn_reset (s := { s with wait := k }) hq)
  · simp [hbusy, hwait] at hturn
  · simp [hbusy, hwait] at hturn

/-- What the host is left with when a command completes. -/
theorem exec_host {i : Instr} {s t : State} (h : exec i s = .next t) :
    t.seq = .idle ∧ t.hostQ = s.hostQ ∧ t.replies = s.replies := by
  rcases exec_cases h with ⟨u, hu, rfl⟩ | ⟨f, -, rfl⟩
  · have host := (bodyOf_framed hu).host
    exact ⟨rfl, host.hostQ, host.replies⟩
  · exact ⟨rfl, State.onFailure_hostQ .., State.onFailure_replies ..⟩

/-- The completing step is the core's: it ends IDLE, with the host's queue and replies as they were. -/
theorem step_completes {s : State} (hbusy : s.seq = .busy) (hwait : s.wait = 0) :
    ∃ t, step s = .next t ∧ t.seq = .idle ∧ t.hostQ = s.hostQ ∧ t.replies = s.replies := by
  cases hdecode : decode s.cmd with
  | ok i =>
    obtain ⟨t, ht⟩ := exec_next i s
    exact ⟨t, (step_decoded hbusy hwait hdecode).trans ht, exec_host ht⟩
  | error e => exact ⟨_, step_illegal hbusy hwait hdecode, rfl, rfl, rfl⟩

/-- Settles O16: a completing step leaves the pulse in the queue and the block IDLE, so the next step takes it. -/
theorem resetTakesItsTurn : Obligations.ResetTakesItsTurn := by
  refine fun s q hq => ⟨step_reset hq, fun hbusy hwait => ?_⟩
  obtain ⟨t, hstep, hidle, hqueue, hreplies⟩ := step_completes hbusy hwait
  exact ⟨t, hstep, hidle, hreplies, step_reset (hqueue.trans hq) (.inl hidle)⟩

end Sys2Proof.Machine

/-! SUPPORT. The proofs of what an admitted host write does (20_memory.md R66; 70_reset_and_hazards.md R300,
R301) and of the completion of a word placed as the next command. -/

namespace Sys2Proof.Machine

/-! ## A word placed as the next command (70_reset_and_hazards.md R300, R310) -/

theorem decode_of_decodeTableWord {w nbits : Nat} {i : Instr} (h : decodeTableWord nbits w = some i) :
    decode (tableWord nbits w) = .ok i := by
  unfold decodeTableWord at h
  cases hd : decode (tableWord nbits w) with
  | ok j => rw [hd] at h; exact congrArg Except.ok (Option.some.inj h)
  | error e => rw [hd] at h; cases h

theorem tableWord_full (w : Nat) : tableWord 32 w = BitVec.ofNat 32 w := by
  apply BitVec.eq_of_toNat_eq
  rw [tableWord, BitVec.toNat_ofNat, BitVec.toNat_ofNat, Nat.mod_mod]

/-- Settles O7: the placed word is in CMD with no turn left, and a write to CMD while IDLE accepts it too. -/
theorem fetchWordRuns : Obligations.FetchWordRuns := by
  refine fun s w i h => ⟨step_decoded rfl rfl (decode_of_decodeTableWord h), fun hidle => ?_⟩
  rw [State.hostWrite_cmd _ hidle, ← tableWord_full]
  rfl

/-! ## Admitted host writes (20_memory.md R66) -/

section AdmittedWrites

variable {s : State} {a : Nat} {n : AccessSize}

theorem admitted_of_aligned (hwindow : a < 0x100 → n = .b4 ∧ a % 4 = 0)
    (hbuffer : (regionOf a).isSome = true → a % n.bytes = 0) : admitted a n = true := by
  by_contra h
  rcases admitted_eq_false_iff.1 (Bool.eq_false_of_not_eq_true h) with ⟨ha, hn⟩ | ⟨hr, hn⟩
  · exact hn (hwindow ha)
  · exact hn (hbuffer hr)

/-- The buffers the host may write are PBUF, PA and PB, one after the other (20_memory.md R61). -/
theorem hostWritable_region_iff :
    (∃ r, regionOf a = some r ∧ r.hostWritable = true) ↔ 0x1000 ≤ a ∧ a < 0x2200 := by
  simp only [regionOf_eq_some_iff, Region.holds_iff]
  constructor
  · rintro ⟨r, hr, hwritable⟩
    cases r <;> simp only [Region.base, Region.size, Region.hostWritable, reduceCtorEq] at hr hwritable <;> omega
  · intro h
    by_cases hpbuf : a < 0x2000
    · exact ⟨.pbuf, by simp only [Region.base, Region.size]; omega, rfl⟩
    · by_cases hpa : a < 0x2100
      · exact ⟨.pa, by simp only [Region.base, Region.size]; omega, rfl⟩
      · exact ⟨.pb, by simp only [Region.base, Region.size]; omega, rfl⟩

/-- A write of STATUS, IDLE or BUSY, clears OVERRUN by bit 3 and writes nothing else (10_state.md R24). -/
theorem State.hostWrite_status (v : Word) :
    s.hostWrite 0x008 .b4 v = { s with overrun := s.overrun && !v.getLsbD 3 } := by
  have hwrite : s.hostWrite 0x008 .b4 v = s.writeStatus v := rfl
  rw [hwrite, State.writeStatus]
  cases v.getLsbD 3 <;> simp

theorem State.writeReg_readOnly (v : Word) (ha : a ∉ [0x010, 0x014, 0x018, 0x01C, 0x020, 0x024]) :
    s.writeReg a v = s := by
  simp only [List.mem_cons, List.not_mem_nil, or_false, not_or] at ha
  obtain ⟨hcfg, hplen, harg0, harg1, hla, hlb⟩ := ha
  rw [State.writeReg, if_neg hcfg, if_neg hplen, if_neg harg0, if_neg harg1, if_neg hla, if_neg hlb]

/-- Beyond the register window a write outside the buffers the host may write has no effect. -/
theorem State.writeBytes_unwritable (v : Word) (h : ¬ (0x1000 ≤ a ∧ a < 0x2200)) : s.writeBytes a n v = s := by
  unfold State.writeBytes
  split
  next => rfl
  next r hr => exact if_neg fun hwritable => h (hostWritable_region_iff.1 ⟨r, hr, hwritable⟩)

/-- An admitted write, while IDLE, of an address the host may not write has no effect. -/
theorem State.hostWrite_unwritable (v : Word) (hidle : s.seq = .idle) (hadmitted : admitted a n = true)
    (hreg : a ∉ [0x004, 0x008, 0x010, 0x014, 0x018, 0x01C, 0x020, 0x024])
    (hbuf : ¬ (0x1000 ≤ a ∧ a < 0x2200)) : s.hostWrite a n v = s := by
  rw [List.mem_cons, List.mem_cons, not_or, not_or] at hreg
  obtain ⟨hcmd, hstatus, hreg⟩ := hreg
  rw [State.hostWrite, if_pos hadmitted, if_neg hstatus, if_neg (by rw [hidle]; decide), if_neg hcmd]
  split
  · exact State.writeReg_readOnly v hreg
  · exact State.writeBytes_unwritable v hbuf

/-- What a write of a word's low `m` bytes does to every byte (20_memory.md R62). -/
theorem byteAt_write (v : Word) (m x : Nat) :
    { s with mem := s.mem.write a (bytesOfWord v m) : State }.byteAt x =
      if a ≤ x ∧ x < a + m then v.extractLsb' (8 * (x - a)) 8 else s.byteAt x := by
  split
  next h =>
    obtain ⟨k, rfl⟩ := Nat.exists_eq_add_of_le h.1
    rw [byteAt_write_inside v (by omega), Nat.add_sub_cancel_left]
  next h =>
    unfold State.byteAt
    rw [Memory.read?_write_outside]
    rw [bytesOfWord_length]
    omega

end AdmittedWrites

/-- Settles O9: STATUS and a BUSY block come first, then CMD, the RW registers, the buffers, and the rest. -/
theorem hostWriteRule : Obligations.HostWriteRule := by
  intro s a n v hwindow hbuffer t
  have window : ∀ off u, off < 0x100 → s.hostWrite off .b4 v = u → a = off → t = u := by
    rintro off u hoff rfl rfl
    obtain ⟨rfl, -⟩ := hwindow hoff
    rfl
  refine ⟨window _ _ (by decide) (State.hostWrite_status v),
    fun hstatus hbusy => State.hostWrite_busy v hbusy hstatus, fun hidle => ?_⟩
  have register : ∀ off u, off < 0x100 → off % 4 = 0 → off ≠ 0x004 → off ≠ 0x008 → s.writeReg off v = u →
      a = off → t = u := fun off u hoff h4 hcmd hstatus hu =>
    window off u hoff ((State.hostWrite_register v hidle hoff h4 hcmd hstatus).trans hu)
  refine ⟨window _ _ (by decide) (State.hostWrite_cmd v hidle),
    register _ _ (by decide) (by decide) (by decide) (by decide) rfl,
    register _ _ (by decide) (by decide) (by decide) (by decide) rfl,
    register _ _ (by decide) (by decide) (by decide) (by decide) rfl,
    register _ _ (by decide) (by decide) (by decide) (by decide) rfl,
    register _ _ (by decide) (by decide) (by decide) (by decide) rfl,
    register _ _ (by decide) (by decide) (by decide) (by decide) rfl, fun h => ?_,
    State.hostWrite_unwritable v hidle (admitted_of_aligned hwindow hbuffer)⟩
  obtain ⟨r, hr, hwritable⟩ := (hostWritable_region_iff (a := a)).2 (by omega)
  have ht : t = { s with mem := s.mem.write a (bytesOfWord v n.bytes) } :=
    State.hostWrite_buffer v hidle hr hwritable (hbuffer (by rw [hr]; rfl))
  rw [ht]
  exact ⟨rfl, byteAt_write v n.bytes⟩

end Sys2Proof.Machine
